-- ==== Sys2Proof/Word.lean ====
section
/-! DEFINITION. The value types of SCHC-RMC: bytes, 32-bit words and 64-bit descriptor words
(spec/00_scope.md R9: no value is signed; every field value is an unsigned 32-bit integer). -/

namespace Sys2Proof

/-- One byte of a buffer, a header, a tag or an id. -/
abbrev Byte := BitVec 8

/-- A 32-bit value: a host register as it is read, a Header Context register, a CMD value (R9, R22). -/
abbrev Word := BitVec 32

/-- A 64-bit field-descriptor word of the Rule ROM (spec/30_encoding.md R52). -/
abbrev FdWord := BitVec 64

end Sys2Proof
end

