-- ==== Sys2Proof/Syntax.lean ====
section
/-! DEFINITION. The syntax: field descriptors, the units that read an encoded word, and the instructions,
one constructor per row of spec/opcode_table.json. -/

namespace Sys2Proof

/-- The three matchOps (spec/30_encoding.md R54, mnemonics EQ, IGN, MSB). -/
inductive MatchOp where
  | eq
  | ign
  | msb
deriving DecidableEq, Repr

/-- The six actions (spec/30_encoding.md R55, mnemonics NS, VS, LSB, CMP, CKS, DEV). -/
inductive Action where
  | ns
  | vs
  | lsb
  | cmp
  | cks
  | dev
deriving DecidableEq, Repr

/-- A field descriptor (spec/30_encoding.md R52): targetValue, bitLength, msbBitLength, matchOp and action.
Its reserved matchOp and action codes and reserved bits have no value here: WF6, WF7 and WF8 hold of every
descriptor, and decoding a ROM word that breaks one is rejected (Decode.lean). -/
structure Descriptor where
  tv  : Word
  bl  : BitVec 6
  msb : BitVec 6
  mo  : MatchOp
  act : Action
deriving DecidableEq, Repr

/-- Who reads an encoded word. A CMD value is read by the command decoder (R57); a descriptor word is read by a
comparator lane for its MO field (R54), and by the residual encoder or the field decoder for its ACT field (R55).
One descriptor word is therefore three instructions, one for each unit. -/
inductive Port where
  | cmd
  | comparator
  | encoder
  | decoder
deriving DecidableEq, Repr

/-- The instructions. The four commands have no operand. A comparator instruction carries the descriptor but for
the matchOp its constructor names; an action instruction carries it but for the action. The position p is no part
of any encoding: it is the walk counter (R11, R20). -/
inductive Instr where
  /-- COMPRESS (R89). -/
  | compress
  /-- DECOMPRESS (R106). -/
  | decompress
  /-- MATCH (R77). -/
  | matchCmd
  /-- IDSYNTH (R110). -/
  | idsynth
  /-- MATCHOP.EQ (R72). -/
  | matchEq (tv : Word) (bl msb : BitVec 6) (act : Action)
  /-- MATCHOP.IGN (R73). -/
  | matchIgn (tv : Word) (bl msb : BitVec 6) (act : Action)
  /-- MATCHOP.MSB (R74). -/
  | matchMsb (tv : Word) (bl msb : BitVec 6) (act : Action)
  /-- ACT.NS.COMPRESS (R81). -/
  | nsCompress (tv : Word) (bl msb : BitVec 6) (mo : MatchOp)
  /-- ACT.NS.DECOMPRESS (R96). -/
  | nsDecompress (tv : Word) (bl msb : BitVec 6) (mo : MatchOp)
  /-- ACT.VS.COMPRESS (R82). -/
  | vsCompress (tv : Word) (bl msb : BitVec 6) (mo : MatchOp)
  /-- ACT.VS.DECOMPRESS (R97). -/
  | vsDecompress (tv : Word) (bl msb : BitVec 6) (mo : MatchOp)
  /-- ACT.LSB.COMPRESS (R83). -/
  | lsbCompress (tv : Word) (bl msb : BitVec 6) (mo : MatchOp)
  /-- ACT.LSB.DECOMPRESS (R98). -/
  | lsbDecompress (tv : Word) (bl msb : BitVec 6) (mo : MatchOp)
  /-- ACT.CMP.COMPRESS (R84). -/
  | cmpCompress (tv : Word) (bl msb : BitVec 6) (mo : MatchOp)
  /-- ACT.CMP.DECOMPRESS (R99). -/
  | cmpDecompress (tv : Word) (bl msb : BitVec 6) (mo : MatchOp)
  /-- ACT.CKS.COMPRESS (R85). -/
  | cksCompress (tv : Word) (bl msb : BitVec 6) (mo : MatchOp)
  /-- ACT.CKS.DECOMPRESS (R100). -/
  | cksDecompress (tv : Word) (bl msb : BitVec 6) (mo : MatchOp)
  /-- ACT.DEV.COMPRESS (R86). -/
  | devCompress (tv : Word) (bl msb : BitVec 6) (mo : MatchOp)
  /-- ACT.DEV.DECOMPRESS (R101). -/
  | devDecompress (tv : Word) (bl msb : BitVec 6) (mo : MatchOp)
deriving DecidableEq, Repr

/-- The unit that reads an instruction's word. -/
def Instr.port : Instr → Port
  | .compress => .cmd
  | .decompress => .cmd
  | .matchCmd => .cmd
  | .idsynth => .cmd
  | .matchEq _ _ _ _ => .comparator
  | .matchIgn _ _ _ _ => .comparator
  | .matchMsb _ _ _ _ => .comparator
  | .nsCompress _ _ _ _ => .encoder
  | .vsCompress _ _ _ _ => .encoder
  | .lsbCompress _ _ _ _ => .encoder
  | .cmpCompress _ _ _ _ => .encoder
  | .cksCompress _ _ _ _ => .encoder
  | .devCompress _ _ _ _ => .encoder
  | .nsDecompress _ _ _ _ => .decoder
  | .vsDecompress _ _ _ _ => .decoder
  | .lsbDecompress _ _ _ _ => .decoder
  | .cmpDecompress _ _ _ _ => .decoder
  | .cksDecompress _ _ _ _ => .decoder
  | .devDecompress _ _ _ _ => .decoder

/-- The whole descriptor an instruction was read from; a command has none. -/
def Instr.descriptor : Instr → Option Descriptor
  | .compress => none
  | .decompress => none
  | .matchCmd => none
  | .idsynth => none
  | .matchEq tv bl msb act => some ⟨tv, bl, msb, .eq, act⟩
  | .matchIgn tv bl msb act => some ⟨tv, bl, msb, .ign, act⟩
  | .matchMsb tv bl msb act => some ⟨tv, bl, msb, .msb, act⟩
  | .nsCompress tv bl msb mo => some ⟨tv, bl, msb, mo, .ns⟩
  | .nsDecompress tv bl msb mo => some ⟨tv, bl, msb, mo, .ns⟩
  | .vsCompress tv bl msb mo => some ⟨tv, bl, msb, mo, .vs⟩
  | .vsDecompress tv bl msb mo => some ⟨tv, bl, msb, mo, .vs⟩
  | .lsbCompress tv bl msb mo => some ⟨tv, bl, msb, mo, .lsb⟩
  | .lsbDecompress tv bl msb mo => some ⟨tv, bl, msb, mo, .lsb⟩
  | .cmpCompress tv bl msb mo => some ⟨tv, bl, msb, mo, .cmp⟩
  | .cmpDecompress tv bl msb mo => some ⟨tv, bl, msb, mo, .cmp⟩
  | .cksCompress tv bl msb mo => some ⟨tv, bl, msb, mo, .cks⟩
  | .cksDecompress tv bl msb mo => some ⟨tv, bl, msb, mo, .cks⟩
  | .devCompress tv bl msb mo => some ⟨tv, bl, msb, mo, .dev⟩
  | .devDecompress tv bl msb mo => some ⟨tv, bl, msb, mo, .dev⟩

end Sys2Proof
end

