-- ==== Sys2Proof/Config.lean ====
section
/-! DEFINITION. The configuration: what is fixed at elaboration and is no state (spec/10_state.md R13-R16,
spec/00_scope.md R6), the free values, and the configuration that State.reset carries. -/

namespace Sys2Proof

/-- A rule (spec/30_encoding.md R51): an 8-bit id and exactly 18 field descriptors, one for each position.
A rule with a missing field cannot be represented. -/
structure Rule where
  id     : Byte
  fields : Vector Descriptor 18
deriving DecidableEq, Repr

/-- The parameters of spec/00_scope.md R6. NFIELDS, HDR_BYTES and UDP_HDR_BYTES are the constants 18, 48 and 8.
N_RULES is the number of rules. The five modes are true for 1 and false for 0. -/
structure Config where
  /-- RULES, in scan order (R13). -/
  rules         : List Rule
  /-- DEVID[0..7] (R15). -/
  devid         : Vector Byte 8
  /-- DEVID_LEN (R15). -/
  devidLen      : Nat
  /-- BUF_BYTES (R6). -/
  bufBytes      : Nat
  /-- P_SCAN_FIRST_ONLY (R76). -/
  scanFirstOnly : Bool
  /-- P_VS_FROM_HEADER (R82). -/
  vsFromHeader  : Bool
  /-- P_CMP_FLPL_LE (R82). -/
  cmpFlplLe     : Bool
  /-- P_LSB_DEC_READ (R98). -/
  lsbDecRead    : Bool
  /-- P_UDP_LE (R62). -/
  udpLe         : Bool
deriving DecidableEq, Repr

/-- N_RULES (R6, R13). -/
abbrev Config.nRules (cfg : Config) : Nat := cfg.rules.length

/-- HDR_BYTES (R6). -/
abbrev hdrBytes : Nat := 48

/-- UDP_HDR_BYTES, the source's transportHeaderSize (R6, R102). -/
abbrev udpHdrBytes : Nat := 8

/-- The size of OBUF (spec/10_state.md R32). -/
abbrev Config.obufBytes (cfg : Config) : Nat := cfg.bufBytes + 47

/-- FREE VALUE (spec/93_implementation_defined.md U1, U2, U3, U5): the byte that an unspecified cell of IBUF or
OBUF holds, for each draw and each index. Log entries 5 and 6. -/
opaque Config.freeByte : Nat → Nat → Byte

/-- FREE VALUE (spec/93_implementation_defined.md U4): the value a host read of OBUF, OUT_LEN, HDR_LEN, IDW0 or
IDW1 returns while BUSY = 1, for each draw. Log entry 7. -/
opaque Config.freeWord : Nat → Word

/-! ## The example configuration (spec/95_test_vectors.md section 2)

DESIGN CHOICE, unsafe, log entry 1: `State.reset` carries it, since N_RULES, RULES, DEVID, DEVID_LEN and BUF_BYTES
are OPEN. No statement rests on it. -/

/-- The text form FD(bl, msb, tv, MO, ACT) of spec/30_encoding.md R65. -/
def fd (bl msb : BitVec 6) (tv : Word) (mo : MatchOp) (act : Action) : Descriptor := ⟨tv, bl, msb, mo, act⟩

/-- STATIC(bl, v) of spec/30_encoding.md R66. -/
def fdStatic (bl : BitVec 6) (v : Word) : Descriptor := fd bl 0 v .eq .ns

/-- SENT(bl, v) of R66. -/
def fdSent (bl : BitVec 6) (v : Word) : Descriptor := fd bl 0 v .ign .vs

/-- EQSENT(bl, v) of R66. -/
def fdEqSent (bl : BitVec 6) (v : Word) : Descriptor := fd bl 0 v .eq .vs

/-- LENGTH(bl) of R66. -/
def fdLength (bl : BitVec 6) : Descriptor := fd bl 0 0 .ign .cmp

/-- CSUM(bl) of R66. -/
def fdCsum (bl : BitVec 6) : Descriptor := fd bl 0 0 .ign .cks

/-- IID(v) of R66. -/
def fdIid (v : Word) : Descriptor := fd 32 0 v .eq .dev

/-- ANYIID() of R66. -/
def fdAnyIid : Descriptor := fd 32 0 0 .ign .dev

/-- PREFIX(bl, msb, v) of R66. -/
def fdPrefix (bl msb : BitVec 6) (v : Word) : Descriptor := fd bl msb v .msb .lsb

/-- A rule shaped like Rule 1 of rule set A, with its descriptors at positions 5, 14 and 15 given. -/
def exampleRule (id : Byte) (d5 d14 d15 : Descriptor) : Rule :=
  { id := id,
    fields := #v[fdStatic 4 6, fdStatic 8 0, fdStatic 20 0, fdLength 16, fdStatic 8 17, d5,
      fdStatic 32 0x000080FE, fdStatic 32 0, fdIid 0x49D5B370, fdIid 0x34120090,
      fdStatic 32 0x000080FE, fdStatic 32 0, fdStatic 32 0, fdStatic 32 0x01000000,
      d14, d15, fdLength 16, fdCsum 16] }

/-- Rule 1 of rule set A. -/
def exampleRule1 : Rule := exampleRule 1 (fdStatic 8 255) (fdStatic 16 1086) (fdStatic 16 5683)

/-- Rule 2 of rule set A. -/
def exampleRule2 : Rule := exampleRule 2 (fdSent 8 64) (fdStatic 16 1086) (fdStatic 16 5683)

/-- Rule set A, the identity 70 B3 D5 49 90 00 12 34, BUF_BYTES = 255 and the default modes: the start of every
program of spec/95_test_vectors.md section 9. -/
def Config.reference : Config :=
  { rules := [exampleRule1, exampleRule2],
    devid := #v[0x70, 0xB3, 0xD5, 0x49, 0x90, 0x00, 0x12, 0x34],
    devidLen := 8,
    bufBytes := 255,
    scanFirstOnly := false,
    vsFromHeader := false,
    cmpFlplLe := false,
    lsbDecRead := true,
    udpLe := false }

end Sys2Proof
end

