-- ==== Sys2Proof/WellFormed.lean ====
section
/-! DEFINITION. Well-formedness (spec/30_encoding.md R56): the checks WF1-WF5, WF9 and WF10 under their own names.
WF6, WF7 and WF8 are checked where a ROM word is decoded (Decode.lean): no `Descriptor` breaks them. -/

namespace Sys2Proof

/-- WF3: bitLength is at most 32. -/
def Descriptor.wf3 (d : Descriptor) : Bool := d.bl.toNat ≤ 32

/-- WF4: msbBitLength is at most bitLength. -/
def Descriptor.wf4 (d : Descriptor) : Bool := d.msb.toNat ≤ d.bl.toNat

/-- WF5: targetValue fits in bitLength bits unless the matchOp is Ignore. -/
def Descriptor.wf5 (d : Descriptor) : Bool := d.mo = .ign || d.tv.toNat < 2 ^ d.bl.toNat

/-- The positions that hold an interface-identifier part (WF9; spec/10_state.md R18). -/
def iidPosition (p : Nat) : Bool := p = 8 || p = 9 || p = 12 || p = 13

/-- WF9: DeriveFromDeviceId stands only at an interface-identifier position. -/
def Descriptor.wf9 (d : Descriptor) (p : Nat) : Bool := d.act ≠ .dev || iidPosition p

/-- A descriptor is well-formed by itself (WF3, WF4, WF5). -/
def Descriptor.wf (d : Descriptor) : Bool := d.wf3 && d.wf4 && d.wf5

/-- A descriptor is well-formed at position p (WF3, WF4, WF5, WF9). -/
def Descriptor.wfAt (d : Descriptor) (p : Nat) : Bool := d.wf && d.wf9 p

/-- A command is always well-formed; a descriptor instruction is when its descriptor is. -/
def Instr.wf (i : Instr) : Bool :=
  match i.descriptor with
  | none => true
  | some d => d.wf

/-- An instruction is well-formed at position p. -/
def Instr.wfAt (i : Instr) (p : Nat) : Bool :=
  match i.descriptor with
  | none => true
  | some d => d.wfAt p

/-- WF1: at most 255 rules. -/
def Config.wf1 (cfg : Config) : Bool := cfg.nRules ≤ 255

/-- WF2: the id of rule k is k + 1. -/
def Config.wf2 (cfg : Config) : Bool := cfg.rules.zipIdx.all fun rk => rk.1.id.toNat = rk.2 + 1

/-- WF3, WF4, WF5 and WF9 for every descriptor of a rule, each at its position. -/
def Rule.wf (r : Rule) : Bool := r.fields.toList.zipIdx.all fun dp => dp.1.wfAt dp.2

/-- WF10: DEVID_LEN and BUF_BYTES lie in their ranges. -/
def Config.wf10 (cfg : Config) : Bool := cfg.devidLen ≤ 8 && 49 ≤ cfg.bufBytes && cfg.bufBytes ≤ 65488

/-- WF: the configuration is one the model is defined for (R56). -/
def Config.wf (cfg : Config) : Bool := cfg.wf1 && cfg.wf2 && cfg.rules.all Rule.wf && cfg.wf10

end Sys2Proof
end

