-- ==== Sys2Proof/Decode.lean ====
section
/-! DEFINITION. Byte-order helpers (spec/00_scope.md R10), the decoder of CMD values and descriptor words
(spec/30_encoding.md R52, R54, R55, R57, R63), the encoder from the same tables, and the table-word entry point. -/

namespace Sys2Proof

/-! ## Byte order (R10) -/

/-- `LE(b)`: the number whose bytes are b, the first least significant; LE of no byte is 0. -/
def leNat : List Byte → Nat
  | [] => 0
  | b :: bs => b.toNat + 256 * leNat bs

/-- `BE(b)`: the number whose bytes are b, the first most significant. -/
def beNat (bs : List Byte) : Nat := leNat bs.reverse

/-- `toLE(v, k)`: the low k bytes of v, least significant first; bits at or above 8k are dropped. -/
def toLE (v : Nat) : Nat → List Byte
  | 0 => []
  | k + 1 => BitVec.ofNat 8 v :: toLE (v / 256) k

/-- `toBE(v, k)`: the same k bytes, most significant first. -/
def toBE (v k : Nat) : List Byte := (toLE v k).reverse

/-! ## Codes -/

/-- The 2-bit MO code (R54). -/
def MatchOp.code : MatchOp → BitVec 2
  | .eq => 0b00
  | .ign => 0b01
  | .msb => 0b10

/-- The 3-bit ACT code (R55). -/
def Action.code : Action → BitVec 3
  | .ns => 0b000
  | .vs => 0b001
  | .lsb => 0b010
  | .cmp => 0b011
  | .cks => 0b100
  | .dev => 0b101

/-- The matchOp of a 2-bit code; 0b11 is reserved (R54, WF6). -/
def MatchOp.ofCode (c : BitVec 2) : Option MatchOp :=
  if c = 0b00 then some .eq else if c = 0b01 then some .ign else if c = 0b10 then some .msb else none

/-- The action of a 3-bit code; 0b110 and 0b111 are reserved (R55, WF7). -/
def Action.ofCode (c : BitVec 3) : Option Action :=
  if c = 0b000 then some .ns else if c = 0b001 then some .vs else if c = 0b010 then some .lsb
  else if c = 0b011 then some .cmp else if c = 0b100 then some .cks else if c = 0b101 then some .dev else none

/-! ## Fields of a descriptor word (R52) -/

/-- TV, bits 31:0. -/
def FdWord.tv (w : FdWord) : Word := w.extractLsb' 0 32

/-- BL, bits 37:32. -/
def FdWord.bl (w : FdWord) : BitVec 6 := w.extractLsb' 32 6

/-- MSB, bits 43:38. -/
def FdWord.msb (w : FdWord) : BitVec 6 := w.extractLsb' 38 6

/-- MO, bits 45:44. -/
def FdWord.mo (w : FdWord) : BitVec 2 := w.extractLsb' 44 2

/-- ACT, bits 48:46. -/
def FdWord.act (w : FdWord) : BitVec 3 := w.extractLsb' 46 3

/-- RSV, bits 63:49. -/
def FdWord.rsv (w : FdWord) : BitVec 15 := w.extractLsb' 49 15

/-! ## Decoding -/

/-- Why an encoded word is no instruction. -/
inductive Reject where
  /-- Fewer bytes than the word has. -/
  | tooShort
  /-- The CMD value is no legal command (R57, R69). -/
  | illegalCommand
  /-- Descriptor bits 63:49 are not all 0 (R63, WF8). -/
  | reservedBits
  /-- MO = 0b11 (R63, WF6). -/
  | reservedMatchOp
  /-- ACT = 0b110 or 0b111 (R63, WF7). -/
  | reservedAction
  /-- BL > 32 (R63, WF3). -/
  | bitLengthTooLong
  /-- MSB > BL (R63, WF4). -/
  | msbLengthTooLong
deriving DecidableEq, Repr

/-- The outcome of decoding. -/
inductive Decoded (α : Type) where
  | ok (a : α)
  | rejected (why : Reject)
deriving DecidableEq, Repr

/-- The command a CMD value stands for (R57): the whole word must equal an OP code, so bits 31:4 are 0. -/
def decodeCommand (v : Word) : Decoded Instr :=
  if v.extractLsb' 4 28 ≠ 0 then .rejected .illegalCommand
  else if v.extractLsb' 0 4 = 0x1 then .ok .compress
  else if v.extractLsb' 0 4 = 0x2 then .ok .decompress
  else if v.extractLsb' 0 4 = 0x3 then .ok .matchCmd
  else if v.extractLsb' 0 4 = 0x4 then .ok .idsynth
  else .rejected .illegalCommand

/-- The descriptor of a ROM word (R52), rejecting by name every encoding of R63. -/
def decodeFd (w : FdWord) : Decoded Descriptor :=
  if FdWord.rsv w ≠ 0 then .rejected .reservedBits
  else if 32 < (FdWord.bl w).toNat then .rejected .bitLengthTooLong
  else if (FdWord.bl w).toNat < (FdWord.msb w).toNat then .rejected .msbLengthTooLong
  else match MatchOp.ofCode (FdWord.mo w) with
    | none => .rejected .reservedMatchOp
    | some mo =>
      match Action.ofCode (FdWord.act w) with
      | none => .rejected .reservedAction
      | some act => .ok ⟨FdWord.tv w, FdWord.bl w, FdWord.msb w, mo, act⟩

/-- The comparator instruction a descriptor selects by its matchOp (R54). -/
def Descriptor.laneInstr (d : Descriptor) : Instr :=
  match d.mo with
  | .eq => .matchEq d.tv d.bl d.msb d.act
  | .ign => .matchIgn d.tv d.bl d.msb d.act
  | .msb => .matchMsb d.tv d.bl d.msb d.act

/-- The residual-encoder instruction a descriptor selects by its action (R55). -/
def Descriptor.encodeInstr (d : Descriptor) : Instr :=
  match d.act with
  | .ns => .nsCompress d.tv d.bl d.msb d.mo
  | .vs => .vsCompress d.tv d.bl d.msb d.mo
  | .lsb => .lsbCompress d.tv d.bl d.msb d.mo
  | .cmp => .cmpCompress d.tv d.bl d.msb d.mo
  | .cks => .cksCompress d.tv d.bl d.msb d.mo
  | .dev => .devCompress d.tv d.bl d.msb d.mo

/-- The field-decoder instruction a descriptor selects by its action (R55). -/
def Descriptor.decodeInstr (d : Descriptor) : Instr :=
  match d.act with
  | .ns => .nsDecompress d.tv d.bl d.msb d.mo
  | .vs => .vsDecompress d.tv d.bl d.msb d.mo
  | .lsb => .lsbDecompress d.tv d.bl d.msb d.mo
  | .cmp => .cmpDecompress d.tv d.bl d.msb d.mo
  | .cks => .cksDecompress d.tv d.bl d.msb d.mo
  | .dev => .devDecompress d.tv d.bl d.msb d.mo

/-- The instruction that a unit reads from a 64-bit word. The command decoder reads 32-bit words: for it the word's
upper half must be 0. -/
def decodeUnit (u : Port) (w : FdWord) : Decoded Instr :=
  match u with
  | .cmd => if w.extractLsb' 32 32 = 0 then decodeCommand (w.extractLsb' 0 32) else .rejected .illegalCommand
  | .comparator =>
    match decodeFd w with
    | .rejected why => .rejected why
    | .ok d => .ok d.laneInstr
  | .encoder =>
    match decodeFd w with
    | .rejected why => .rejected why
    | .ok d => .ok d.encodeInstr
  | .decoder =>
    match decodeFd w with
    | .rejected why => .rejected why
    | .ok d => .ok d.decodeInstr

/-- How many bytes a unit's word has: 4 for a command (R57), 8 for a descriptor (R52). -/
def Port.wordBytes : Port → Nat
  | .cmd => 4
  | .comparator => 8
  | .encoder => 8
  | .decoder => 8

/-- Decoding of bytes laid out little-endian, as the bus and the ROM window show them (spec/20_memory.md R40, R42).
Total: bytes after the word are not read, and a short list is rejected by name. -/
def decode (u : Port) (bs : List Byte) : Decoded Instr :=
  if bs.length < u.wordBytes then .rejected .tooShort
  else decodeUnit u (BitVec.ofNat 64 (leNat (bs.take u.wordBytes)))

/-! ## Encoding -/

/-- The 64-bit word of a descriptor (R52, R65). -/
def Descriptor.word (d : Descriptor) : FdWord :=
  (0 : BitVec 15) ++ d.act.code ++ d.mo.code ++ d.msb ++ d.bl ++ d.tv

/-- The number an instruction's word stands for: a command's OP code (R57), a descriptor's 64-bit word (R52). -/
def Instr.code : Instr → Nat
  | .compress => 1
  | .decompress => 2
  | .matchCmd => 3
  | .idsynth => 4
  | .matchEq tv bl msb act => (Descriptor.mk tv bl msb .eq act).word.toNat
  | .matchIgn tv bl msb act => (Descriptor.mk tv bl msb .ign act).word.toNat
  | .matchMsb tv bl msb act => (Descriptor.mk tv bl msb .msb act).word.toNat
  | .nsCompress tv bl msb mo => (Descriptor.mk tv bl msb mo .ns).word.toNat
  | .nsDecompress tv bl msb mo => (Descriptor.mk tv bl msb mo .ns).word.toNat
  | .vsCompress tv bl msb mo => (Descriptor.mk tv bl msb mo .vs).word.toNat
  | .vsDecompress tv bl msb mo => (Descriptor.mk tv bl msb mo .vs).word.toNat
  | .lsbCompress tv bl msb mo => (Descriptor.mk tv bl msb mo .lsb).word.toNat
  | .lsbDecompress tv bl msb mo => (Descriptor.mk tv bl msb mo .lsb).word.toNat
  | .cmpCompress tv bl msb mo => (Descriptor.mk tv bl msb mo .cmp).word.toNat
  | .cmpDecompress tv bl msb mo => (Descriptor.mk tv bl msb mo .cmp).word.toNat
  | .cksCompress tv bl msb mo => (Descriptor.mk tv bl msb mo .cks).word.toNat
  | .cksDecompress tv bl msb mo => (Descriptor.mk tv bl msb mo .cks).word.toNat
  | .devCompress tv bl msb mo => (Descriptor.mk tv bl msb mo .dev).word.toNat
  | .devDecompress tv bl msb mo => (Descriptor.mk tv bl msb mo .dev).word.toNat

/-- The bytes of an instruction's word, little-endian. -/
def encode (i : Instr) : List Byte := toLE i.code i.port.wordBytes

/-! ## ROM words and table words -/

/-- The descriptors of a list of ROM words; none when one of them breaks WF3, WF4, WF6, WF7 or WF8. -/
def decodeFds : List FdWord → Option (List Descriptor)
  | [] => some []
  | w :: ws =>
    match decodeFd w, decodeFds ws with
    | .ok d, some ds => some (d :: ds)
    | _, _ => none

/-- A rule built from its id and its ROM words (R51, R52): refused when there are not exactly 18 words or one of
them is no legal descriptor (R56, R63). -/
def Rule.ofWords (id : Byte) (ws : List FdWord) : Option Rule :=
  match decodeFds ws with
  | none => none
  | some ds => if h : ds.length = 18 then some ⟨id, ⟨ds.toArray, by simpa using h⟩⟩ else none

/-- The unit that reads a table word. A word of at most 32 bits is a CMD value. A descriptor word does not say which
unit reads it; DESIGN CHOICE, log entry 11: one whose ACT field is not 0 goes to the residual encoder, any other to
a comparator lane. -/
def tablePort (nbits w : Nat) : Port :=
  if nbits ≤ 32 then .cmd
  else if FdWord.act (BitVec.ofNat 64 w) = 0 then .comparator
  else .encoder

/-- The instruction the decoder reads from a table word whose bits are w, the bits above nbits being 0. -/
def decodeTableWord (nbits w : Nat) : Option Instr :=
  match decode (tablePort nbits (w % 2 ^ nbits)) (toLE (w % 2 ^ nbits) (tablePort nbits (w % 2 ^ nbits)).wordBytes) with
  | .ok i => some i
  | .rejected _ => none

end Sys2Proof
end

