-- ==== Sys2Proof/Machine/State.lean ====
section
/-! DEFINITION. The state: everything spec/10_state.md gives the block, the per-command internal state, and the
model's own fields; the reasons a step can stop; reset (R34). -/

namespace Sys2Proof.Machine

/-- The error kinds of spec/60_exceptions.md R112: reported results, no faults of the model. -/
inductive ErrKind where
  | none
  | noRuleMatched
  | unknownRuleTag
  | truncatedBuffer
  | invalidDeviceIdentity
  | illegalCommand
  | lengthError
deriving DecidableEq, Repr

/-- STATUS by its fields (R24). Bits 3 and 31:24 read 0 and hold nothing. -/
structure Status where
  busy    : Bool
  done    : Bool
  matched : Bool
  err     : ErrKind
  tag     : Byte
  errPos  : Byte
deriving DecidableEq, Repr

/-- A byte buffer: a list of index and byte, strictly rising by index, listing the bytes that have a known value.
An unlisted index has no known value in the list; reading it gives a free byte (Ops.lean). -/
abbrev Memory := List Host.Cell

/-- The Header Context HC[0..17] (R17). -/
abbrev HeaderContext := Vector Word 18

/-- HC all zero, as each command starts with it (R17). -/
def HeaderContext.zero : HeaderContext := Vector.replicate 18 0

/-- The state internal to one command: the Header Context (R17), the walk counters (R20), the compressor's output so
far, whose length is the counter olen (R20), the AND-reduction of the comparator lanes (R75), and the descriptor
word that the rule-indexed MUX presents to a field unit (R1 part 2, R93), if any. -/
structure Walk where
  hc  : HeaderContext
  j   : Nat
  off : Nat
  out : List Byte
  acc : Bool
  mux : Option (Port × FdWord)
deriving DecidableEq, Repr

/-- The internal state outside a command. HC is zero by R34; the rest are DESIGN CHOICES of log entry 9. -/
def Walk.fresh : Walk := { hc := HeaderContext.zero, j := 0, off := 0, out := [], acc := true, mux := none }

/-- What the outside world does next (spec/00_scope.md R8, R11; spec/70_reset_and_hazards.md R123): a host read or
write of n bytes at a bus address, a turn of the Engine, or the reset input. -/
inductive Event where
  | read (addr : BitVec 18) (n : Nat)
  | write (addr : BitVec 18) (n : Nat) (v : Word)
  | engine
  | reset
deriving DecidableEq, Repr

/-- The result of a command (R68), before it is committed. -/
inductive CmdResult where
  /-- COMPRESS under rule k: the output and the compressed header's length 1 + R (R89). -/
  | cmpMatched (out : List Byte) (k hdrLen : Nat)
  /-- COMPRESS passthrough (R88, R89). -/
  | cmpPass (out : List Byte)
  /-- DECOMPRESS success: the output, the tag and the final offset (R92, R106). -/
  | decOk (out : List Byte) (tag : Byte) (hdrLen : Nat)
  /-- DECOMPRESS failure with its tag and position (R106, R113). -/
  | decErr (e : ErrKind) (tag pos : Byte)
  /-- MATCH found rule k (R77). -/
  | matchRule (k : Nat)
  /-- MATCH found none (R77). -/
  | matchNone
  /-- IDSYNTH with its two words (R110). -/
  | idOk (w0 w1 : Word)
  /-- IDSYNTH without a valid identity (R110). -/
  | idErr
  /-- The CMD value is no command (R69). -/
  | illegal
  /-- The frame is longer than IBUF (R70). -/
  | lengthErr
deriving DecidableEq, Repr

/-- Why the machine has no further step. -/
inductive Fault where
  /-- Raised by `step`, the Engine and the field units. Nothing can move (spec/00_scope.md R12 c, "The Engine has no
  step while BUSY = 0"): an Engine turn while BUSY = 0, no input left while BUSY = 0, or a field unit past
  position 17. Safe: the model stops. Log entry 3. -/
  | noStep
deriving DecidableEq, Repr

/-- Why a run has no meaning (spec/00_scope.md R12 b). -/
inductive Refusal where
  /-- Raised by `exec` for an instruction with no meaning yet. Safe. -/
  | notModelled (mnemonic : String)
  /-- Raised by `step`: the configuration, or a descriptor word presented to a unit, breaks WF
  (spec/30_encoding.md R56). Safe. -/
  | configNotWellFormed
  /-- Raised by a host access of an illegal width or alignment (spec/20_memory.md R41). Safe. -/
  | illegalAccess
  /-- Raised by a host write to CMD, IN_LEN or IBUF while BUSY = 1 (spec/70_reset_and_hazards.md R126). Safe. -/
  | writeWhileBusy
deriving DecidableEq, Repr

/-- The machine. -/
structure State where
  /-- The configuration; no step changes it (R13-R16). -/
  cfg      : Config
  /-- STATUS (R24). -/
  status   : Status
  /-- IN_LEN.LEN (R25). -/
  inLen    : BitVec 16
  /-- OUT_LEN.LEN (R26). -/
  outLen   : BitVec 16
  /-- HDR_LEN.LEN (R27). -/
  hdrLen   : BitVec 16
  /-- IDW0 (R29). -/
  idw0     : Word
  /-- IDW1 (R29). -/
  idw1     : Word
  /-- PEND (R31). -/
  pend     : Option Word
  /-- IBUF (R32, R38). -/
  ibuf     : Memory
  /-- OBUF (R32, R39). -/
  obuf     : Memory
  /-- The per-command internal state (R17, R20). -/
  walk     : Walk
  /-- MODEL's own: the draw that stands for IBUF's unlisted bytes (log entry 5). -/
  ibufDraw : Nat
  /-- MODEL's own: the draw that stands for OBUF's unlisted bytes (log entry 5). -/
  obufDraw : Nat
  /-- MODEL's own: the number of the next draw (log entry 5). -/
  draws    : Nat
  /-- MODEL's own: what the outside world still does, oldest first (log entry 2). -/
  inputs   : List Event
  /-- MODEL's own: the value the last host read returned (log entry 4). -/
  rdata    : Word
deriving DecidableEq, Repr

/-- STATUS = 0x00000000 (R34). -/
def Status.zero : Status :=
  { busy := false, done := false, matched := false, err := .none, tag := 0, errPos := 0 }

/-- The state after reset (R34) of a block with configuration cfg, with no input to come. -/
def State.afterReset (cfg : Config) : State :=
  { cfg := cfg, status := Status.zero, inLen := 0, outLen := 0, hdrLen := 0, idw0 := 0, idw1 := 0,
    pend := none, ibuf := [], obuf := [], walk := Walk.fresh,
    ibufDraw := 0, obufDraw := 1, draws := 2, inputs := [], rdata := 0 }

/-- The machine right after reset (R34), with the configuration of log entry 1. -/
def State.reset : State := State.afterReset Config.reference

end Sys2Proof.Machine
end

