-- ==== Sys2Proof/Machine/Operands.lean ====
section
/-! DEFINITION. The helper functions of spec/00_scope.md R10 and the operands assembled from a descriptor
(spec/30_encoding.md R53); access to the Header Context (spec/10_state.md R17, R18). -/

namespace Sys2Proof.Machine

/-- `trunc(v, n) = v mod 2^n` (R10). -/
def trunc (v : Word) (n : Nat) : Word := BitVec.ofNat 32 (v.toNat % 2 ^ n)

/-- `ones(n) = 2^n - 1`, for n at most 32 (R10). -/
def ones (n : Nat) : Word := BitVec.ofNat 32 (2 ^ n - 1)

/-- `nb(n) = (n + 7) div 8` (R10). -/
def nb (n : Nat) : Nat := (n + 7) / 8

/-- `LE(b)` as a 32-bit value (R10). -/
def leWord (bs : List Byte) : Word := BitVec.ofNat 32 (leNat bs)

/-- `BE(b)` as a 32-bit value (R10). -/
def beWord (bs : List Byte) : Word := BitVec.ofNat 32 (beNat bs)

/-- `tgt = trunc(D.tv, D.bl)` (R53). -/
def tgt (tv : Word) (bl : BitVec 6) : Word := trunc tv bl.toNat

/-- `mmask = ones(D.msb) << (D.bl - D.msb)` (R53). -/
def mmask (bl msb : BitVec 6) : Word := ones msb.toNat <<< (bl.toNat - msb.toNat)

/-- `nL = D.bl - D.msb` (R53). -/
def nL (bl msb : BitVec 6) : Nat := bl.toNat - msb.toNat

/-- `lmask = ones(nL)` (R53). -/
def lmask (bl msb : BitVec 6) : Word := ones (nL bl msb)

/-- `nvs = nb(D.bl)` (R53). -/
def nvs (bl : BitVec 6) : Nat := nb bl.toNat

/-- `nls = nb(nL)` (R53). -/
def nls (bl msb : BitVec 6) : Nat := nb (nL bl msb)

/-- The layout width W[p] (R18). -/
def layoutWidth (p : Nat) : Nat :=
  if p = 0 then 4 else if p = 1 then 8 else if p = 2 then 20 else if p = 3 then 16
  else if p = 4 then 8 else if p = 5 then 8 else if p ≤ 13 then 32 else 16

/-- The positions whose residual bytes are big-endian: flow label and payload length (R60). -/
def bigEndianPosition (p : Nat) : Bool := p = 2 || p = 3

/-- `HC[p]` (R11). -/
def HeaderContext.get (hc : HeaderContext) (p : Nat) : Word := hc[p]?.getD 0

/-- `HC[p] <- v` (R11). -/
def HeaderContext.set (hc : HeaderContext) (p : Nat) (v : Word) : HeaderContext := hc.setIfInBounds p v

/-- A rule's descriptors with their positions, in order 0..17 (R51). -/
def ruleFields (r : Rule) : List (Descriptor × Nat) := r.fields.toList.zipIdx

end Sys2Proof.Machine
end

