-- ==== Sys2Proof/Machine/Flags.lean ====
section
/-! DEFINITION. What each result leaves in STATUS, OUT_LEN, HDR_LEN, OBUF and the identity words: the table of
spec/40_dispatch.md R68, column by column; the STATUS word (spec/10_state.md R24); the STATUS a CMD write leaves (R23). -/

namespace Sys2Proof.Machine

/-- The ERR code (spec/60_exceptions.md R112). -/
def ErrKind.code : ErrKind → BitVec 4
  | .none => 0
  | .noRuleMatched => 1
  | .unknownRuleTag => 2
  | .truncatedBuffer => 3
  | .invalidDeviceIdentity => 4
  | .illegalCommand => 5
  | .lengthError => 6

/-- The STATUS register as the Host reads it (R24). -/
def Status.word (st : Status) : Word :=
  (0 : BitVec 8) ++ st.errPos ++ st.tag ++ st.err.code ++ (0 : BitVec 1) ++
    BitVec.ofBool st.matched ++ BitVec.ofBool st.done ++ BitVec.ofBool st.busy

/-- STATUS after a CMD write: BUSY = 1 and every other field 0 (R23). -/
def Status.started : Status :=
  { busy := true, done := false, matched := false, err := .none, tag := 0, errPos := 0 }

/-- STATUS at the end of an Engine step: BUSY = 0, DONE = 1 (R67), the rest as given. -/
def Status.finished (matched : Bool) (err : ErrKind) (tag errPos : Byte) : Status :=
  { busy := false, done := true, matched := matched, err := err, tag := tag, errPos := errPos }

/-- ERR_POS of a result without a field position (R24, R112). -/
def noPosition : Byte := 0xFF

/-- The MATCHED, ERR, TAG and ERR_POS columns of R68. -/
def CmdResult.status : CmdResult → Status
  | .cmpMatched _ k _ => Status.finished true .none (BitVec.ofNat 8 (k + 1)) noPosition
  | .cmpPass _ => Status.finished false .noRuleMatched 0 noPosition
  | .decOk _ t _ => Status.finished (t ≠ 0) .none t noPosition
  | .decErr e t pos => Status.finished false e t pos
  | .matchRule k => Status.finished true .none (BitVec.ofNat 8 (k + 1)) noPosition
  | .matchNone => Status.finished false .noRuleMatched 0 noPosition
  | .idOk _ _ => Status.finished false .none 0 noPosition
  | .idErr => Status.finished false .invalidDeviceIdentity 0 noPosition
  | .illegal => Status.finished false .illegalCommand 0 noPosition
  | .lengthErr => Status.finished false .lengthError 0 noPosition

/-- What a result does to OBUF (R68): write its output and leave the rest unspecified, leave every byte
unspecified, or change nothing. -/
inductive ObufEffect where
  | write (out : List Byte)
  | unspecified
  | keep
deriving DecidableEq, Repr

/-- The OBUF column of R68. -/
def CmdResult.obufEffect : CmdResult → ObufEffect
  | .cmpMatched out _ _ => .write out
  | .cmpPass out => .write out
  | .decOk out _ _ => .write out
  | .decErr _ _ _ => .unspecified
  | .matchRule _ => .keep
  | .matchNone => .keep
  | .idOk _ _ => .keep
  | .idErr => .keep
  | .illegal => .keep
  | .lengthErr => .keep

/-- The OUT_LEN column of R68. The 0 after MATCH is also R26's; that R77's remark on OUT_LEN does not stand against it is
DEDUCED, log entry 22. -/
def CmdResult.outLen : CmdResult → Nat
  | .cmpMatched out _ _ => out.length
  | .cmpPass out => out.length
  | .decOk out _ _ => out.length
  | .decErr _ _ _ => 0
  | .matchRule _ => 0
  | .matchNone => 0
  | .idOk _ _ => 0
  | .idErr => 0
  | .illegal => 0
  | .lengthErr => 0

/-- The HDR_LEN column of R68. -/
def CmdResult.hdrLen : CmdResult → Nat
  | .cmpMatched _ _ hdrLen => hdrLen
  | .cmpPass _ => 1
  | .decOk _ _ hdrLen => hdrLen
  | .decErr _ _ _ => 0
  | .matchRule _ => 0
  | .matchNone => 0
  | .idOk _ _ => 0
  | .idErr => 0
  | .illegal => 0
  | .lengthErr => 0

/-- The IDW0 column of R68, from the old value. -/
def CmdResult.idw0 (old : Word) : CmdResult → Word
  | .idOk w0 _ => w0
  | .cmpMatched _ _ _ => old
  | .cmpPass _ => old
  | .decOk _ _ _ => old
  | .decErr _ _ _ => old
  | .matchRule _ => old
  | .matchNone => old
  | .idErr => old
  | .illegal => old
  | .lengthErr => old

/-- The IDW1 column of R68, from the old value. -/
def CmdResult.idw1 (old : Word) : CmdResult → Word
  | .idOk _ w1 => w1
  | .cmpMatched _ _ _ => old
  | .cmpPass _ => old
  | .decOk _ _ _ => old
  | .decErr _ _ _ => old
  | .matchRule _ => old
  | .matchNone => old
  | .idErr => old
  | .illegal => old
  | .lengthErr => old

end Sys2Proof.Machine
end

