-- ==== Sys2Proof/Machine/Ops.lean ====
section
/-! DEFINITION. The shared operations over buffers and registers: reading and writing a buffer byte, the input of a
command (spec/20_memory.md R46), committing a result (spec/40_dispatch.md R68), raising an error (spec/60_exceptions.md
R113), starting a command (spec/10_state.md R23), leaving an error (R117), reset (spec/70_reset_and_hazards.md R123), and
one step of each field unit. -/

namespace Sys2Proof.Machine

/-! ## Buffers -/

/-- The listed byte at an index, if it is listed. -/
def Memory.read : Memory → Nat → Option Byte
  | [], _ => none
  | (k, b) :: m, a => if a = k then some b else Memory.read m a

/-- Writing one byte, keeping the list strictly rising. -/
def Memory.write : Memory → Nat → Byte → Memory
  | [], a, b => [(a, b)]
  | (k, c) :: m, a, b =>
    if a < k then (a, b) :: (k, c) :: m
    else if a = k then (a, b) :: m
    else (k, c) :: Memory.write m a b

/-- The list that holds the given bytes at lo, lo + 1, … -/
def Memory.ofBytes (lo : Nat) : List Byte → Memory
  | [] => []
  | b :: bs => (lo, b) :: Memory.ofBytes (lo + 1) bs

/-- Every listed index is at least lo and below limit, and the indexes strictly rise. -/
def Memory.wfFrom (limit lo : Nat) : Memory → Bool
  | [] => true
  | (k, _) :: m => lo ≤ k && k < limit && Memory.wfFrom limit (k + 1) m

/-- The canonical form of a buffer of the given size: strictly rising indexes, all in the buffer. No entry can equal
what an unlisted index reads as, since that is no known value. -/
def Memory.wf (size : Nat) (m : Memory) : Bool := Memory.wfFrom size 0 m

/-- IBUF[i] (R38): its listed byte, or the free byte of IBUF's draw (U1, U5). -/
def State.ibufByte (s : State) (i : Nat) : Byte := (Memory.read s.ibuf i).getD (Config.freeByte s.ibufDraw i)

/-- OBUF[i] (R39): its listed byte, or the free byte of OBUF's draw (U1, U2, U3). -/
def State.obufByte (s : State) (i : Nat) : Byte := (Memory.read s.obuf i).getD (Config.freeByte s.obufDraw i)

/-- L, the input length (R25). -/
def State.frameLen (s : State) : Nat := s.inLen.toNat

/-- `IN = IBUF[0..L-1]` (R46). -/
def State.input (s : State) : List Byte := (List.range s.frameLen).map s.ibufByte

/-! ## Committing and raising -/

/-- OBUF after a result (R68). -/
def ObufEffect.memory (e : ObufEffect) (old : Memory) : Memory :=
  match e with
  | .write out => Memory.ofBytes 0 out
  | .unspecified => []
  | .keep => old

/-- Whether a result draws OBUF's unlisted bytes anew (R68: "rest unspecified"). -/
def ObufEffect.redraws : ObufEffect → Bool
  | .write _ => true
  | .unspecified => true
  | .keep => false

/-- The end of an Engine step (R67, R68): PEND is consumed, the internal state does not survive, the result is
written to the registers and OBUF, BUSY is cleared and DONE set. -/
def State.commit (r : CmdResult) (s : State) : State :=
  { s with
    pend := none
    walk := Walk.fresh
    status := r.status
    outLen := BitVec.ofNat 16 r.outLen
    hdrLen := BitVec.ofNat 16 r.hdrLen
    idw0 := r.idw0 s.idw0
    idw1 := r.idw1 s.idw1
    obuf := r.obufEffect.memory s.obuf
    obufDraw := if r.obufEffect.redraws then s.draws else s.obufDraw
    draws := if r.obufEffect.redraws then s.draws + 1 else s.draws }

/-- The tag byte of the frame, 0 for an empty one (R91, R112). -/
def State.frameTag (s : State) : Byte := s.input.headD 0

/-- `raise E(pos)` by a field unit of the decompressor (R113): the command ends at once with that error, its
position and the frame's tag. This is the block's whole exception entry: no pc is saved and no vector taken (R116). -/
def State.raise (e : ErrKind) (pos : Nat) (s : State) : State :=
  s.commit (.decErr e s.frameTag (BitVec.ofNat 8 pos))

/-- A CMD write with BUSY = 0 (R23). It is also the only way out of a reported error (R117): STATUS is cleared but
for BUSY. -/
def State.startCommand (v : Word) (s : State) : State := { s with pend := some v, status := Status.started }

/-- The reset input (R123): R34's values; the configuration stays; the buffers are unspecified afterwards, so both
are drawn anew (log entry 14). -/
def State.resetInput (s : State) : State :=
  { State.afterReset s.cfg with
    ibufDraw := s.draws
    obufDraw := s.draws + 1
    draws := s.draws + 2
    inputs := s.inputs
    rdata := s.rdata }

/-- The check that COMPRESS, DECOMPRESS and MATCH share (R67, R70): LengthError when L > BUF_BYTES, otherwise the
command's function of the input. -/
def State.withInput (s : State) (f : List Byte → CmdResult) : CmdResult :=
  if s.cfg.bufBytes < s.frameLen then .lengthErr else f s.input

/-! ## One operation of a field unit

Each works at the position j of the walk and moves to the next. -/

/-- What a field decoder yields at a position: a value for HC[p] and the new offset, or a raise. -/
inductive FieldResult where
  | value (v : Word) (off : Nat)
  | raised (e : ErrKind)
deriving DecidableEq, Repr

/-- A comparator lane's verdict joins the AND-reduction (R75). -/
def State.laneStep (accept : Word → Bool) (s : State) : Host.Outcome State Fault Refusal :=
  if s.walk.j < 18 then
    .next { s with walk := { s.walk with
      acc := s.walk.acc && accept (s.walk.hc.get s.walk.j), j := s.walk.j + 1, mux := none } }
  else .fault .noStep

/-- The residual encoder appends the bytes of one position to the output (R89). -/
def State.emitStep (emit : Nat → Word → List Byte) (s : State) : Host.Outcome State Fault Refusal :=
  if s.walk.j < 18 then
    .next { s with walk := { s.walk with
      out := s.walk.out ++ emit s.walk.j (s.walk.hc.get s.walk.j), j := s.walk.j + 1, mux := none } }
  else .fault .noStep

/-- The field decoder fills one position, or ends the command with a raise (R95, R113). The decoding function is
given the position, the input and the offset. -/
def State.fieldStep (field : Nat → List Byte → Nat → FieldResult) (s : State) : Host.Outcome State Fault Refusal :=
  if s.walk.j < 18 then
    match field s.walk.j s.input s.walk.off with
    | .value v off => .next { s with walk := { s.walk with
        hc := s.walk.hc.set s.walk.j v, off := off, j := s.walk.j + 1, mux := none } }
    | .raised e => .next (s.raise e s.walk.j)
  else .fault .noStep

end Sys2Proof.Machine
end

