-- ==== Sys2Proof/Machine/Bus.lean ====
section
/-! DEFINITION. The host bus (spec/20_memory.md): the windows, the registers as the Host reads them (spec/10_state.md
R22), the ROM image (R40), host reads and host writes with their refusals (R41; spec/70_reset_and_hazards.md R126, R127). -/

namespace Sys2Proof.Machine

/-- The four windows of the bus (R36). -/
inductive Window where
  | reg
  | ibuf
  | obuf
  | rom
deriving DecidableEq, Repr

/-- The window of a bus address (R36). -/
def windowOf (a : BitVec 18) : Window :=
  if a.toNat < 0x10000 then .reg
  else if a.toNat < 0x20000 then .ibuf
  else if a.toNat < 0x30000 then .obuf
  else .rom

/-- The offset of a bus address in its window. -/
def windowOffset (a : BitVec 18) : Nat := a.toNat % 0x10000

/-- The accesses of R41: aligned words in REG; bytes or aligned words elsewhere. -/
def accessLegal (a : BitVec 18) (n : Nat) : Bool :=
  match windowOf a with
  | .reg => n = 4 && a.toNat % 4 = 0
  | .ibuf => n = 1 || (n = 4 && a.toNat % 4 = 0)
  | .obuf => n = 1 || (n = 4 && a.toNat % 4 = 0)
  | .rom => n = 1 || (n = 4 && a.toNat % 4 = 0)

/-- The register at an offset of the REG window as the Host reads it (R22, R37): CMD and reserved offsets read 0. -/
def State.readReg (s : State) (o : Nat) : Word :=
  if o = 0x04 then s.status.word
  else if o = 0x08 then s.inLen.setWidth 32
  else if o = 0x0C then s.outLen.setWidth 32
  else if o = 0x10 then s.hdrLen.setWidth 32
  else if o = 0x14 then (BitVec.ofNat 8 s.cfg.nRules).setWidth 32
  else if o = 0x18 then s.idw0
  else if o = 0x1C then s.idw1
  else if o = 0x20 then (BitVec.ofNat 4 s.cfg.devidLen).setWidth 32
  else 0

/-- A byte of the descriptor area of the ROM window: byte x mod 8 of descriptor word x div 8, counting 18 words a
rule (R40); 0 past the last rule. -/
def romDescriptorByte (cfg : Config) (x : Nat) : Byte :=
  match cfg.rules[x / 144]? with
  | none => 0
  | some r =>
    match r.fields[x / 8 % 18]? with
    | none => 0
    | some d => d.word.extractLsb' (8 * (x % 8)) 8

/-- A byte of the id area: the id of rule k in bits 7:0 of word k (R40). -/
def romIdByte (cfg : Config) (y : Nat) : Byte :=
  if y % 4 = 0 then
    match cfg.rules[y / 4]? with
    | none => 0
    | some r => r.id
  else 0

/-- The byte at an offset of the ROM window (R40). -/
def romByte (cfg : Config) (o : Nat) : Byte := if o < 0xF000 then romDescriptorByte cfg o else romIdByte cfg (o - 0xF000)

/-- The byte a host access sees at an offset of a byte window (R38, R39, R40): 0 beyond the buffer. -/
def State.windowByte (s : State) (w : Window) (o : Nat) : Byte :=
  match w with
  | .reg => 0
  | .ibuf => if o < s.cfg.bufBytes then s.ibufByte o else 0
  | .obuf => if o < s.cfg.obufBytes then s.obufByte o else 0
  | .rom => romByte s.cfg o

/-- The n bytes from an offset of a byte window as a number, little-endian (R42). -/
def State.windowWord (s : State) (w : Window) (o n : Nat) : Word :=
  leWord ((List.range n).map fun i => s.windowByte w (o + i))

/-- The value of a host read whose result the spec fixes; a byte access is zero-extended (log entry 12). -/
def State.readValue (s : State) (a : BitVec 18) (n : Nat) : Word :=
  match windowOf a with
  | .reg => s.readReg (windowOffset a)
  | .ibuf => s.windowWord .ibuf (windowOffset a) n
  | .obuf => s.windowWord .obuf (windowOffset a) n
  | .rom => s.windowWord .rom (windowOffset a) n

/-- The reads that return an unspecified value while BUSY = 1 (R127): OBUF, OUT_LEN, HDR_LEN, IDW0 and IDW1. -/
def unspecifiedWhileBusy (a : BitVec 18) : Bool :=
  match windowOf a with
  | .reg => windowOffset a = 0x0C || windowOffset a = 0x10 || windowOffset a = 0x18 || windowOffset a = 0x1C
  | .ibuf => false
  | .obuf => true
  | .rom => false

/-- A value of n bytes, zero-extended. -/
def lowBytes (v : Word) (n : Nat) : Word := trunc v (8 * n)

/-- A host read (R11, R41, R44, R127): its value goes to `rdata` and nothing else of the block changes. A busy read
of a result takes a free value. -/
def State.hostRead (a : BitVec 18) (n : Nat) (s : State) : Host.Outcome State Fault Refusal :=
  if !accessLegal a n then .refused .illegalAccess
  else if s.status.busy && unspecifiedWhileBusy a then
    .next { s with rdata := lowBytes (Config.freeWord s.draws) n, draws := s.draws + 1 }
  else .next { s with rdata := s.readValue a n }

/-- A host write to the register at an offset (R22, R23, R25): CMD starts a command, IN_LEN takes bits 15:0, every
other offset ignores it. CMD and IN_LEN are refused while BUSY (R126). -/
def State.writeReg (o : Nat) (v : Word) (s : State) : Host.Outcome State Fault Refusal :=
  if o = 0x00 then
    if s.status.busy then .refused .writeWhileBusy else .next (s.startCommand v)
  else if o = 0x08 then
    if s.status.busy then .refused .writeWhileBusy else .next { s with inLen := v.setWidth 16 }
  else .next s

/-- Writing bytes to IBUF from an index on; those at or beyond BUF_BYTES are ignored (R38). -/
def writeBytes (size : Nat) : Memory → Nat → List Byte → Memory
  | m, _, [] => m
  | m, i, b :: bs => writeBytes size (if i < size then Memory.write m i b else m) (i + 1) bs

/-- A host write of n bytes at an offset of the IBUF window (R38, R42), refused while BUSY when it would write an
IBUF byte (R126); wholly beyond the buffer it is ignored, busy or not (log entry 15). -/
def State.writeIbuf (o n : Nat) (v : Word) (s : State) : Host.Outcome State Fault Refusal :=
  if s.status.busy && o < s.cfg.bufBytes then .refused .writeWhileBusy
  else .next { s with ibuf := writeBytes s.cfg.bufBytes s.ibuf o (toLE v.toNat n) }

/-- A host write (R11, R41): OBUF and ROM ignore it (R39, R40). A byte access writes bits 7:0 (log entry 12). -/
def State.hostWrite (a : BitVec 18) (n : Nat) (v : Word) (s : State) : Host.Outcome State Fault Refusal :=
  if !accessLegal a n then .refused .illegalAccess
  else match windowOf a with
    | .reg => s.writeReg (windowOffset a) v
    | .ibuf => s.writeIbuf (windowOffset a) n v
    | .obuf => .next s
    | .rom => .next s

end Sys2Proof.Machine
end

