-- ==== Sys2Proof/Machine/HeaderCodec.lean ====
section
/-! DEFINITION. The canonical 48-byte header (spec/30_encoding.md R62): the parser (spec/42_compress.md R79) and the
serialiser (spec/43_decompress.md R104). The bit positions of bytes 0..7 are RFC 8200's, as R62 gives them (PRESUMED
by the spec, log entry 17). -/

namespace Sys2Proof.Machine

/-- Byte i of a header; the callers give 48 bytes. -/
def headerByte (h : List Byte) (i : Nat) : Byte := h[i]?.getD 0

/-- An address word: bytes a..a+3 little-endian (R62, R79). -/
def addressWord (h : List Byte) (a : Nat) : Word :=
  leWord [headerByte h a, headerByte h (a + 1), headerByte h (a + 2), headerByte h (a + 3)]

/-- A UDP field: bytes a, a+1, big-endian unless P_UDP_LE (R62, R79). -/
def udpField (cfg : Config) (h : List Byte) (a : Nat) : Word :=
  if cfg.udpLe then leWord [headerByte h a, headerByte h (a + 1)]
  else beWord [headerByte h a, headerByte h (a + 1)]

/-- `Parse(H)` (R79). -/
def parseHeader (cfg : Config) (h : List Byte) : HeaderContext :=
  #v[((headerByte h 0).extractLsb' 4 4).setWidth 32,
     ((headerByte h 0).extractLsb' 0 4 ++ (headerByte h 1).extractLsb' 4 4).setWidth 32,
     ((headerByte h 1).extractLsb' 0 4 ++ headerByte h 2 ++ headerByte h 3).setWidth 32,
     (headerByte h 4 ++ headerByte h 5).setWidth 32,
     (headerByte h 6).setWidth 32,
     (headerByte h 7).setWidth 32,
     addressWord h 8, addressWord h 12, addressWord h 16, addressWord h 20,
     addressWord h 24, addressWord h 28, addressWord h 32, addressWord h 36,
     udpField cfg h 40, udpField cfg h 42, udpField cfg h 44, udpField cfg h 46]

/-- The two bytes of a UDP field (R104). -/
def udpBytes (cfg : Config) (v : Word) : List Byte := if cfg.udpLe then toLE v.toNat 2 else toBE v.toNat 2

/-- `Serialize(HC)` (R104). -/
def serializeHeader (cfg : Config) (hc : HeaderContext) : List Byte :=
  [(hc.get 0).extractLsb' 0 4 ++ (hc.get 1).extractLsb' 4 4,
   (hc.get 1).extractLsb' 0 4 ++ (hc.get 2).extractLsb' 16 4,
   (hc.get 2).extractLsb' 8 8,
   (hc.get 2).extractLsb' 0 8,
   (hc.get 3).extractLsb' 8 8,
   (hc.get 3).extractLsb' 0 8,
   (hc.get 4).extractLsb' 0 8,
   (hc.get 5).extractLsb' 0 8] ++
  toLE (hc.get 6).toNat 4 ++ toLE (hc.get 7).toNat 4 ++ toLE (hc.get 8).toNat 4 ++ toLE (hc.get 9).toNat 4 ++
  toLE (hc.get 10).toNat 4 ++ toLE (hc.get 11).toNat 4 ++ toLE (hc.get 12).toNat 4 ++ toLE (hc.get 13).toNat 4 ++
  udpBytes cfg (hc.get 14) ++ udpBytes cfg (hc.get 15) ++ udpBytes cfg (hc.get 16) ++ udpBytes cfg (hc.get 17)

end Sys2Proof.Machine
end

