-- ==== Sys2Proof/Machine/Matching.lean ====
section
/-! DEFINITION. The Matching Engine (spec/41_match.md): the three comparators, the comparator tree, the priority
encoder, and the meanings of MATCHOP.EQ, MATCHOP.IGN, MATCHOP.MSB and MATCH. -/

namespace Sys2Proof.Machine

/-- `acc_EQ(h, D)` (R72): the header value at full width against the truncated target. -/
def accEq (tv : Word) (bl : BitVec 6) (h : Word) : Bool := h = tgt tv bl

/-- `acc_IGN(h, D)` (R73). -/
def accIgn (_ : Word) : Bool := true

/-- `acc_MSB(h, D)` (R74). -/
def accMsb (tv : Word) (bl msb : BitVec 6) (h : Word) : Bool := h &&& mmask bl msb = tv &&& mmask bl msb

/-- `acc(h, D)`: the lane's function by its matchOp (R75). -/
def accLane (d : Descriptor) (h : Word) : Bool :=
  match d.mo with
  | .eq => accEq d.tv d.bl h
  | .ign => accIgn h
  | .msb => accMsb d.tv d.bl d.msb h

/-- `M(k)`, the comparator tree: every one of the 18 lanes of the rule accepts (R75). -/
def ruleMatches (r : Rule) (hc : HeaderContext) : Bool :=
  (ruleFields r).all fun dp => accLane dp.1 (hc.get dp.2)

/-- The least index of a matching rule, counting from k. -/
def firstMatch (hc : HeaderContext) : List Rule → Nat → Option Nat
  | [], _ => none
  | r :: rs, k => if ruleMatches r hc then some k else firstMatch hc rs (k + 1)

/-- `Select(HC)`, the first-match priority encoder (R76). With P_SCAN_FIRST_ONLY only rule 0 is evaluated. -/
def selectRule (cfg : Config) (hc : HeaderContext) : Option Nat :=
  if cfg.scanFirstOnly then firstMatch hc (cfg.rules.take 1) 0 else firstMatch hc cfg.rules 0

/-- `Match(IN)` (R77). -/
def matchInput (cfg : Config) (inp : List Byte) : CmdResult :=
  if inp.length < hdrBytes then .matchNone
  else match selectRule cfg (parseHeader cfg (inp.take hdrBytes)) with
    | none => .matchNone
    | some k => .matchRule k

/-- MATCHOP.EQ (R72): one lane of the comparator tree. -/
def execMatchEq (tv : Word) (bl _msb : BitVec 6) (_act : Action) (s : State) : Host.Outcome State Fault Refusal :=
  s.laneStep (accEq tv bl)

/-- MATCHOP.IGN (R73). -/
def execMatchIgn (_tv : Word) (_bl _msb : BitVec 6) (_act : Action) (s : State) : Host.Outcome State Fault Refusal :=
  s.laneStep accIgn

/-- MATCHOP.MSB (R74). -/
def execMatchMsb (tv : Word) (bl msb : BitVec 6) (_act : Action) (s : State) : Host.Outcome State Fault Refusal :=
  s.laneStep (accMsb tv bl msb)

/-- MATCH (R77): the whole Engine step of the command. -/
def execMatch (s : State) : Host.Outcome State Fault Refusal :=
  .next (s.commit (s.withInput (matchInput s.cfg)))

end Sys2Proof.Machine
end

