-- ==== Sys2Proof/Machine/Compress.lean ====
section
/-! DEFINITION. The Compressor (spec/42_compress.md): the residual encoder's six operations, COMPRESS, and the meanings
of the ACT.*.COMPRESS rows. -/

namespace Sys2Proof.Machine

/-- `Emit` of NotSent (R81). -/
def emitNs (_p : Nat) (_h : Word) : List Byte := []

/-- The value ValueSent sends (R82): the target value, or the header value under P_VS_FROM_HEADER. -/
def sentValue (cfg : Config) (tv h : Word) : Word := if cfg.vsFromHeader then h else tv

/-- `Emit` of ValueSent (R82): big-endian at positions 2 and 3 unless P_CMP_FLPL_LE. No mask to bitLength is applied. -/
def emitVs (cfg : Config) (tv : Word) (bl : BitVec 6) (p : Nat) (h : Word) : List Byte :=
  if bigEndianPosition p && !cfg.cmpFlplLe then toBE (sentValue cfg tv h).toNat (nvs bl)
  else toLE (sentValue cfg tv h).toNat (nvs bl)

/-- `Emit` of LeastSignificantBitsSent (R83): it fails closed. -/
def emitLsb (_p : Nat) (_h : Word) : List Byte := []

/-- `Emit` of ComputeAtDecompress (R84). -/
def emitCmp (_p : Nat) (_h : Word) : List Byte := []

/-- `Emit` of ComputeChecksumAtDecompress (R85). -/
def emitCks (_p : Nat) (_h : Word) : List Byte := []

/-- `Emit` of DeriveFromDeviceId (R86): the identity is not read (R80). -/
def emitDev (_p : Nat) (_h : Word) : List Byte := []

/-- `Emit(p, D, h)` by the descriptor's action (R81-R86). -/
def emitField (cfg : Config) (d : Descriptor) (p : Nat) (h : Word) : List Byte :=
  match d.act with
  | .ns => emitNs p h
  | .vs => emitVs cfg d.tv d.bl p h
  | .lsb => emitLsb p h
  | .cmp => emitCmp p h
  | .cks => emitCks p h
  | .dev => emitDev p h

/-- The residual bytes of a header under a rule, positions 0..17 in order (R60, R89). -/
def residualBytes (cfg : Config) (r : Rule) (hc : HeaderContext) : List Byte :=
  (ruleFields r).flatMap fun dp => emitField cfg dp.1 dp.2 (hc.get dp.2)

/-- `Compress(IN)` (R89): the passthrough for a short input (R88) or no match, otherwise the rule's id (R87), the
residual and the payload. -/
def compressInput (cfg : Config) (inp : List Byte) : CmdResult :=
  if inp.length < hdrBytes then .cmpPass (0x00 :: inp)
  else match selectRule cfg (parseHeader cfg (inp.take hdrBytes)) with
    | none => .cmpPass (0x00 :: inp)
    | some k =>
      match cfg.rules[k]? with
      | none => .cmpPass (0x00 :: inp)
      | some r => .cmpMatched
          (r.id :: residualBytes cfg r (parseHeader cfg (inp.take hdrBytes)) ++ inp.drop hdrBytes)
          k (1 + (residualBytes cfg r (parseHeader cfg (inp.take hdrBytes))).length)

/-- ACT.NS.COMPRESS (R81). -/
def execNsCompress (_tv : Word) (_bl _msb : BitVec 6) (_mo : MatchOp) (s : State) :
    Host.Outcome State Fault Refusal := s.emitStep emitNs

/-- ACT.VS.COMPRESS (R82). -/
def execVsCompress (tv : Word) (bl _msb : BitVec 6) (_mo : MatchOp) (s : State) :
    Host.Outcome State Fault Refusal := s.emitStep (emitVs s.cfg tv bl)

/-- ACT.LSB.COMPRESS (R83). -/
def execLsbCompress (_tv : Word) (_bl _msb : BitVec 6) (_mo : MatchOp) (s : State) :
    Host.Outcome State Fault Refusal := s.emitStep emitLsb

/-- ACT.CMP.COMPRESS (R84). -/
def execCmpCompress (_tv : Word) (_bl _msb : BitVec 6) (_mo : MatchOp) (s : State) :
    Host.Outcome State Fault Refusal := s.emitStep emitCmp

/-- ACT.CKS.COMPRESS (R85). -/
def execCksCompress (_tv : Word) (_bl _msb : BitVec 6) (_mo : MatchOp) (s : State) :
    Host.Outcome State Fault Refusal := s.emitStep emitCks

/-- ACT.DEV.COMPRESS (R86). -/
def execDevCompress (_tv : Word) (_bl _msb : BitVec 6) (_mo : MatchOp) (s : State) :
    Host.Outcome State Fault Refusal := s.emitStep emitDev

/-- COMPRESS (R89): the whole Engine step of the command. -/
def execCompress (s : State) : Host.Outcome State Fault Refusal :=
  .next (s.commit (s.withInput (compressInput s.cfg)))

end Sys2Proof.Machine
end

