-- ==== Sys2Proof/Machine/Identity.lean ====
section
/-! DEFINITION. The Identity Synthesizer (spec/44_identity.md) and the meaning of IDSYNTH. -/

namespace Sys2Proof.Machine

/-- `IDW0val = LE(DEVID[0..3])` (R108). -/
def idWord0 (cfg : Config) : Word := leWord (cfg.devid.toList.take 4)

/-- `IDW1val = LE(DEVID[4..7])` (R108). -/
def idWord1 (cfg : Config) : Word := leWord (cfg.devid.toList.drop 4)

/-- The identity is valid: all 8 bytes are there (R109). -/
def identityValid (cfg : Config) : Bool := !decide (cfg.devidLen < 8)

/-- `IdSynth()` (R110). -/
def idSynth (cfg : Config) : CmdResult :=
  if identityValid cfg then .idOk (idWord0 cfg) (idWord1 cfg) else .idErr

/-- IDSYNTH (R110): the whole Engine step of the command; neither IN_LEN nor IBUF is read. -/
def execIdsynth (s : State) : Host.Outcome State Fault Refusal := .next (s.commit (idSynth s.cfg))

end Sys2Proof.Machine
end

