-- ==== Sys2Proof/Machine/Decompress.lean ====
section
/-! DEFINITION. The Decompressor (spec/43_decompress.md): the residual read, the field decoder's six operations, the
walk, the length and checksum synthesis, DECOMPRESS, and the meanings of the ACT.*.DECOMPRESS rows. -/

namespace Sys2Proof.Machine

/-- `Read(n)` at offset off (R94): the bytes and the new offset; none when it raises TruncatedBuffer. Read(0) never
raises. -/
def readResidual (inp : List Byte) (off n : Nat) : Option (List Byte × Nat) :=
  if n = 0 then some ([], off)
  else if inp.length < off + n then none
  else some ((inp.drop off).take n, off + n)

/-- `Field` of NotSent (R96). -/
def fieldNs (tv : Word) (_p : Nat) (_inp : List Byte) (off : Nat) : FieldResult := .value tv off

/-- `Field` of ValueSent (R97): big-endian at positions 2 and 3, little-endian elsewhere, not masked to bitLength. -/
def fieldVs (bl : BitVec 6) (p : Nat) (inp : List Byte) (off : Nat) : FieldResult :=
  match readResidual inp off (nvs bl) with
  | none => .raised .truncatedBuffer
  | some (b, off') => .value (if bigEndianPosition p then beWord b else leWord b) off'

/-- `Field` of LeastSignificantBitsSent (R98): the stored most-significant bits with the sent least-significant ones;
without P_LSB_DEC_READ as NotSent. -/
def fieldLsb (cfg : Config) (tv : Word) (bl msb : BitVec 6) (_p : Nat) (inp : List Byte) (off : Nat) : FieldResult :=
  if cfg.lsbDecRead then
    match readResidual inp off (nls bl msb) with
    | none => .raised .truncatedBuffer
    | some (b, off') => .value ((tv &&& mmask bl msb) ||| (leWord b &&& lmask bl msb)) off'
  else .value tv off

/-- `Field` of ComputeAtDecompress, first pass (R99): a placeholder. -/
def fieldCmp (_p : Nat) (_inp : List Byte) (off : Nat) : FieldResult := .value 0 off

/-- `Field` of ComputeChecksumAtDecompress, first pass (R100): a placeholder. -/
def fieldCks (_p : Nat) (_inp : List Byte) (off : Nat) : FieldResult := .value 0 off

/-- `Field` of DeriveFromDeviceId (R101). WF9 allows it only at positions 8, 9, 12 and 13. -/
def fieldDev (cfg : Config) (p : Nat) (_inp : List Byte) (off : Nat) : FieldResult :=
  if identityValid cfg then .value (if p = 8 || p = 12 then idWord0 cfg else idWord1 cfg) off
  else .raised .invalidDeviceIdentity

/-- `Field(p, D)` by the descriptor's action (R96-R101). -/
def decodeField (cfg : Config) (d : Descriptor) (p : Nat) (inp : List Byte) (off : Nat) : FieldResult :=
  match d.act with
  | .ns => fieldNs d.tv p inp off
  | .vs => fieldVs d.bl p inp off
  | .lsb => fieldLsb cfg d.tv d.bl d.msb p inp off
  | .cmp => fieldCmp p inp off
  | .cks => fieldCks p inp off
  | .dev => fieldDev cfg p inp off

/-- How a field walk ends: with a Header Context and the final offset, or with a raise at a position. -/
inductive WalkResult where
  | done (hc : HeaderContext) (off : Nat)
  | raised (e : ErrKind) (p : Nat)
deriving DecidableEq, Repr

/-- The field walk (R95): the positions in order; the first raise ends it. -/
def fieldWalk (cfg : Config) (inp : List Byte) : List (Descriptor × Nat) → HeaderContext → Nat → WalkResult
  | [], hc, off => .done hc off
  | (d, p) :: rest, hc, off =>
    match decodeField cfg d p inp off with
    | .value v off' => fieldWalk cfg inp rest (hc.set p v) off'
    | .raised e => .raised e p

/-- The value of the length synthesiser (R102). -/
def lengthValue (len off : Nat) : Word := BitVec.ofNat 32 (len + udpHdrBytes - off)

/-- The deferred fields (R102, R103): every ComputeAtDecompress position gets the length, every
ComputeChecksumAtDecompress position 0. -/
def resolveDeferred (len : Word) : List (Descriptor × Nat) → HeaderContext → HeaderContext
  | [], hc => hc
  | (d, p) :: rest, hc =>
    match d.act with
    | .cmp => resolveDeferred len rest (hc.set p len)
    | .cks => resolveDeferred len rest (hc.set p 0)
    | .ns => resolveDeferred len rest hc
    | .vs => resolveDeferred len rest hc
    | .lsb => resolveDeferred len rest hc
    | .dev => resolveDeferred len rest hc

/-- Decompression under the rule the MUX presents (R93, R95, R102-R105). -/
def decompressUnder (cfg : Config) (r : Rule) (tag : Byte) (inp : List Byte) : CmdResult :=
  match fieldWalk cfg inp (ruleFields r) HeaderContext.zero 1 with
  | .raised e p => .decErr e tag (BitVec.ofNat 8 p)
  | .done hc off => .decOk
      (serializeHeader cfg (resolveDeferred (lengthValue inp.length off) (ruleFields r) hc) ++ inp.drop off) tag off

/-- `Decompress(IN)` (R106): the empty frame (R91), tag 0 (R92), an unknown tag (R93), or the walk. -/
def decompressInput (cfg : Config) (inp : List Byte) : CmdResult :=
  match inp with
  | [] => .decErr .truncatedBuffer 0 noPosition
  | t :: rest =>
    if t = 0 then .decOk rest 0 1
    else match cfg.rules[t.toNat - 1]? with
      | none => .decErr .unknownRuleTag t noPosition
      | some r => decompressUnder cfg r t (t :: rest)

/-- ACT.NS.DECOMPRESS (R96). -/
def execNsDecompress (tv : Word) (_bl _msb : BitVec 6) (_mo : MatchOp) (s : State) :
    Host.Outcome State Fault Refusal := s.fieldStep (fieldNs tv)

/-- ACT.VS.DECOMPRESS (R97). -/
def execVsDecompress (_tv : Word) (bl _msb : BitVec 6) (_mo : MatchOp) (s : State) :
    Host.Outcome State Fault Refusal := s.fieldStep (fieldVs bl)

/-- ACT.LSB.DECOMPRESS (R98). -/
def execLsbDecompress (tv : Word) (bl msb : BitVec 6) (_mo : MatchOp) (s : State) :
    Host.Outcome State Fault Refusal := s.fieldStep (fieldLsb s.cfg tv bl msb)

/-- ACT.CMP.DECOMPRESS (R99). -/
def execCmpDecompress (_tv : Word) (_bl _msb : BitVec 6) (_mo : MatchOp) (s : State) :
    Host.Outcome State Fault Refusal := s.fieldStep fieldCmp

/-- ACT.CKS.DECOMPRESS (R100). -/
def execCksDecompress (_tv : Word) (_bl _msb : BitVec 6) (_mo : MatchOp) (s : State) :
    Host.Outcome State Fault Refusal := s.fieldStep fieldCks

/-- ACT.DEV.DECOMPRESS (R101). -/
def execDevDecompress (_tv : Word) (_bl _msb : BitVec 6) (_mo : MatchOp) (s : State) :
    Host.Outcome State Fault Refusal := s.fieldStep (fieldDev s.cfg)

/-- DECOMPRESS (R106): the whole Engine step of the command. -/
def execDecompress (s : State) : Host.Outcome State Fault Refusal :=
  .next (s.commit (s.withInput (decompressInput s.cfg)))

end Sys2Proof.Machine
end

