-- ==== Sys2Proof/Machine/Dispatch.lean ====
section
/-! DEFINITION. The dispatch: one meaning for each constructor of Instr. -/

namespace Sys2Proof.Machine

def exec (i : Instr) (s : State) : Host.Outcome State Fault Refusal :=
  match i with
  | .compress => Sys2Proof.Machine.execCompress s
  | .decompress => Sys2Proof.Machine.execDecompress s
  | .matchCmd => Sys2Proof.Machine.execMatch s
  | .idsynth => Sys2Proof.Machine.execIdsynth s
  | .matchEq tv bl msb act => Sys2Proof.Machine.execMatchEq tv bl msb act s
  | .matchIgn tv bl msb act => Sys2Proof.Machine.execMatchIgn tv bl msb act s
  | .matchMsb tv bl msb act => Sys2Proof.Machine.execMatchMsb tv bl msb act s
  | .nsCompress tv bl msb mo => Sys2Proof.Machine.execNsCompress tv bl msb mo s
  | .nsDecompress tv bl msb mo => Sys2Proof.Machine.execNsDecompress tv bl msb mo s
  | .vsCompress tv bl msb mo => Sys2Proof.Machine.execVsCompress tv bl msb mo s
  | .vsDecompress tv bl msb mo => Sys2Proof.Machine.execVsDecompress tv bl msb mo s
  | .lsbCompress tv bl msb mo => Sys2Proof.Machine.execLsbCompress tv bl msb mo s
  | .lsbDecompress tv bl msb mo => Sys2Proof.Machine.execLsbDecompress tv bl msb mo s
  | .cmpCompress tv bl msb mo => Sys2Proof.Machine.execCmpCompress tv bl msb mo s
  | .cmpDecompress tv bl msb mo => Sys2Proof.Machine.execCmpDecompress tv bl msb mo s
  | .cksCompress tv bl msb mo => Sys2Proof.Machine.execCksCompress tv bl msb mo s
  | .cksDecompress tv bl msb mo => Sys2Proof.Machine.execCksDecompress tv bl msb mo s
  | .devCompress tv bl msb mo => Sys2Proof.Machine.execDevCompress tv bl msb mo s
  | .devDecompress tv bl msb mo => Sys2Proof.Machine.execDevDecompress tv bl msb mo s

end Sys2Proof.Machine
end

