-- ==== Sys2Proof/Machine/Engine.lean ====
section
/-! DEFINITION. How an instruction is fetched: the Engine's turn (spec/40_dispatch.md R67) decodes PEND; a field unit
decodes the descriptor word that the MUX presents (spec/43_decompress.md R93, log entry 10); where a table word is put
so that the next step runs it. -/

namespace Sys2Proof.Machine

/-- The Engine's turn (R67): enabled iff BUSY = 1. It consumes PEND: a command is executed whole, any other value
completes as IllegalCommand (R69). A busy state without a pending value has no step (log entry 18). -/
def State.engineStep (s : State) : Host.Outcome State Fault Refusal :=
  if s.status.busy then
    match s.pend with
    | none => .fault .noStep
    | some v =>
      match decodeCommand v with
      | .ok i => exec i s
      | .rejected _ => .next (s.commit .illegal)
  else .fault .noStep

/-- A field unit's turn: it decodes the word it is presented with and performs it at position j, unless the word
is no well-formed descriptor there (R56). -/
def State.unitStep (u : Port) (w : FdWord) (s : State) : Host.Outcome State Fault Refusal :=
  match decodeUnit u w with
  | .rejected _ => .refused .configNotWellFormed
  | .ok i => if i.wfAt s.walk.j then exec i s else .refused .configNotWellFormed

/-- Field operations performed one after the other, as long as each moves the walk on to the next position: an
operation that raises has ended the command, so the rest are not performed (spec/60_exceptions.md R113). -/
def runUnits : List Instr → State → Host.Outcome State Fault Refusal
  | [], s => .next s
  | i :: is, s =>
    match exec i s with
    | .next t => if t.walk.j = s.walk.j + 1 then runUnits is t else .next t
    | .fault r => .fault r
    | .refused r => .refused r

/-- The CMD value a table word of at most 32 bits stands for. -/
def tableCommand (nbits w : Nat) : Word := BitVec.ofNat 32 (w % 2 ^ nbits)

/-- The descriptor word a longer table word stands for. -/
def tableDescriptor (nbits w : Nat) : FdWord := BitVec.ofNat 64 (w % 2 ^ nbits)

/-- The position a table descriptor is presented at: 8, the first interface-identifier part, for DeriveFromDeviceId
(WF9), and otherwise the walk's own. -/
def tablePosition (w : FdWord) (j : Nat) : Nat := if FdWord.act w = Action.dev.code then 8 else j

/-- s with a CMD value latched as a CMD write does (R23) and the Engine to move next. -/
def State.withCommand (v : Word) (s : State) : State :=
  { s.startCommand v with
    walk := { s.walk with mux := none }
    inputs := .engine :: s.inputs }

/-- s with a descriptor word presented to a field unit. -/
def State.withDescriptor (u : Port) (w : FdWord) (s : State) : State :=
  { s with walk := { s.walk with mux := some (u, w), j := tablePosition w s.walk.j } }

/-- s with a table word where the next step fetches it (log entries 11, 13). -/
def State.placeTableWord (s : State) (nbits w : Nat) : State :=
  match tablePort nbits (w % 2 ^ nbits) with
  | .cmd => s.withCommand (tableCommand nbits w)
  | .comparator => s.withDescriptor .comparator (tableDescriptor nbits w)
  | .encoder => s.withDescriptor .encoder (tableDescriptor nbits w)
  | .decoder => s.withDescriptor .decoder (tableDescriptor nbits w)

end Sys2Proof.Machine
end

