-- ==== Sys2Proof/Machine/Step.lean ====
section
/-! DEFINITION. One step of the machine: the next event of the interleaving (spec/20_memory.md R47). -/

namespace Sys2Proof.Machine

/-- What the outside world's list says moves next. Once it is empty a busy Engine moves (weak fairness,
spec/40_dispatch.md R71); an idle block then has no step (R12 c). -/
def State.eventStep (s : State) : Host.Outcome State Fault Refusal :=
  match s.inputs with
  | [] => s.engineStep
  | .read a n :: rest => State.hostRead a n { s with inputs := rest }
  | .write a n v :: rest => State.hostWrite a n v { s with inputs := rest }
  | .engine :: rest => State.engineStep { s with inputs := rest }
  | .reset :: rest => .next (State.resetInput { s with inputs := rest })

/-- One step: refused for a configuration that breaks WF (spec/30_encoding.md R56); a field unit's operation where the
MUX presents a descriptor (no run from reset reaches this, log entry 10); otherwise the next event. -/
def step (s : State) : Host.Outcome State Fault Refusal :=
  if !s.cfg.wf then .refused .configNotWellFormed
  else match s.walk.mux with
    | some (u, w) => s.unitStep u w
    | none => s.eventStep

/-- s with a table word stored where step fetches its next instruction. -/
def State.withFetchWord (s : State) (nbits w : Nat) : State := s.placeTableWord nbits w

end Sys2Proof.Machine
end

