-- ==== Sys2Proof/Safety.lean ====
section
/-! DEFINITION. What counts as a sound state: the invariant that every step keeps, part by part. -/

namespace Sys2Proof.Machine

/-- PEND is not none exactly when BUSY = 1 (spec/10_state.md R31). -/
abbrev State.PendMatchesBusy (s : State) : Prop := s.pend.isSome = s.status.busy

/-- No per-command state survives a command (spec/10_state.md R17, R20): between steps it is fresh. -/
abbrev State.WalkIdle (s : State) : Prop := s.walk = Walk.fresh

/-- STATUS is one that R23, R24, R34 and R68 allow: without DONE only BUSY can be set; with DONE, BUSY is clear, a
match has no error and a tag of 1..N_RULES, and ERR_POS is a position 0..17 or 0xFF. -/
abbrev State.StatusLegal (s : State) : Prop :=
  (s.status.done = false →
    s.status.matched = false ∧ s.status.err = .none ∧ s.status.tag = 0 ∧ s.status.errPos = 0) ∧
  (s.status.done = true →
    s.status.busy = false ∧ (s.status.errPos = noPosition ∨ s.status.errPos.toNat ≤ 17)) ∧
  (s.status.matched = true → s.status.err = .none ∧ 1 ≤ s.status.tag.toNat ∧ s.status.tag.toNat ≤ s.cfg.nRules)

/-- After a reported error other than NoRuleMatched both lengths are 0 (spec/10_state.md R26, R27). -/
abbrev State.ErrorClearsLengths (s : State) : Prop :=
  s.status.err ≠ .none → s.status.err ≠ .noRuleMatched → s.outLen = 0 ∧ s.hdrLen = 0

/-- OUT_LEN never exceeds OBUF (spec/10_state.md R32) and HDR_LEN the tag and 72 residual bytes (R61). -/
abbrev State.LengthsFit (s : State) : Prop := s.outLen.toNat ≤ s.cfg.obufBytes ∧ s.hdrLen.toNat ≤ 73

/-- Both buffers are in canonical form and within their sizes (spec/10_state.md R32). -/
abbrev State.BuffersCanonical (s : State) : Prop :=
  Memory.wf s.cfg.bufBytes s.ibuf = true ∧ Memory.wf s.cfg.obufBytes s.obuf = true

/-- The next draw is a fresh one, and the two buffers hold different draws (log entry 5). -/
abbrev State.DrawsFresh (s : State) : Prop :=
  s.ibufDraw < s.draws ∧ s.obufDraw < s.draws ∧ s.ibufDraw ≠ s.obufDraw

/-- The invariant. -/
abbrev State.Inv (s : State) : Prop :=
  s.PendMatchesBusy ∧ s.WalkIdle ∧ s.StatusLegal ∧ s.ErrorClearsLengths ∧ s.LengthsFit ∧ s.BuffersCanonical ∧
    s.DrawsFresh

/-! ## Frames -/

/-- The configuration and every host-visible and hidden register read as before (spec/10_state.md R22, R31). -/
abbrev SameRegisters (s t : State) : Prop :=
  t.cfg = s.cfg ∧ t.status = s.status ∧ t.inLen = s.inLen ∧ t.outLen = s.outLen ∧ t.hdrLen = s.hdrLen ∧
    t.idw0 = s.idw0 ∧ t.idw1 = s.idw1 ∧ t.pend = s.pend

/-- Every byte of IBUF reads as before. -/
abbrev SameIbuf (s t : State) : Prop := ∀ a, t.ibufByte a = s.ibufByte a

/-- Every byte of OBUF reads as before. -/
abbrev SameObuf (s t : State) : Prop := ∀ a, t.obufByte a = s.obufByte a

/-- Nothing but the per-command internal state has changed. -/
abbrev OnlyWalkChanged (s t : State) : Prop :=
  SameRegisters s t ∧ SameIbuf s t ∧ SameObuf s t ∧ t.inputs = s.inputs ∧ t.rdata = s.rdata

/-- The end of an Engine step (spec/40_dispatch.md R67, R68) that leaves the given STATUS fields and lengths: PEND is
consumed, BUSY is 0 and DONE is 1; the configuration, IN_LEN, every byte of IBUF and the outside world's list are
as before. -/
abbrev CompletedWith (s t : State) (matched : Bool) (err : ErrKind) (tag errPos outLen hdrLen : Nat) : Prop :=
  t.pend = none ∧ t.status.busy = false ∧ t.status.done = true ∧ t.status.matched = matched ∧ t.status.err = err ∧
    t.status.tag.toNat = tag ∧ t.status.errPos.toNat = errPos ∧ t.outLen.toNat = outLen ∧ t.hdrLen.toNat = hdrLen ∧
    t.cfg = s.cfg ∧ t.inLen = s.inLen ∧ SameIbuf s t ∧ t.inputs = s.inputs ∧ t.rdata = s.rdata

/-- IDW0 and IDW1 are as before (spec/10_state.md R29). -/
abbrev SameIdentityWords (s t : State) : Prop := t.idw0 = s.idw0 ∧ t.idw1 = s.idw1

/-- The outside world's next event is ev, and no field unit is in the middle of a command. -/
abbrev NextEvent (s : State) (ev : Event) (rest : List Event) : Prop :=
  s.cfg.wf = true ∧ s.walk.mux = none ∧ s.inputs = ev :: rest

/-- It is the Engine's turn: by the list, or because the list is empty; `rest` is the list after the turn. -/
abbrev EngineTurn (s : State) (rest : List Event) : Prop :=
  s.cfg.wf = true ∧ s.walk.mux = none ∧ (s.inputs = .engine :: rest ∨ s.inputs = [] ∧ rest = [])

end Sys2Proof.Machine
end

