-- ==== Sys2Proof/Certificates/Slice0/Obligations.lean ====
section
/-! DEFINITION. The statements for the provers, from the numbered rules of spec/. -/

open Sys2Proof Sys2Proof.Machine

/-! ## Encoding -/

/-- R52, R54, R55, R57: every instruction whose descriptor keeps WF3 and WF4 is read back by its own unit from the
bytes the encoder lays out, with every operand. -/
def Obligations.EncodedInstructionsDecode : Prop :=
  ∀ i : Instr, (∀ d, i.descriptor = some d → d.wf3 = true ∧ d.wf4 = true) →
    decode i.port (encode i) = .ok i

/-- R52, R57, R63: a word has one meaning for a unit, and encoding that meaning gives the word back. -/
def Obligations.DecodedWordsEncodeBack : Prop :=
  ∀ (u : Port) (bs : List Byte) (i : Instr), decode u bs = .ok i →
    i.port = u ∧ encode i = bs.take u.wordBytes

/-- Words written out from R52, R54, R55 and R57 (spec/95_test_vectors.md section 2) decode to what they stand for. -/
def Obligations.SpecWordsDecode : Prop :=
  decode .cmd [0x01, 0x00, 0x00, 0x00] = .ok .compress ∧
  decode .cmd [0x04, 0x00, 0x00, 0x00] = .ok .idsynth ∧
  decode .cmd [0x11, 0x00, 0x00, 0x00] = .rejected .illegalCommand ∧
  decode .comparator [0xFF, 0x00, 0x00, 0x00, 0x08, 0x00, 0x00, 0x00] = .ok (.matchEq 0xFF 8 0 .ns) ∧
  decode .comparator [0x40, 0x00, 0x00, 0x00, 0x08, 0x50, 0x00, 0x00] = .ok (.matchIgn 0x40 8 0 .vs) ∧
  decode .comparator [0x30, 0x16, 0x00, 0x00, 0x10, 0xA3, 0x00, 0x00] = .ok (.matchMsb 0x1630 16 12 .lsb) ∧
  decode .encoder [0x40, 0x00, 0x00, 0x00, 0x08, 0x50, 0x00, 0x00] = .ok (.vsCompress 0x40 8 0 .ign) ∧
  decode .decoder [0x00, 0x00, 0x00, 0x00, 0x10, 0xD0, 0x00, 0x00] = .ok (.cmpDecompress 0 16 0 .ign) ∧
  decode .decoder [0x00, 0x00, 0x00, 0x00, 0x10, 0x10, 0x01, 0x00] = .ok (.cksDecompress 0 16 0 .ign) ∧
  decode .decoder [0x70, 0xB3, 0xD5, 0x49, 0x20, 0x40, 0x01, 0x00] = .ok (.devDecompress 0x49D5B370 32 0 .eq)

/-- R57: the value 1, 2, 3 or 4 with bits 31:4 zero is a legal command; every other CMD value is none. -/
def Obligations.LegalCommandValues : Prop :=
  ∀ v : Word, decodeCommand v =
    if v.toNat / 16 = 0 ∧ v.toNat % 16 = 1 then .ok .compress
    else if v.toNat / 16 = 0 ∧ v.toNat % 16 = 2 then .ok .decompress
    else if v.toNat / 16 = 0 ∧ v.toNat % 16 = 3 then .ok .matchCmd
    else if v.toNat / 16 = 0 ∧ v.toNat % 16 = 4 then .ok .idsynth
    else .rejected .illegalCommand

/-- R52: the places and the legal values of a descriptor word's fields, with the codes of R54 and R55. A word with
another value is no descriptor (R63), for every unit that reads it. -/
def Obligations.DescriptorWordLayout : Prop :=
  ∀ w : FdWord,
    ((∃ d, decodeFd w = .ok d) ↔
      w.toNat / 2 ^ 49 = 0 ∧ w.toNat / 2 ^ 44 % 4 ≤ 2 ∧ w.toNat / 2 ^ 46 % 8 ≤ 5 ∧
        w.toNat / 2 ^ 32 % 64 ≤ 32 ∧ w.toNat / 2 ^ 38 % 64 ≤ w.toNat / 2 ^ 32 % 64) ∧
    (∀ d, decodeFd w = .ok d →
      d.tv.toNat = w.toNat % 2 ^ 32 ∧ d.bl.toNat = w.toNat / 2 ^ 32 % 64 ∧ d.msb.toNat = w.toNat / 2 ^ 38 % 64 ∧
      (d.mo = .eq ↔ w.toNat / 2 ^ 44 % 4 = 0) ∧ (d.mo = .ign ↔ w.toNat / 2 ^ 44 % 4 = 1) ∧
      (d.mo = .msb ↔ w.toNat / 2 ^ 44 % 4 = 2) ∧
      (d.act = .ns ↔ w.toNat / 2 ^ 46 % 8 = 0) ∧ (d.act = .vs ↔ w.toNat / 2 ^ 46 % 8 = 1) ∧
      (d.act = .lsb ↔ w.toNat / 2 ^ 46 % 8 = 2) ∧ (d.act = .cmp ↔ w.toNat / 2 ^ 46 % 8 = 3) ∧
      (d.act = .cks ↔ w.toNat / 2 ^ 46 % 8 = 4) ∧ (d.act = .dev ↔ w.toNat / 2 ^ 46 % 8 = 5)) ∧
    ((∀ d, decodeFd w ≠ .ok d) → ∀ (u : Port) (i : Instr), u ≠ .cmd → decodeUnit u w ≠ .ok i)

/-- R56: WF is the conjunction of its checks; a ROM word that breaks WF3, WF4, WF6, WF7 or WF8 makes no rule; and the
machine refuses every step under a configuration that breaks WF. -/
def Obligations.ConfigurationChecks : Prop :=
  (∀ cfg : Config, cfg.wf = true ↔
    cfg.rules.length ≤ 255 ∧
    (∀ k r, cfg.rules[k]? = some r → r.id.toNat = k + 1) ∧
    (∀ r ∈ cfg.rules, ∀ (p : Nat) (d : Descriptor), r.fields[p]? = some d →
      d.bl.toNat ≤ 32 ∧ d.msb.toNat ≤ d.bl.toNat ∧ (d.mo ≠ .ign → d.tv.toNat < 2 ^ d.bl.toNat) ∧
        (d.act = .dev → p = 8 ∨ p = 9 ∨ p = 12 ∨ p = 13)) ∧
    cfg.devidLen ≤ 8 ∧ 49 ≤ cfg.bufBytes ∧ cfg.bufBytes ≤ 65488) ∧
  (∀ (id : Byte) (ws : List FdWord), (∃ w ∈ ws, ∀ d, decodeFd w ≠ .ok d) → Rule.ofWords id ws = none) ∧
  (∀ s : State, s.cfg.wf = false → step s = .refused .configNotWellFormed)

/-! ## The Engine step -/

/-- R67, R93: in the Engine's turn the pending CMD value is decoded and executed; a descriptor presented to a field
unit is decoded and performed at the walk's position. -/
def Obligations.StepRunsDecodedInstruction : Prop :=
  (∀ (s : State) (v : Word) (i : Instr) (rest : List Event), EngineTurn s rest → s.status.busy = true →
    s.pend = some v → decode .cmd (toLE v.toNat 4) = .ok i → step s = exec i { s with inputs := rest }) ∧
  (∀ (s : State) (u : Port) (w : FdWord) (i : Instr), s.cfg.wf = true → s.walk.mux = some (u, w) → u ≠ .cmd →
    decode u (toLE w.toNat 8) = .ok i → i.wfAt s.walk.j = true → step s = exec i s)

/-- R12 (c), as the model's log entry 3 reads it: while BUSY = 0 the Engine has no step, and a block whose host does
nothing more has none. -/
def Obligations.IdleEngineHasNoStep : Prop :=
  ∀ (s : State) (rest : List Event), EngineTurn s rest → s.status.busy = false → step s = .fault .noStep

/-- R69: an illegal CMD value completes as IllegalCommand, whatever IN_LEN holds, and changes no buffer. -/
def Obligations.IllegalCommandCompletes : Prop :=
  ∀ (s : State) (v : Word) (rest : List Event), EngineTurn s rest → s.status.busy = true → s.pend = some v →
    (v.toNat / 16 ≠ 0 ∨ v.toNat % 16 = 0 ∨ 5 ≤ v.toNat % 16) →
    ∃ t, step s = .next t ∧ CompletedWith { s with inputs := rest } t false .illegalCommand 0 0xFF 0 0 ∧
      t.status.err.code = 5 ∧ SameObuf s t ∧ SameIdentityWords s t

/-- R70: COMPRESS, DECOMPRESS and MATCH with L > BUF_BYTES complete as LengthError and change no buffer; L = BUF_BYTES
is legal; each command has its own result for L = 0; IDSYNTH is never checked. After MATCH both lengths are 0, as R68
and R26 say; that R77's remark on OUT_LEN does not stand against it is DEDUCED, log entry 22. -/
def Obligations.LengthErrorCompletes : Prop :=
  ∀ s : State, s.cfg.wf = true →
    (s.cfg.bufBytes < s.frameLen → ∀ i ∈ [Instr.compress, Instr.decompress, Instr.matchCmd],
      ∃ t, exec i s = .next t ∧ CompletedWith s t false .lengthError 0 0xFF 0 0 ∧ t.status.err.code = 6 ∧
        SameObuf s t ∧ SameIdentityWords s t) ∧
    (s.frameLen ≤ s.cfg.bufBytes → ∀ i ∈ [Instr.compress, Instr.decompress, Instr.matchCmd],
      ∃ t, exec i s = .next t ∧ t.status.err ≠ .lengthError) ∧
    (s.frameLen = 0 →
      (∃ t, exec .compress s = .next t ∧ CompletedWith s t false .noRuleMatched 0 0xFF 1 1 ∧ t.obufByte 0 = 0) ∧
      (∃ t, exec .decompress s = .next t ∧ CompletedWith s t false .truncatedBuffer 0 0xFF 0 0) ∧
      (∃ t, exec .matchCmd s = .next t ∧ CompletedWith s t false .noRuleMatched 0 0xFF 0 0)) ∧
    (∃ t, exec .idsynth s = .next t ∧ t.status.err ≠ .lengthError)

/-! ## The Matching Engine -/

/-- R72, R73: a MATCHOP.EQ lane accepts exactly when the full-width header value is the truncated target, a MATCHOP.IGN
lane always; the verdict joins the AND-reduction (R75), and nothing else changes. -/
def Obligations.EqualAndIgnoreLanes : Prop :=
  ∀ (s : State) (tv : Word) (bl msb : BitVec 6) (act : Action), s.walk.j < 18 →
    (∃ t, exec (.matchEq tv bl msb act) s = .next t ∧ OnlyWalkChanged s t ∧
      t.walk = { s.walk with
        acc := s.walk.acc && decide ((s.walk.hc.get s.walk.j).toNat = tv.toNat % 2 ^ bl.toNat)
        j := s.walk.j + 1, mux := none }) ∧
    (∃ t, exec (.matchIgn tv bl msb act) s = .next t ∧ OnlyWalkChanged s t ∧
      t.walk = { s.walk with j := s.walk.j + 1, mux := none })

/-- R74: a MATCHOP.MSB lane accepts exactly when the header value and the target agree in each of the top msbBitLength
bits of a bitLength-bit field; every other bit is free. -/
def Obligations.MsbLane : Prop :=
  ∀ (s : State) (tv : Word) (bl msb : BitVec 6) (act : Action), s.walk.j < 18 → bl.toNat ≤ 32 →
    msb.toNat ≤ bl.toNat →
    ∃ t, exec (.matchMsb tv bl msb act) s = .next t ∧ OnlyWalkChanged s t ∧
      t.walk = { s.walk with acc := t.walk.acc, j := s.walk.j + 1, mux := none } ∧
      (t.walk.acc = true ↔ s.walk.acc = true ∧ ∀ i, bl.toNat - msb.toNat ≤ i → i < bl.toNat →
        (s.walk.hc.get s.walk.j).getLsbD i = tv.getLsbD i)

/-- R75: a rule matches exactly when each of its 18 lanes accepts, by the descriptor's matchOp. -/
def Obligations.RuleMatchesWhenEveryLaneAccepts : Prop :=
  ∀ (r : Rule) (hc : HeaderContext), ruleMatches r hc = true ↔
    ∀ (p : Nat) (d : Descriptor), r.fields[p]? = some d →
      (d.mo = .eq → accEq d.tv d.bl (hc.get p) = true) ∧ (d.mo = .ign → accIgn (hc.get p) = true) ∧
      (d.mo = .msb → accMsb d.tv d.bl d.msb (hc.get p) = true)

/-- R76, R78: Select is the least matching index; under P_SCAN_FIRST_ONLY it is 0 or none. -/
def Obligations.SelectIsFirstMatch : Prop :=
  ∀ (cfg : Config) (hc : HeaderContext),
    (cfg.scanFirstOnly = false →
      (∀ k, selectRule cfg hc = some k ↔
        (∃ r, cfg.rules[k]? = some r ∧ ruleMatches r hc = true) ∧
        ∀ j < k, ∀ r, cfg.rules[j]? = some r → ruleMatches r hc = false) ∧
      (selectRule cfg hc = none ↔ ∀ r ∈ cfg.rules, ruleMatches r hc = false)) ∧
    (cfg.scanFirstOnly = true →
      (∀ k, selectRule cfg hc = some k ↔ k = 0 ∧ ∃ r, cfg.rules[0]? = some r ∧ ruleMatches r hc = true) ∧
      (selectRule cfg hc = none ↔ ∀ r, cfg.rules[0]? = some r → ruleMatches r hc = false)) ∧
    (∀ k, selectRule cfg hc = some k → k < cfg.nRules)

/-- R77, R68: MATCH reports the selected rule, or NoRuleMatched for no match or fewer than 48 bytes; OBUF is as before,
the result depends on the header's 48 bytes alone, and both lengths are 0 (R68, R26; log entry 22). -/
def Obligations.MatchReportsSelectedRule : Prop :=
  ∀ s : State, s.cfg.wf = true → s.frameLen ≤ s.cfg.bufBytes →
    (∀ k, 48 ≤ s.frameLen → selectRule s.cfg (parseHeader s.cfg (s.input.take 48)) = some k →
      ∃ t, exec .matchCmd s = .next t ∧ CompletedWith s t true .none (k + 1) 0xFF 0 0 ∧ SameObuf s t ∧
        SameIdentityWords s t) ∧
    ((s.frameLen < 48 ∨ selectRule s.cfg (parseHeader s.cfg (s.input.take 48)) = none) →
      ∃ t, exec .matchCmd s = .next t ∧ CompletedWith s t false .noRuleMatched 0 0xFF 0 0 ∧ SameObuf s t ∧
        SameIdentityWords s t)

/-! ## The header -/

/-- R79: every field of the parsed header, from its 48 bytes, and the range of each (R19). The bit positions of bytes 0
to 7, so the values of HC[0] to HC[5], are RFC 8200's, which R79 marks as from general knowledge: PRESUMED, log
entry 17. -/
def Obligations.ParsedFieldValues : Prop :=
  ∀ (cfg : Config) (h : List Byte), h.length = 48 →
    let b := fun i => (h.getD i 0).toNat
    let hc := parseHeader cfg h
    (hc.get 0).toNat = b 0 / 16 ∧
    (hc.get 1).toNat = b 0 % 16 * 16 + b 1 / 16 ∧
    (hc.get 2).toNat = b 1 % 16 * 65536 + b 2 * 256 + b 3 ∧
    (hc.get 3).toNat = b 4 * 256 + b 5 ∧ (hc.get 4).toNat = b 6 ∧ (hc.get 5).toNat = b 7 ∧
    (∀ m < 8, (hc.get (6 + m)).toNat =
      b (8 + 4 * m) + 256 * b (9 + 4 * m) + 65536 * b (10 + 4 * m) + 16777216 * b (11 + 4 * m)) ∧
    (∀ q < 4, (hc.get (14 + q)).toNat =
      if cfg.udpLe then b (40 + 2 * q) + 256 * b (41 + 2 * q) else 256 * b (40 + 2 * q) + b (41 + 2 * q)) ∧
    (∀ p < 18, (hc.get p).toNat < 2 ^ layoutWidth p)

/-- R104: the serialiser and the parser are inverse, but for the bits above each layout width. -/
def Obligations.SerializeAndParseAreInverse : Prop :=
  ∀ cfg : Config,
    (∀ (hc : HeaderContext) (p : Nat), p < 18 →
      (serializeHeader cfg hc).length = 48 ∧
      ((parseHeader cfg (serializeHeader cfg hc)).get p).toNat = (hc.get p).toNat % 2 ^ layoutWidth p) ∧
    (∀ h : List Byte, h.length = 48 → serializeHeader cfg (parseHeader cfg h) = h)

/-! ## The Compressor -/

/-- R81, R83, R84, R85, R86: these five actions emit no byte. -/
def Obligations.SilentActionsEmitNothing : Prop :=
  ∀ (s : State) (tv : Word) (bl msb : BitVec 6) (mo : MatchOp), s.walk.j < 18 →
    ∀ i ∈ [Instr.nsCompress tv bl msb mo, .lsbCompress tv bl msb mo, .cmpCompress tv bl msb mo,
        .cksCompress tv bl msb mo, .devCompress tv bl msb mo],
      ∃ t, exec i s = .next t ∧ OnlyWalkChanged s t ∧
        t.walk = { s.walk with j := s.walk.j + 1, mux := none }

/-- R82: ACT.VS.COMPRESS appends ceil(bitLength/8) bytes of the target value, or of the header value in mode 1, most
significant first at positions 2 and 3 unless P_CMP_FLPL_LE, else least significant first. -/
def Obligations.ValueSentEmission : Prop :=
  ∀ (s : State) (tv : Word) (bl msb : BitVec 6) (mo : MatchOp), s.walk.j < 18 →
    let v := if s.cfg.vsFromHeader then s.walk.hc.get s.walk.j else tv
    let n := (bl.toNat + 7) / 8
    ∃ t e, exec (.vsCompress tv bl msb mo) s = .next t ∧ OnlyWalkChanged s t ∧
      t.walk = { s.walk with out := s.walk.out ++ e, j := s.walk.j + 1, mux := none } ∧ e.length = n ∧
      ∀ i < n, (e.getD i 0).toNat =
        if (s.walk.j = 2 ∨ s.walk.j = 3) ∧ s.cfg.cmpFlplLe = false
        then v.toNat / 256 ^ (n - 1 - i) % 256 else v.toNat / 256 ^ i % 256

/-- R89, R87: COMPRESS under a matching rule emits the rule's id, the residual and the payload. -/
def Obligations.CompressUnderMatchingRule : Prop :=
  ∀ (s : State) (k : Nat) (r : Rule), s.cfg.wf = true → 48 ≤ s.frameLen → s.frameLen ≤ s.cfg.bufBytes →
    selectRule s.cfg (parseHeader s.cfg (s.input.take 48)) = some k → s.cfg.rules[k]? = some r →
    let res := residualBytes s.cfg r (parseHeader s.cfg (s.input.take 48))
    ∃ t, exec .compress s = .next t ∧
      CompletedWith s t true .none (k + 1) 0xFF (1 + res.length + (s.frameLen - 48)) (1 + res.length) ∧
      SameIdentityWords s t ∧
      t.obufByte 0 = r.id ∧
      (∀ i b, res[i]? = some b → t.obufByte (1 + i) = b) ∧
      (∀ i, i < s.frameLen - 48 → t.obufByte (1 + res.length + i) = s.ibufByte (48 + i))

/-- R88, R89, R114: an input shorter than 48 bytes, or one that no rule matches, is passed through behind a 0 tag, and
ERR = 1 reports it beside the valid output. -/
def Obligations.CompressPassesThrough : Prop :=
  ∀ s : State, s.cfg.wf = true → s.frameLen ≤ s.cfg.bufBytes →
    (s.frameLen < 48 ∨ selectRule s.cfg (parseHeader s.cfg (s.input.take 48)) = none) →
    ∃ t, exec .compress s = .next t ∧ CompletedWith s t false .noRuleMatched 0 0xFF (s.frameLen + 1) 1 ∧
      t.status.err.code = 1 ∧ SameIdentityWords s t ∧ t.obufByte 0 = 0 ∧
      ∀ i, i < s.frameLen → t.obufByte (i + 1) = s.ibufByte i

/-- R90, R61: a matched compression's residual is the sum of ceil(bitLength/8) over the ValueSent fields, at most 72
bytes, and its output is no larger than its input exactly when that sum is at most 47. -/
def Obligations.CompressedSizeLaw : Prop :=
  ∀ (cfg : Config) (inp out : List Byte) (k h : Nat) (r : Rule), cfg.wf = true →
    compressInput cfg inp = .cmpMatched out k h → cfg.rules[k]? = some r →
    let rcmp := (r.fields.toList.map fun d => if d.act = .vs then (d.bl.toNat + 7) / 8 else 0).sum
    h = 1 + rcmp ∧ rcmp ≤ 72 ∧ out.length = 1 + rcmp + (inp.length - 48) ∧ 48 ≤ inp.length ∧
      (out.length ≤ inp.length ↔ rcmp ≤ 47)

/-- R80: compression does not read the Device Identity, and never reports it invalid. -/
def Obligations.CompressIgnoresIdentity : Prop :=
  ∀ (s : State) (devid : Vector Byte 8) (len : Nat),
    ∃ t, exec .compress s = .next t ∧ t.status.err ≠ .invalidDeviceIdentity ∧
      exec .compress { s with cfg := { s.cfg with devid := devid, devidLen := len } } =
        .next { t with cfg := { s.cfg with devid := devid, devidLen := len } }

/-! ## The Decompressor -/

/-- R96, R99, R100: NotSent decodes to the target value, the two deferred actions to the placeholder 0; no byte is
consumed. -/
def Obligations.NotSentAndDeferredFields : Prop :=
  ∀ (s : State) (tv : Word) (bl msb : BitVec 6) (mo : MatchOp), s.walk.j < 18 →
    ∀ iv ∈ [(Instr.nsDecompress tv bl msb mo, tv), (.cmpDecompress tv bl msb mo, 0), (.cksDecompress tv bl msb mo, 0)],
      ∃ t, exec iv.1 s = .next t ∧ OnlyWalkChanged s t ∧ t.walk.off = s.walk.off ∧ t.walk.j = s.walk.j + 1 ∧
        t.walk.out = s.walk.out ∧ t.walk.acc = s.walk.acc ∧ t.walk.mux = none ∧
        ∀ q < 18, t.walk.hc.get q = if q = s.walk.j then iv.2 else s.walk.hc.get q

/-- R94, R97: ACT.VS.DECOMPRESS reads ceil(bitLength/8) bytes at the offset, little-endian but big-endian at positions 2
and 3, and advances the offset. -/
def Obligations.ValueSentField : Prop :=
  ∀ (s : State) (tv : Word) (bl msb : BitVec 6) (mo : MatchOp), s.walk.j < 18 → bl.toNat ≤ 32 →
    let n := (bl.toNat + 7) / 8
    (n = 0 ∨ s.walk.off + n ≤ s.frameLen) →
    ∃ t, exec (.vsDecompress tv bl msb mo) s = .next t ∧ OnlyWalkChanged s t ∧ t.walk.off = s.walk.off + n ∧
      t.walk.j = s.walk.j + 1 ∧ t.walk.out = s.walk.out ∧ t.walk.acc = s.walk.acc ∧ t.walk.mux = none ∧
      (∀ q < 18, q ≠ s.walk.j → t.walk.hc.get q = s.walk.hc.get q) ∧
      (t.walk.hc.get s.walk.j).toNat = ((List.range n).map fun i => (s.ibufByte (s.walk.off + i)).toNat *
        256 ^ (if s.walk.j = 2 ∨ s.walk.j = 3 then n - 1 - i else i)).sum

/-- R98: ACT.LSB.DECOMPRESS keeps the target's top msbBitLength bits of the bitLength-bit field and takes the rest from
ceil((bitLength - msbBitLength)/8) bytes, little-endian; without P_LSB_DEC_READ it is NotSent. -/
def Obligations.LeastSignificantBitsField : Prop :=
  ∀ (s : State) (tv : Word) (bl msb : BitVec 6) (mo : MatchOp), s.walk.j < 18 → bl.toNat ≤ 32 →
    msb.toNat ≤ bl.toNat →
    let nl := bl.toNat - msb.toNat
    let n := if s.cfg.lsbDecRead then (nl + 7) / 8 else 0
    (n = 0 ∨ s.walk.off + n ≤ s.frameLen) →
    ∃ t, exec (.lsbDecompress tv bl msb mo) s = .next t ∧ OnlyWalkChanged s t ∧ t.walk.off = s.walk.off + n ∧
      t.walk.j = s.walk.j + 1 ∧ t.walk.out = s.walk.out ∧ t.walk.acc = s.walk.acc ∧ t.walk.mux = none ∧
      (∀ q < 18, q ≠ s.walk.j → t.walk.hc.get q = s.walk.hc.get q) ∧
      (s.cfg.lsbDecRead = false → t.walk.hc.get s.walk.j = tv) ∧
      (s.cfg.lsbDecRead = true → ∀ i < 32, (t.walk.hc.get s.walk.j).getLsbD i =
        if i < nl then (s.ibufByte (s.walk.off + i / 8)).getLsbD (i % 8)
        else if i < bl.toNat then tv.getLsbD i else false)

/-- R101, R108: ACT.DEV.DECOMPRESS with a whole identity sets the first four identity bytes at positions 8 and 12 and the
last four at 9 and 13, little-endian, and consumes no byte. -/
def Obligations.DeviceIdentityField : Prop :=
  ∀ (s : State) (tv : Word) (bl msb : BitVec 6) (mo : MatchOp), iidPosition s.walk.j = true → 8 ≤ s.cfg.devidLen →
    ∃ t, exec (.devDecompress tv bl msb mo) s = .next t ∧ OnlyWalkChanged s t ∧ t.walk.off = s.walk.off ∧
      t.walk.j = s.walk.j + 1 ∧ t.walk.out = s.walk.out ∧ t.walk.acc = s.walk.acc ∧ t.walk.mux = none ∧
      (∀ q < 18, q ≠ s.walk.j → t.walk.hc.get q = s.walk.hc.get q) ∧
      (t.walk.hc.get s.walk.j).toNat =
        let d := fun i => (s.cfg.devid.toList.getD i 0).toNat
        if s.walk.j = 8 ∨ s.walk.j = 12 then d 0 + 256 * d 1 + 65536 * d 2 + 16777216 * d 3
        else d 4 + 256 * d 5 + 65536 * d 6 + 16777216 * d 7

/-- R113, R116: a field operation that raises ends the command at once: the kind, the frame's tag and the position are
reported, both lengths are 0, and the identity words, IN_LEN and IBUF are as before. The tag of an empty frame is 0. -/
def Obligations.FieldRaiseEndsCommand : Prop :=
  ∀ (s : State) (tv : Word) (bl msb : BitVec 6) (mo : MatchOp), s.walk.j < 18 →
    let tag := if s.frameLen = 0 then 0 else (s.ibufByte 0).toNat
    let nvs := (bl.toNat + 7) / 8
    let nls := (bl.toNat - msb.toNat + 7) / 8
    (nvs ≠ 0 → s.frameLen < s.walk.off + nvs →
      ∃ t, exec (.vsDecompress tv bl msb mo) s = .next t ∧
        CompletedWith s t false .truncatedBuffer tag s.walk.j 0 0 ∧ SameIdentityWords s t) ∧
    (s.cfg.lsbDecRead = true → nls ≠ 0 → s.frameLen < s.walk.off + nls →
      ∃ t, exec (.lsbDecompress tv bl msb mo) s = .next t ∧
        CompletedWith s t false .truncatedBuffer tag s.walk.j 0 0 ∧ SameIdentityWords s t) ∧
    (s.cfg.devidLen < 8 →
      ∃ t, exec (.devDecompress tv bl msb mo) s = .next t ∧
        CompletedWith s t false .invalidDeviceIdentity tag s.walk.j 0 0 ∧ SameIdentityWords s t)

/-- R92: a frame whose tag is 0 is returned unchanged behind its tag. -/
def Obligations.DecompressPassesThrough : Prop :=
  ∀ s : State, s.cfg.wf = true → 1 ≤ s.frameLen → s.frameLen ≤ s.cfg.bufBytes → s.ibufByte 0 = 0 →
    ∃ t, exec .decompress s = .next t ∧ CompletedWith s t false .none 0 0xFF (s.frameLen - 1) 1 ∧
      SameIdentityWords s t ∧ ∀ i, i + 1 < s.frameLen → t.obufByte i = s.ibufByte (i + 1)

/-- R91, R93: an empty frame reports TruncatedBuffer, code 3, with tag 0, and a tag above N_RULES UnknownRuleTag, code 2,
with that tag, both without a position (the codes: R112). -/
def Obligations.DecompressRejectsFrames : Prop :=
  ∀ s : State, s.cfg.wf = true → s.frameLen ≤ s.cfg.bufBytes →
    (s.frameLen = 0 →
      ∃ t, exec .decompress s = .next t ∧ CompletedWith s t false .truncatedBuffer 0 0xFF 0 0 ∧
        t.status.err.code = 3 ∧ SameIdentityWords s t) ∧
    (1 ≤ s.frameLen → s.cfg.nRules < (s.ibufByte 0).toNat →
      ∃ t, exec .decompress s = .next t ∧
        CompletedWith s t false .unknownRuleTag (s.ibufByte 0).toNat 0xFF 0 0 ∧ t.status.err.code = 2 ∧
        SameIdentityWords s t)

/-- R106, R95, R102, R103, R105: under a known tag DECOMPRESS walks the rule's fields; a raise is reported with its
position; otherwise the deferred fields are resolved, and the output is the serialised header and the bytes not consumed. -/
def Obligations.DecompressUnderRule : Prop :=
  ∀ (s : State) (r : Rule), s.cfg.wf = true → 1 ≤ s.frameLen → s.frameLen ≤ s.cfg.bufBytes → s.ibufByte 0 ≠ 0 →
    s.cfg.rules[(s.ibufByte 0).toNat - 1]? = some r →
    (∀ e p, fieldWalk s.cfg s.input (ruleFields r) HeaderContext.zero 1 = .raised e p →
      p < 18 ∧ ∃ t, exec .decompress s = .next t ∧ CompletedWith s t false e (s.ibufByte 0).toNat p 0 0 ∧
        SameIdentityWords s t) ∧
    (∀ hc off, fieldWalk s.cfg s.input (ruleFields r) HeaderContext.zero 1 = .done hc off →
      ∃ t hc', exec .decompress s = .next t ∧
        CompletedWith s t true .none (s.ibufByte 0).toNat 0xFF (48 + s.frameLen - off) off ∧ SameIdentityWords s t ∧
        (∀ p d, r.fields[p]? = some d → (hc'.get p).toNat =
          if d.act = .cmp then s.frameLen + 8 - off else if d.act = .cks then 0 else (hc.get p).toNat) ∧
        (∀ i b, (serializeHeader s.cfg hc')[i]? = some b → t.obufByte i = b) ∧
        (∀ i, off + i < s.frameLen → t.obufByte (48 + i) = s.ibufByte (off + i)))

/-- R61, R102: a walk that completes consumes the rule's residual length behind the tag, never more than the frame, and
the length it yields lies in 8..L+7. -/
def Obligations.WalkConsumesResidualLength : Prop :=
  ∀ (cfg : Config) (inp : List Byte) (r : Rule) (hc : HeaderContext) (off : Nat), 1 ≤ inp.length →
    fieldWalk cfg inp (ruleFields r) HeaderContext.zero 1 = .done hc off →
    off = 1 + (r.fields.toList.map fun d =>
      if d.act = .vs then (d.bl.toNat + 7) / 8
      else if d.act = .lsb ∧ cfg.lsbDecRead = true then (d.bl.toNat - d.msb.toNat + 7) / 8
      else 0).sum ∧
    off ≤ inp.length ∧ 8 ≤ inp.length + 8 - off ∧ inp.length + 8 - off ≤ inp.length + 7

/-- R95, R115 (3 d): the walk visits the positions in order and reports the first raise: every earlier position yields
a value, at the offset the positions before it leave. -/
def Obligations.WalkReportsFirstRaise : Prop :=
  ∀ (cfg : Config) (inp : List Byte) (r : Rule) (e : ErrKind) (p : Nat),
    fieldWalk cfg inp (ruleFields r) HeaderContext.zero 1 = .raised e p →
    ∃ offs : List Nat, offs.length = p + 1 ∧ offs[0]? = some 1 ∧
      (∀ q o d, q < p → offs[q]? = some o → r.fields[q]? = some d →
        ∃ v o', decodeField cfg d q inp o = .value v o' ∧ offs[q + 1]? = some o') ∧
      (∀ o d, offs[p]? = some o → r.fields[p]? = some d → decodeField cfg d p inp o = .raised e) ∧
      (e = .truncatedBuffer ∨ e = .invalidDeviceIdentity)

/-- R67, R75, R89, R95 (log entry 10): each command is its field operations performed one after the other. The lanes of
a rule's descriptors leave the rule's match; its encoder operations leave the tag and the residual; its decoder
operations leave the walk's Header Context and offset, or, where one raises, the committed error of DECOMPRESS. -/
def Obligations.CommandsAreTheirFieldOperations : Prop :=
  ∀ (s : State) (r : Rule),
    (∀ hc, ∃ t, runUnits (r.fields.toList.map Descriptor.laneInstr) { s with walk := { Walk.fresh with hc := hc } } =
      .next t ∧ t.walk.acc = ruleMatches r hc) ∧
    (∀ hc, ∃ t, runUnits (r.fields.toList.map Descriptor.encodeInstr)
      { s with walk := { Walk.fresh with hc := hc, out := [r.id] } } =
      .next t ∧ t.walk.out = r.id :: residualBytes s.cfg r hc) ∧
    (∀ hc off, fieldWalk s.cfg s.input (ruleFields r) HeaderContext.zero 1 = .done hc off →
      ∃ t, runUnits (r.fields.toList.map Descriptor.decodeInstr) { s with walk := { Walk.fresh with off := 1 } } =
        .next t ∧ t.walk.hc = hc ∧ t.walk.off = off ∧ t.walk.j = 18) ∧
    (∀ e p, fieldWalk s.cfg s.input (ruleFields r) HeaderContext.zero 1 = .raised e p → 1 ≤ s.frameLen →
      s.frameLen ≤ s.cfg.bufBytes → s.ibufByte 0 ≠ 0 → s.cfg.rules[(s.ibufByte 0).toNat - 1]? = some r →
      runUnits (r.fields.toList.map Descriptor.decodeInstr) { s with walk := { Walk.fresh with off := 1 } } =
        exec .decompress s)

/-- R107: the round-trip law. A packet that a rule compresses is decompressed to a header whose every field is the one
the law gives for its action, followed by the payload; in the restoring cases the field is the original one. A rule
that derives a field needs a whole identity. -/
def Obligations.RoundTripLaw : Prop :=
  ∀ (cfg : Config) (h pay c : List Byte) (k hl : Nat) (r : Rule), cfg.wf = true → h.length = 48 →
    h.length + pay.length ≤ cfg.bufBytes → compressInput cfg (h ++ pay) = .cmpMatched c k hl → cfg.rules[k]? = some r →
    (cfg.lsbDecRead = false ∨ ∀ d ∈ r.fields.toList, d.act ≠ .lsb) →
    (cfg.cmpFlplLe = false ∨ ∀ p d, r.fields[p]? = some d → p = 2 ∨ p = 3 → d.act ≠ .vs) →
    (cfg.devidLen = 8 ∨ ∀ d ∈ r.fields.toList, d.act ≠ .dev) →
    ∃ hc', decompressInput cfg c = .decOk (serializeHeader cfg hc' ++ pay) (BitVec.ofNat 8 (k + 1)) hl ∧
      ∀ p d, r.fields[p]? = some d →
        let v := if cfg.vsFromHeader then (parseHeader cfg h).get p else d.tv
        let idw := if p = 8 ∨ p = 12 then idWord0 cfg else idWord1 cfg
        (d.act = .ns → hc'.get p = d.tv) ∧
        (d.act = .vs → (hc'.get p).toNat = v.toNat % 2 ^ (8 * ((d.bl.toNat + 7) / 8))) ∧
        (d.act = .lsb → hc'.get p = d.tv) ∧
        (d.act = .cmp → (hc'.get p).toNat = 8 + pay.length) ∧
        (d.act = .cks → hc'.get p = 0) ∧
        (d.act = .dev → hc'.get p = idw) ∧
        ((d.mo = .eq ∧ (d.act = .ns ∨ d.act = .vs) ∨
          d.act = .vs ∧ cfg.vsFromHeader = true ∧ layoutWidth p ≤ 8 * ((d.bl.toNat + 7) / 8) ∨
          d.act = .dev ∧ (parseHeader cfg h).get p = idw ∨
          d.act = .cmp ∧ ((parseHeader cfg h).get p).toNat = 8 + pay.length) →
          (hc'.get p).toNat % 2 ^ layoutWidth p = ((parseHeader cfg h).get p).toNat)

/-! ## The Identity Synthesizer -/

/-- R108, R109, R110: with a whole identity IDSYNTH sets the two words; with a shorter one it reports
InvalidDeviceIdentity and leaves them. Neither IN_LEN nor OBUF matters. -/
def Obligations.IdsynthResult : Prop :=
  ∀ s : State,
    let d := fun i => (s.cfg.devid.toList.getD i 0).toNat
    (8 ≤ s.cfg.devidLen →
      ∃ t, exec .idsynth s = .next t ∧ CompletedWith s t false .none 0 0xFF 0 0 ∧ SameObuf s t ∧
        t.idw0.toNat = d 0 + 256 * d 1 + 65536 * d 2 + 16777216 * d 3 ∧
        t.idw1.toNat = d 4 + 256 * d 5 + 65536 * d 6 + 16777216 * d 7) ∧
    (s.cfg.devidLen < 8 →
      ∃ t, exec .idsynth s = .next t ∧ CompletedWith s t false .invalidDeviceIdentity 0 0xFF 0 0 ∧ SameObuf s t ∧
        SameIdentityWords s t ∧ t.status.err.code = 4)

/-! ## The host bus -/

/-- R23: a CMD write while BUSY = 0 latches the value and sets STATUS to BUSY alone; nothing else changes. -/
def Obligations.CmdWriteStartsCommand : Prop :=
  ∀ (s : State) (v : Word) (rest : List Event), NextEvent s (.write 0 4 v) rest → s.status.busy = false →
    ∃ t, step s = .next t ∧ t.pend = some v ∧ t.status.word = 1 ∧ t.cfg = s.cfg ∧ t.inLen = s.inLen ∧
      t.outLen = s.outLen ∧ t.hdrLen = s.hdrLen ∧ SameIdentityWords s t ∧ SameIbuf s t ∧ SameObuf s t ∧
      t.inputs = rest ∧ t.rdata = s.rdata ∧ t.walk = s.walk

/-- R25: a write of IN_LEN while BUSY = 0 sets LEN to bits 15:0; bits 31:16 are ignored, and nothing else changes. -/
def Obligations.InLenWriteSetsLength : Prop :=
  ∀ (s : State) (v : Word) (rest : List Event), NextEvent s (.write 8 4 v) rest → s.status.busy = false →
    ∃ t, step s = .next t ∧ t.inLen.toNat = v.toNat % 65536 ∧ t.cfg = s.cfg ∧ t.status = s.status ∧
      t.outLen = s.outLen ∧ t.hdrLen = s.hdrLen ∧ SameIdentityWords s t ∧ t.pend = s.pend ∧ SameIbuf s t ∧
      SameObuf s t ∧ t.inputs = rest ∧ t.rdata = s.rdata ∧ t.walk = s.walk

/-- R126: while BUSY = 1 a write of CMD, of IN_LEN or of any IBUF byte is refused. -/
def Obligations.BusyWritesRefused : Prop :=
  ∀ (s : State) (a : BitVec 18) (n : Nat) (v : Word) (rest : List Event), NextEvent s (.write a n v) rest →
    s.status.busy = true → accessLegal a n = true →
    (a.toNat = 0 ∨ a.toNat = 8 ∨ (0x10000 ≤ a.toNat ∧ a.toNat < 0x10000 + s.cfg.bufBytes)) →
    step s = .refused .writeWhileBusy

/-- R41: the REG window takes aligned words only, the other windows bytes and aligned words; every other host access
is refused, and no access is refused for its form otherwise. -/
def Obligations.IllegalAccessesRefused : Prop :=
  ∀ (s : State) (a : BitVec 18) (n : Nat) (rest : List Event),
    let legal := if a.toNat < 0x10000 then n = 4 ∧ a.toNat % 4 = 0 else n = 1 ∨ n = 4 ∧ a.toNat % 4 = 0
    (NextEvent s (.read a n) rest → (step s = .refused .illegalAccess ↔ ¬ legal)) ∧
    (∀ v, NextEvent s (.write a n v) rest → (step s = .refused .illegalAccess ↔ ¬ legal))

/-- R38, R42: a host write to IBUF while BUSY = 0 stores its bytes in little-endian order at the indexes below BUF_BYTES;
every other byte and register is as before. -/
def Obligations.IbufWriteStoresLittleEndian : Prop :=
  ∀ (s : State) (a : BitVec 18) (n : Nat) (v : Word) (rest : List Event), NextEvent s (.write a n v) rest →
    s.status.busy = false → accessLegal a n = true → windowOf a = .ibuf →
    ∃ t, step s = .next t ∧ SameRegisters s t ∧ SameObuf s t ∧ t.inputs = rest ∧ t.rdata = s.rdata ∧ t.walk = s.walk ∧
      (∀ i, i < n → windowOffset a + i < s.cfg.bufBytes →
        (t.ibufByte (windowOffset a + i)).toNat = v.toNat / 256 ^ i % 256) ∧
      (∀ x, (x < windowOffset a ∨ windowOffset a + n ≤ x ∨ s.cfg.bufBytes ≤ x) → t.ibufByte x = s.ibufByte x)

/-- R37, R39, R40, R44: a write to a read-only or reserved location has no effect, busy or not. -/
def Obligations.ReadOnlyWritesIgnored : Prop :=
  ∀ (s : State) (a : BitVec 18) (n : Nat) (v : Word) (rest : List Event), NextEvent s (.write a n v) rest →
    accessLegal a n = true →
    (a.toNat < 0x10000 ∧ a.toNat ≠ 0 ∧ a.toNat ≠ 8 ∨ 0x10000 + s.cfg.bufBytes ≤ a.toNat) →
    ∃ t, step s = .next t ∧ SameRegisters s t ∧ SameIbuf s t ∧ SameObuf s t ∧ t.inputs = rest ∧ t.rdata = s.rdata ∧
      t.walk = s.walk

/-- R44, R127: every legal host read completes and changes nothing of the block. Only OBUF, OUT_LEN, HDR_LEN, IDW0 and
IDW1 are left open while BUSY = 1: a second read of any other address gives the same value again. -/
def Obligations.ReadsLeaveStateAlone : Prop :=
  ∀ (s : State) (a : BitVec 18) (n : Nat) (rest : List Event), NextEvent s (.read a n) rest →
    accessLegal a n = true →
    let leftOpen := 0x20000 ≤ a.toNat ∧ a.toNat < 0x30000 ∨ a.toNat = 0x0C ∨ a.toNat = 0x10 ∨ a.toNat = 0x18 ∨
      a.toNat = 0x1C
    ∃ t, step s = .next t ∧ SameRegisters s t ∧ SameIbuf s t ∧ SameObuf s t ∧ t.inputs = rest ∧ t.walk = s.walk ∧
      (s.status.busy = false ∨ ¬ leftOpen →
        ∀ rest', rest = .read a n :: rest' → ∃ t', step t = .next t' ∧ t'.rdata = t.rdata)

/-- R22, R24, R37: what the Host reads at each register offset; the results are read as they are while BUSY = 0. -/
def Obligations.RegisterReadValues : Prop :=
  ∀ (s : State) (a : BitVec 18) (rest : List Event), NextEvent s (.read a 4) rest → a.toNat < 0x10000 →
    a.toNat % 4 = 0 →
    ∃ t, step s = .next t ∧
      (a.toNat = 0x00 → t.rdata = 0) ∧
      (a.toNat = 0x04 → t.rdata = s.status.word) ∧
      (a.toNat = 0x08 → t.rdata.toNat = s.inLen.toNat) ∧
      (a.toNat = 0x0C → s.status.busy = false → t.rdata.toNat = s.outLen.toNat) ∧
      (a.toNat = 0x10 → s.status.busy = false → t.rdata.toNat = s.hdrLen.toNat) ∧
      (a.toNat = 0x14 → t.rdata.toNat = s.cfg.nRules) ∧
      (a.toNat = 0x18 → s.status.busy = false → t.rdata = s.idw0) ∧
      (a.toNat = 0x1C → s.status.busy = false → t.rdata = s.idw1) ∧
      (a.toNat = 0x20 → t.rdata.toNat = s.cfg.devidLen) ∧
      (0x24 ≤ a.toNat → t.rdata = 0)

/-- R24: the places of STATUS's fields. -/
def Obligations.StatusWordLayout : Prop :=
  ∀ st : Status, st.word.toNat =
    st.busy.toNat + 2 * st.done.toNat + 4 * st.matched.toNat + 16 * st.err.code.toNat + 256 * st.tag.toNat +
      65536 * st.errPos.toNat

/-- R38, R39, R42: a byte or a word read of the IBUF or OBUF window gives the buffer's bytes, the first in bits 7:0, and 0
beyond the buffer; of OBUF while BUSY = 0. That a byte read is zero-extended is DEDUCED, log entry 12. -/
def Obligations.BufferReadValues : Prop :=
  ∀ (s : State) (a : BitVec 18) (n : Nat) (rest : List Event), NextEvent s (.read a n) rest →
    accessLegal a n = true → (windowOf a = .ibuf ∨ windowOf a = .obuf ∧ s.status.busy = false) →
    ∃ t, step s = .next t ∧ t.rdata.toNat = ((List.range n).map fun i =>
      256 ^ i * (if windowOf a = .ibuf
        then (if windowOffset a + i < s.cfg.bufBytes then (s.ibufByte (windowOffset a + i)).toNat else 0)
        else (if windowOffset a + i < s.cfg.bufBytes + 47 then (s.obufByte (windowOffset a + i)).toNat else 0))).sum

/-- R40, R41, R42: a word or a byte read of the ROM window. A read q bytes into a descriptor's 64-bit word gives its n
bytes from there, little-endian: for a word, bits 31:0 at q = 0 and bits 63:32 at q = 4. The id of a rule stands in bits
7:0 of its id word, whose other bytes are 0. Every other address reads 0. That a byte read is zero-extended is DEDUCED,
log entry 12. -/
def Obligations.RomWindowContents : Prop :=
  ∀ (s : State) (a : BitVec 18) (n : Nat) (rest : List Event), NextEvent s (.read a n) rest → 0x30000 ≤ a.toNat →
    accessLegal a n = true →
    ∃ t, step s = .next t ∧
      (∀ k p q r d, s.cfg.rules[k]? = some r → r.fields[p]? = some d → q < 8 →
        a.toNat = 0x30000 + 8 * (18 * k + p) + q → t.rdata.toNat = d.word.toNat / 256 ^ q % 256 ^ n) ∧
      (∀ k q r, s.cfg.rules[k]? = some r → q < 4 → a.toNat = 0x3F000 + 4 * k + q →
        t.rdata.toNat = if q = 0 then r.id.toNat else 0) ∧
      (0x30000 + 144 * s.cfg.nRules ≤ a.toNat → (a.toNat < 0x3F000 ∨ 0x3F000 + 4 * s.cfg.nRules ≤ a.toNat) →
        t.rdata = 0)

/-! ## Reset -/

/-- R34: the state right after reset, for every configuration. -/
def Obligations.ResetRegisterValues : Prop :=
  ∀ cfg : Config, let s := State.afterReset cfg
    s.cfg = cfg ∧ s.status.word = 0 ∧ s.inLen = 0 ∧ s.outLen = 0 ∧ s.hdrLen = 0 ∧ s.idw0 = 0 ∧ s.idw1 = 0 ∧
      s.pend = none ∧ (∀ p, s.walk.hc.get p = 0) ∧ s.ibuf = [] ∧ s.obuf = []

/-- R123: the reset input, at any time and while BUSY = 1 too, abandons a pending command and puts every register into
R34's state; the configuration stays. -/
def Obligations.ResetInputResets : Prop :=
  ∀ (s : State) (rest : List Event), NextEvent s .reset rest →
    ∃ t, step s = .next t ∧ t.pend = none ∧ t.status.word = 0 ∧ t.inLen = 0 ∧ t.outLen = 0 ∧ t.hdrLen = 0 ∧
      t.idw0 = 0 ∧ t.idw1 = 0 ∧ (∀ p, t.walk.hc.get p = 0) ∧ t.cfg = s.cfg ∧ t.inputs = rest

/-! ## Whole-machine rules -/

/-- R13, R15, R16, R49: no step changes the configuration. -/
def Obligations.ConfigurationNeverChanges : Prop :=
  ∀ s t : State, step s = .next t → t.cfg = s.cfg

/-- R29: IDW0 and IDW1 change only by the Engine's turn that performs a pending IDSYNTH with a whole identity, which
reports no error, or by reset. -/
def Obligations.OnlyIdsynthWritesIdentityWords : Prop :=
  ∀ s t : State, s.walk.mux = none → step s = .next t → ¬ SameIdentityWords s t →
    ((∃ rest, EngineTurn s rest) ∧ s.status.busy = true ∧ s.pend = some 4 ∧ 8 ≤ s.cfg.devidLen ∧
      t.status.done = true ∧ t.status.err = .none) ∨
    ∃ rest, s.inputs = .reset :: rest

/-- R38, R25: only a host write or reset changes IBUF or IN_LEN; the Engine never does. -/
def Obligations.EngineNeverWritesInput : Prop :=
  ∀ s t : State, step s = .next t → (∀ a n v rest, s.inputs ≠ .write a n v :: rest) →
    (∀ rest, s.inputs ≠ .reset :: rest) → SameIbuf s t ∧ t.inLen = s.inLen

/-- R33: STATUS changes only by a CMD write, by an Engine step, or by reset. -/
def Obligations.OnlyCommandsChangeStatus : Prop :=
  ∀ s t : State, s.walk.mux = none → step s = .next t → t.status ≠ s.status →
    (∃ v rest, s.inputs = .write 0 4 v :: rest ∧ s.status.busy = false) ∨
    (s.status.busy = true ∧ ∃ rest, EngineTurn s rest) ∨ (∃ rest, s.inputs = .reset :: rest)

/-- R71: no host access clears BUSY or the pending command: the Engine step stays enabled until it is taken. -/
def Obligations.BusyUntilEngineStep : Prop :=
  ∀ (s t : State) (ev : Event) (rest : List Event), NextEvent s ev rest → ev ≠ .engine → ev ≠ .reset →
    s.status.busy = true → step s = .next t → t.status.busy = true ∧ t.pend = s.pend

/-- R71, R128: whatever legal reads the Host makes meanwhile, a started command is complete after them and one Engine
step. -/
def Obligations.StartedCommandCompletes : Prop :=
  ∀ s : State, s.cfg.wf = true → s.Inv → s.status.busy = true →
    (∀ ev ∈ s.inputs, ∃ a n, ev = .read a n ∧ accessLegal a n = true) →
    ∃ t : State, Host.Core.run Sys2Proof.core (s.inputs.length + 1) s = .next t ∧ t.status.done = true ∧
      t.status.busy = false ∧ t.pend = none ∧ t.inputs = []

/-- R17, R120: each command starts with a fresh Header Context: nothing of the internal state left before it matters. -/
def Obligations.CommandsIgnoreOldInternalState : Prop :=
  ∀ (s : State) (w : Walk), ∀ i ∈ [Instr.compress, Instr.decompress, Instr.matchCmd, Instr.idsynth],
    exec i { s with walk := w } = exec i s ∧ ∃ t, exec i s = .next t ∧ t.walk = Walk.fresh

/-- R67: IBUF bytes at index L and above do not affect a command. -/
def Obligations.BytesBeyondLengthIrrelevant : Prop :=
  ∀ (s : State) (m : Memory) (draw : Nat),
    (∀ x, x < s.frameLen → State.ibufByte { s with ibuf := m, ibufDraw := draw } x = s.ibufByte x) →
    ∀ i ∈ [Instr.compress, Instr.decompress, Instr.matchCmd, Instr.idsynth],
      ∃ t, exec i s = .next t ∧ exec i { s with ibuf := m, ibufDraw := draw } = .next { t with ibuf := m, ibufDraw := draw }

/-- The invariant of Safety.lean holds right after reset, for every configuration. -/
def Obligations.ResetMeetsInvariant : Prop := ∀ cfg : Config, (State.afterReset cfg).Inv

/-- R31, R24, R26, R32: every step keeps the invariant of Safety.lean: PEND and BUSY agree, the internal state is fresh
between steps, STATUS is legal, an error clears the lengths, both lengths fit, and the buffers are canonical. -/
def Obligations.EveryStepKeepsInvariant : Prop :=
  ∀ s t : State, s.Inv → step s = .next t → t.Inv
end

