-- ==== Sys2Proof/Laws/Memory.lean ====
section
/-! SUPPORT. The laws of a buffer: read after write, the bytes a list holds, and that every operation keeps the
canonical form. -/

namespace Sys2Proof.Machine

/-! ## Reading -/

@[simp] theorem Memory.read_nil (a : Nat) : Memory.read [] a = none := rfl

/-- A write gives the value written there and leaves every other index alone. -/
theorem Memory.read_write (m : Memory) (a b : Nat) (v : Byte) :
    Memory.read (Memory.write m a v) b = if b = a then some v else Memory.read m b := by
  induction m with
  | nil => simp [Memory.write, Memory.read]
  | cons c m ih =>
    obtain ⟨k, x⟩ := c
    by_cases h1 : a < k
    · simp only [Memory.write, if_pos h1, Memory.read]
    · by_cases h2 : a = k
      · subst h2
        simp only [Memory.write, if_neg h1, if_true, Memory.read]
        split_ifs <;> rfl
      · simp only [Memory.write, if_neg h1, if_neg h2, Memory.read, ih]
        by_cases hb : b = a
        · subst hb; simp [h2]
        · simp [hb]

/-- The list of given bytes holds exactly those. -/
theorem Memory.read_ofBytes (bs : List Byte) (lo a : Nat) :
    Memory.read (Memory.ofBytes lo bs) a = if lo ≤ a then bs[a - lo]? else none := by
  induction bs generalizing lo with
  | nil => simp [Memory.ofBytes]
  | cons b bs ih =>
    simp only [Memory.ofBytes, Memory.read, ih]
    by_cases h : a = lo
    · subst h; simp
    · by_cases h2 : lo + 1 ≤ a
      · have h3 : a - lo = (a - (lo + 1)) + 1 := by omega
        simp [h, h2, h3, show lo ≤ a by omega]
      · simp [h, h2, show ¬ lo ≤ a by omega]

/-- After a write of bytes at an index, the indexes written that lie in the buffer hold them, and the rest is as
before. -/
theorem read_writeBytes (size : Nat) (bs : List Byte) (m : Memory) (i a : Nat) :
    Memory.read (writeBytes size m i bs) a =
      if i ≤ a ∧ a < i + bs.length ∧ a < size then bs[a - i]? else Memory.read m a := by
  induction bs generalizing m i with
  | nil => simp only [writeBytes, List.length_nil]; rw [if_neg (by omega)]
  | cons b bs ih =>
    simp only [writeBytes, ih, List.length_cons]
    by_cases h : a = i
    · subst h
      by_cases hs : a < size
      · simp [hs, Memory.read_write]
      · simp [hs]
    · have hw : Memory.read (if i < size then Memory.write m i b else m) a = Memory.read m a := by
        split_ifs <;> simp [Memory.read_write, h]
      rw [hw]
      by_cases h2 : i + 1 ≤ a ∧ a < i + 1 + bs.length ∧ a < size
      · have h3 : a - i = (a - (i + 1)) + 1 := by omega
        rw [if_pos h2, if_pos (by omega), h3, List.getElem?_cons_succ]
      · rw [if_neg h2, if_neg (by omega)]

/-! ## The canonical form -/

theorem Memory.wfFrom_mono {limit lo lo' : Nat} {m : Memory} (h : Memory.wfFrom limit lo m = true) (hl : lo' ≤ lo) :
    Memory.wfFrom limit lo' m = true := by
  cases m with
  | nil => rfl
  | cons c m =>
    simp only [Memory.wfFrom, Bool.and_eq_true, decide_eq_true_eq] at h ⊢
    exact ⟨⟨by omega, h.1.2⟩, h.2⟩

theorem Memory.wfFrom_write {limit lo : Nat} {m : Memory} {a : Nat} (v : Byte)
    (h : Memory.wfFrom limit lo m = true) (hlo : lo ≤ a) (ha : a < limit) :
    Memory.wfFrom limit lo (Memory.write m a v) = true := by
  induction m generalizing lo with
  | nil => simp [Memory.write, Memory.wfFrom, hlo, ha]
  | cons c m ih =>
    obtain ⟨k, x⟩ := c
    simp only [Memory.wfFrom, Bool.and_eq_true, decide_eq_true_eq] at h
    unfold Memory.write
    split_ifs with h1 h2
    · simp only [Memory.wfFrom, Bool.and_eq_true, decide_eq_true_eq]
      exact ⟨⟨hlo, ha⟩, ⟨by omega, h.1.2⟩, h.2⟩
    · subst h2
      simpa only [Memory.wfFrom, Bool.and_eq_true, decide_eq_true_eq] using h
    · simp only [Memory.wfFrom, Bool.and_eq_true, decide_eq_true_eq]
      exact ⟨h.1, ih h.2 (by omega)⟩

theorem Memory.wf_nil (size : Nat) : Memory.wf size [] = true := rfl

/-- A write inside the buffer keeps the canonical form. -/
theorem Memory.wf_write {size : Nat} {m : Memory} {a : Nat} (v : Byte) (h : Memory.wf size m = true) (ha : a < size) :
    Memory.wf size (Memory.write m a v) = true := Memory.wfFrom_write v h (Nat.zero_le a) ha

/-- The list of given bytes is in canonical form where it fits. -/
theorem Memory.wfFrom_ofBytes (bs : List Byte) {limit lo : Nat} (h : lo + bs.length ≤ limit) :
    Memory.wfFrom limit lo (Memory.ofBytes lo bs) = true := by
  induction bs generalizing lo with
  | nil => rfl
  | cons b bs ih =>
    simp only [List.length_cons] at h
    simp only [Memory.ofBytes, Memory.wfFrom, Bool.and_eq_true, decide_eq_true_eq]
    exact ⟨⟨le_refl lo, by omega⟩, ih (by omega)⟩

theorem Memory.wf_ofBytes (bs : List Byte) {size : Nat} (h : bs.length ≤ size) :
    Memory.wf size (Memory.ofBytes 0 bs) = true := Memory.wfFrom_ofBytes bs (by omega)

/-- A host write keeps the canonical form of IBUF. -/
theorem wf_writeBytes {size : Nat} (bs : List Byte) {m : Memory} (i : Nat) (h : Memory.wf size m = true) :
    Memory.wf size (writeBytes size m i bs) = true := by
  induction bs generalizing m i with
  | nil => exact h
  | cons b bs ih =>
    apply ih
    split_ifs with hi
    · exact Memory.wf_write b h hi
    · exact h

/-- In canonical form nothing is listed below the lower bound. -/
theorem Memory.read_of_lt {limit lo a : Nat} {m : Memory} (h : Memory.wfFrom limit lo m = true) (ha : a < lo) :
    Memory.read m a = none := by
  induction m generalizing lo with
  | nil => rfl
  | cons c m ih =>
    obtain ⟨k, x⟩ := c
    simp only [Memory.wfFrom, Bool.and_eq_true, decide_eq_true_eq] at h
    simp only [Memory.read]
    rw [if_neg (by omega)]
    exact ih h.2 (by omega)

/-- Two buffers in canonical form that list the same bytes are equal data. -/
theorem Memory.ext_of_wf {limit lo : Nat} {m m' : Memory} (h : Memory.wfFrom limit lo m = true)
    (h' : Memory.wfFrom limit lo m' = true) (heq : ∀ a, Memory.read m a = Memory.read m' a) : m = m' := by
  induction m generalizing lo m' with
  | nil =>
    cases m' with
    | nil => rfl
    | cons c' m' => have := heq c'.1; simp [Memory.read] at this
  | cons c m ih =>
    obtain ⟨k, x⟩ := c
    cases m' with
    | nil => have := heq k; simp [Memory.read] at this
    | cons c' m' =>
      obtain ⟨k', x'⟩ := c'
      simp only [Memory.wfFrom, Bool.and_eq_true, decide_eq_true_eq] at h h'
      have hk : k = k' := by
        rcases Nat.lt_trichotomy k k' with hlt | hkk | hgt
        · have := heq k
          simp only [Memory.read, if_true, if_neg (show ¬ k = k' by omega),
            Memory.read_of_lt h'.2 (show k < k' + 1 by omega)] at this
          simp at this
        · exact hkk
        · have := heq k'
          simp only [Memory.read, if_true, if_neg (show ¬ k' = k by omega),
            Memory.read_of_lt h.2 (show k' < k + 1 by omega)] at this
          simp at this
      subst hk
      have hx : x = x' := by simpa [Memory.read] using heq k
      subst hx
      refine congrArg _ (ih h.2 h'.2 fun a => ?_)
      by_cases ha : a = k
      · subst ha
        rw [Memory.read_of_lt h.2 (Nat.lt_succ_self a), Memory.read_of_lt h'.2 (Nat.lt_succ_self a)]
      · simpa [Memory.read, ha] using heq a

end Sys2Proof.Machine
end

