-- ==== Sys2Proof/Laws/State.lean ====
section
/-! SUPPORT. One lemma per field for each update of the state: what a field reads after it. -/

namespace Sys2Proof.Machine

variable (s : State) (r : CmdResult) (e : ErrKind) (p : Nat) (v : Word) (u : Port) (w : FdWord)

/-! ## Committing a result -/

@[simp] theorem State.commit_cfg : (s.commit r).cfg = s.cfg := rfl
@[simp] theorem State.commit_status : (s.commit r).status = r.status := rfl
@[simp] theorem State.commit_inLen : (s.commit r).inLen = s.inLen := rfl
@[simp] theorem State.commit_outLen : (s.commit r).outLen = BitVec.ofNat 16 r.outLen := rfl
@[simp] theorem State.commit_hdrLen : (s.commit r).hdrLen = BitVec.ofNat 16 r.hdrLen := rfl
@[simp] theorem State.commit_idw0 : (s.commit r).idw0 = r.idw0 s.idw0 := rfl
@[simp] theorem State.commit_idw1 : (s.commit r).idw1 = r.idw1 s.idw1 := rfl
@[simp] theorem State.commit_pend : (s.commit r).pend = none := rfl
@[simp] theorem State.commit_ibuf : (s.commit r).ibuf = s.ibuf := rfl
@[simp] theorem State.commit_obuf : (s.commit r).obuf = r.obufEffect.memory s.obuf := rfl
@[simp] theorem State.commit_walk : (s.commit r).walk = Walk.fresh := rfl
@[simp] theorem State.commit_ibufDraw : (s.commit r).ibufDraw = s.ibufDraw := rfl
@[simp] theorem State.commit_obufDraw : (s.commit r).obufDraw = if r.obufEffect.redraws then s.draws else s.obufDraw := rfl
@[simp] theorem State.commit_draws : (s.commit r).draws = if r.obufEffect.redraws then s.draws + 1 else s.draws := rfl
@[simp] theorem State.commit_inputs : (s.commit r).inputs = s.inputs := rfl
@[simp] theorem State.commit_rdata : (s.commit r).rdata = s.rdata := rfl

/-! ## Raising an error -/

@[simp] theorem State.raise_cfg : (s.raise e p).cfg = s.cfg := rfl
@[simp] theorem State.raise_status : (s.raise e p).status = Status.finished false e s.frameTag (BitVec.ofNat 8 p) := rfl
@[simp] theorem State.raise_inLen : (s.raise e p).inLen = s.inLen := rfl
@[simp] theorem State.raise_outLen : (s.raise e p).outLen = 0 := rfl
@[simp] theorem State.raise_hdrLen : (s.raise e p).hdrLen = 0 := rfl
@[simp] theorem State.raise_idw0 : (s.raise e p).idw0 = s.idw0 := rfl
@[simp] theorem State.raise_idw1 : (s.raise e p).idw1 = s.idw1 := rfl
@[simp] theorem State.raise_pend : (s.raise e p).pend = none := rfl
@[simp] theorem State.raise_ibuf : (s.raise e p).ibuf = s.ibuf := rfl
@[simp] theorem State.raise_obuf : (s.raise e p).obuf = [] := rfl
@[simp] theorem State.raise_walk : (s.raise e p).walk = Walk.fresh := rfl
@[simp] theorem State.raise_ibufDraw : (s.raise e p).ibufDraw = s.ibufDraw := rfl
@[simp] theorem State.raise_obufDraw : (s.raise e p).obufDraw = s.draws := rfl
@[simp] theorem State.raise_draws : (s.raise e p).draws = s.draws + 1 := rfl
@[simp] theorem State.raise_inputs : (s.raise e p).inputs = s.inputs := rfl
@[simp] theorem State.raise_rdata : (s.raise e p).rdata = s.rdata := rfl

/-! ## Starting a command -/

@[simp] theorem State.startCommand_cfg : (s.startCommand v).cfg = s.cfg := rfl
@[simp] theorem State.startCommand_status : (s.startCommand v).status = Status.started := rfl
@[simp] theorem State.startCommand_inLen : (s.startCommand v).inLen = s.inLen := rfl
@[simp] theorem State.startCommand_outLen : (s.startCommand v).outLen = s.outLen := rfl
@[simp] theorem State.startCommand_hdrLen : (s.startCommand v).hdrLen = s.hdrLen := rfl
@[simp] theorem State.startCommand_idw0 : (s.startCommand v).idw0 = s.idw0 := rfl
@[simp] theorem State.startCommand_idw1 : (s.startCommand v).idw1 = s.idw1 := rfl
@[simp] theorem State.startCommand_pend : (s.startCommand v).pend = some v := rfl
@[simp] theorem State.startCommand_ibuf : (s.startCommand v).ibuf = s.ibuf := rfl
@[simp] theorem State.startCommand_obuf : (s.startCommand v).obuf = s.obuf := rfl
@[simp] theorem State.startCommand_walk : (s.startCommand v).walk = s.walk := rfl
@[simp] theorem State.startCommand_ibufDraw : (s.startCommand v).ibufDraw = s.ibufDraw := rfl
@[simp] theorem State.startCommand_obufDraw : (s.startCommand v).obufDraw = s.obufDraw := rfl
@[simp] theorem State.startCommand_draws : (s.startCommand v).draws = s.draws := rfl
@[simp] theorem State.startCommand_inputs : (s.startCommand v).inputs = s.inputs := rfl
@[simp] theorem State.startCommand_rdata : (s.startCommand v).rdata = s.rdata := rfl

/-! ## The reset input -/

@[simp] theorem State.resetInput_cfg : (s.resetInput).cfg = s.cfg := rfl
@[simp] theorem State.resetInput_status : (s.resetInput).status = Status.zero := rfl
@[simp] theorem State.resetInput_inLen : (s.resetInput).inLen = 0 := rfl
@[simp] theorem State.resetInput_outLen : (s.resetInput).outLen = 0 := rfl
@[simp] theorem State.resetInput_hdrLen : (s.resetInput).hdrLen = 0 := rfl
@[simp] theorem State.resetInput_idw0 : (s.resetInput).idw0 = 0 := rfl
@[simp] theorem State.resetInput_idw1 : (s.resetInput).idw1 = 0 := rfl
@[simp] theorem State.resetInput_pend : (s.resetInput).pend = none := rfl
@[simp] theorem State.resetInput_ibuf : (s.resetInput).ibuf = [] := rfl
@[simp] theorem State.resetInput_obuf : (s.resetInput).obuf = [] := rfl
@[simp] theorem State.resetInput_walk : (s.resetInput).walk = Walk.fresh := rfl
@[simp] theorem State.resetInput_ibufDraw : (s.resetInput).ibufDraw = s.draws := rfl
@[simp] theorem State.resetInput_obufDraw : (s.resetInput).obufDraw = s.draws + 1 := rfl
@[simp] theorem State.resetInput_draws : (s.resetInput).draws = s.draws + 2 := rfl
@[simp] theorem State.resetInput_inputs : (s.resetInput).inputs = s.inputs := rfl
@[simp] theorem State.resetInput_rdata : (s.resetInput).rdata = s.rdata := rfl

/-! ## A latched command -/

@[simp] theorem State.withCommand_cfg : (s.withCommand v).cfg = s.cfg := rfl
@[simp] theorem State.withCommand_status : (s.withCommand v).status = Status.started := rfl
@[simp] theorem State.withCommand_inLen : (s.withCommand v).inLen = s.inLen := rfl
@[simp] theorem State.withCommand_outLen : (s.withCommand v).outLen = s.outLen := rfl
@[simp] theorem State.withCommand_hdrLen : (s.withCommand v).hdrLen = s.hdrLen := rfl
@[simp] theorem State.withCommand_idw0 : (s.withCommand v).idw0 = s.idw0 := rfl
@[simp] theorem State.withCommand_idw1 : (s.withCommand v).idw1 = s.idw1 := rfl
@[simp] theorem State.withCommand_pend : (s.withCommand v).pend = some v := rfl
@[simp] theorem State.withCommand_ibuf : (s.withCommand v).ibuf = s.ibuf := rfl
@[simp] theorem State.withCommand_obuf : (s.withCommand v).obuf = s.obuf := rfl
@[simp] theorem State.withCommand_walk : (s.withCommand v).walk = { s.walk with mux := none } := rfl
@[simp] theorem State.withCommand_ibufDraw : (s.withCommand v).ibufDraw = s.ibufDraw := rfl
@[simp] theorem State.withCommand_obufDraw : (s.withCommand v).obufDraw = s.obufDraw := rfl
@[simp] theorem State.withCommand_draws : (s.withCommand v).draws = s.draws := rfl
@[simp] theorem State.withCommand_inputs : (s.withCommand v).inputs = .engine :: s.inputs := rfl
@[simp] theorem State.withCommand_rdata : (s.withCommand v).rdata = s.rdata := rfl

/-! ## A presented descriptor -/

@[simp] theorem State.withDescriptor_cfg : (s.withDescriptor u w).cfg = s.cfg := rfl
@[simp] theorem State.withDescriptor_status : (s.withDescriptor u w).status = s.status := rfl
@[simp] theorem State.withDescriptor_inLen : (s.withDescriptor u w).inLen = s.inLen := rfl
@[simp] theorem State.withDescriptor_outLen : (s.withDescriptor u w).outLen = s.outLen := rfl
@[simp] theorem State.withDescriptor_hdrLen : (s.withDescriptor u w).hdrLen = s.hdrLen := rfl
@[simp] theorem State.withDescriptor_idw0 : (s.withDescriptor u w).idw0 = s.idw0 := rfl
@[simp] theorem State.withDescriptor_idw1 : (s.withDescriptor u w).idw1 = s.idw1 := rfl
@[simp] theorem State.withDescriptor_pend : (s.withDescriptor u w).pend = s.pend := rfl
@[simp] theorem State.withDescriptor_ibuf : (s.withDescriptor u w).ibuf = s.ibuf := rfl
@[simp] theorem State.withDescriptor_obuf : (s.withDescriptor u w).obuf = s.obuf := rfl
@[simp] theorem State.withDescriptor_walk : (s.withDescriptor u w).walk = { s.walk with mux := some (u, w), j := tablePosition w s.walk.j } := rfl
@[simp] theorem State.withDescriptor_ibufDraw : (s.withDescriptor u w).ibufDraw = s.ibufDraw := rfl
@[simp] theorem State.withDescriptor_obufDraw : (s.withDescriptor u w).obufDraw = s.obufDraw := rfl
@[simp] theorem State.withDescriptor_draws : (s.withDescriptor u w).draws = s.draws := rfl
@[simp] theorem State.withDescriptor_inputs : (s.withDescriptor u w).inputs = s.inputs := rfl
@[simp] theorem State.withDescriptor_rdata : (s.withDescriptor u w).rdata = s.rdata := rfl

end Sys2Proof.Machine
end

