-- ==== Sys2Proof/Laws/Ops.lean ====
section
/-! SUPPORT. One lemma for each shared operation that says once everything it can do: the Header Context, the input
of a command, OBUF after a commit, one operation of each field unit, a host access. -/

namespace Sys2Proof.Machine

/-! ## The Header Context -/

theorem HeaderContext.get_set (hc : HeaderContext) (p q : Nat) (v : Word) :
    (hc.set p v).get q = if q = p ∧ p < 18 then v else hc.get q := by
  simp only [HeaderContext.get, HeaderContext.set, Vector.getElem?_setIfInBounds]
  by_cases h : p = q
  · subst h
    by_cases h18 : p < 18 <;> simp [h18]
  · simp [h, show ¬ q = p from fun e => h e.symm]

@[simp] theorem HeaderContext.get_zero (p : Nat) : HeaderContext.zero.get p = 0 := by
  simp only [HeaderContext.get, HeaderContext.zero, Vector.getElem?_replicate]
  split_ifs <;> rfl

/-! ## The input of a command -/

@[simp] theorem State.length_input (s : State) : s.input.length = s.frameLen := by simp [State.input]

theorem State.getElem?_input (s : State) (i : Nat) :
    s.input[i]? = if i < s.frameLen then some (s.ibufByte i) else none := by
  simp only [State.input, List.getElem?_map]
  split_ifs with h <;> simp [h]

theorem State.withInput_of_le {s : State} (f : List Byte → CmdResult) (h : s.frameLen ≤ s.cfg.bufBytes) :
    s.withInput f = f s.input := by simp [State.withInput, Nat.not_lt.mpr h]

theorem State.withInput_of_lt {s : State} (f : List Byte → CmdResult) (h : s.cfg.bufBytes < s.frameLen) :
    s.withInput f = .lengthErr := by simp [State.withInput, h]

/-! ## Buffers after an update -/

@[simp] theorem State.ibufByte_commit (s : State) (r : CmdResult) (i : Nat) :
    (s.commit r).ibufByte i = s.ibufByte i := rfl

@[simp] theorem State.ibufByte_raise (s : State) (e : ErrKind) (p i : Nat) :
    (s.raise e p).ibufByte i = s.ibufByte i := rfl

/-- A result that writes no OBUF leaves every byte of it. -/
theorem State.obufByte_commit_keep {s : State} {r : CmdResult} (h : r.obufEffect = .keep) (i : Nat) :
    (s.commit r).obufByte i = s.obufByte i := by
  simp [State.obufByte, h, ObufEffect.memory, ObufEffect.redraws]

/-- A result that writes `out` leaves it at OBUF[0..|out|-1]. -/
theorem State.obufByte_commit_write {s : State} {r : CmdResult} {out : List Byte} (h : r.obufEffect = .write out)
    {i : Nat} {b : Byte} (hi : out[i]? = some b) : (s.commit r).obufByte i = b := by
  simp [State.obufByte, h, ObufEffect.memory, Memory.read_ofBytes, hi]

/-! ## One operation of a field unit -/

theorem State.laneStep_of_lt {s : State} (accept : Word → Bool) (h : s.walk.j < 18) :
    s.laneStep accept = .next { s with walk := { s.walk with
      acc := s.walk.acc && accept (s.walk.hc.get s.walk.j), j := s.walk.j + 1, mux := none } } := by
  simp [State.laneStep, h]

theorem State.emitStep_of_lt {s : State} (emit : Nat → Word → List Byte) (h : s.walk.j < 18) :
    s.emitStep emit = .next { s with walk := { s.walk with
      out := s.walk.out ++ emit s.walk.j (s.walk.hc.get s.walk.j), j := s.walk.j + 1, mux := none } } := by
  simp [State.emitStep, h]

theorem State.fieldStep_value {s : State} {field : Nat → List Byte → Nat → FieldResult} {v : Word} {off : Nat}
    (h : s.walk.j < 18) (hf : field s.walk.j s.input s.walk.off = .value v off) :
    s.fieldStep field = .next { s with walk := { s.walk with
      hc := s.walk.hc.set s.walk.j v, off := off, j := s.walk.j + 1, mux := none } } := by
  simp [State.fieldStep, h, hf]

theorem State.fieldStep_raised {s : State} {field : Nat → List Byte → Nat → FieldResult} {e : ErrKind}
    (h : s.walk.j < 18) (hf : field s.walk.j s.input s.walk.off = .raised e) :
    s.fieldStep field = .next (s.raise e s.walk.j) := by
  simp [State.fieldStep, h, hf]

/-- A lane's or the encoder's step changes the internal state alone; a decoder's step does that or raises. -/
theorem State.laneStep_next {s t : State} {accept : Word → Bool} (h : s.laneStep accept = .next t) :
    ∃ w : Walk, w.mux = none ∧ t = { s with walk := w } := by
  simp only [State.laneStep] at h
  split_ifs at h
  exact ⟨_, rfl, (Host.Outcome.next.inj h).symm⟩

theorem State.emitStep_next {s t : State} {emit : Nat → Word → List Byte} (h : s.emitStep emit = .next t) :
    ∃ w : Walk, w.mux = none ∧ t = { s with walk := w } := by
  simp only [State.emitStep] at h
  split_ifs at h
  exact ⟨_, rfl, (Host.Outcome.next.inj h).symm⟩

theorem State.fieldStep_next {s t : State} {field : Nat → List Byte → Nat → FieldResult}
    (h : s.fieldStep field = .next t) :
    (∃ w : Walk, w.mux = none ∧ t = { s with walk := w }) ∨
      ∃ e, field s.walk.j s.input s.walk.off = .raised e ∧ t = s.raise e s.walk.j := by
  simp only [State.fieldStep] at h
  split_ifs at h
  split at h
  · exact .inl ⟨_, rfl, (Host.Outcome.next.inj h).symm⟩
  · rename_i e he
    exact .inr ⟨e, he, (Host.Outcome.next.inj h).symm⟩

/-! ## Host accesses -/

/-- A host read changes the read value, and the draw counter where it takes a free value. -/
theorem State.hostRead_next {s t : State} {a : BitVec 18} {n : Nat} (h : s.hostRead a n = .next t) :
    accessLegal a n = true ∧
    ((s.status.busy && unspecifiedWhileBusy a) = false ∧ t = { s with rdata := s.readValue a n } ∨
     (s.status.busy && unspecifiedWhileBusy a) = true ∧
       t = { s with rdata := lowBytes (Config.freeWord s.draws) n, draws := s.draws + 1 }) := by
  simp only [State.hostRead] at h
  split_ifs at h with h1 h2
  · exact ⟨by simpa using h1, .inr ⟨h2, (Host.Outcome.next.inj h).symm⟩⟩
  · exact ⟨by simpa using h1, .inl ⟨by simpa using h2, (Host.Outcome.next.inj h).symm⟩⟩

/-- A host write starts a command, sets IN_LEN, writes IBUF, or is ignored; the first two only while BUSY = 0, and
so an IBUF write that reaches the buffer. -/
theorem State.hostWrite_next {s t : State} {a : BitVec 18} {n : Nat} {v : Word} (h : s.hostWrite a n v = .next t) :
    accessLegal a n = true ∧
    (s.status.busy = false ∧ windowOf a = .reg ∧ windowOffset a = 0 ∧ t = s.startCommand v ∨
     s.status.busy = false ∧ windowOf a = .reg ∧ windowOffset a = 8 ∧ t = { s with inLen := v.setWidth 16 } ∨
     (s.status.busy && decide (windowOffset a < s.cfg.bufBytes)) = false ∧ windowOf a = .ibuf ∧
       t = { s with ibuf := writeBytes s.cfg.bufBytes s.ibuf (windowOffset a) (toLE v.toNat n) } ∨
     t = s) := by
  simp only [State.hostWrite] at h
  split_ifs at h with h1
  refine ⟨by simpa using h1, ?_⟩
  split at h
  · rename_i hw
    simp only [State.writeReg] at h
    split_ifs at h with h2 h3 h4 h5
    · exact .inl ⟨by simpa using h3, hw, h2, (Host.Outcome.next.inj h).symm⟩
    · exact .inr (.inl ⟨by simpa using h5, hw, h4, (Host.Outcome.next.inj h).symm⟩)
    · exact .inr (.inr (.inr (Host.Outcome.next.inj h).symm))
  · rename_i hw
    simp only [State.writeIbuf] at h
    split_ifs at h with h2
    exact .inr (.inr (.inl ⟨by simpa using h2, hw, (Host.Outcome.next.inj h).symm⟩))
  · exact .inr (.inr (.inr (Host.Outcome.next.inj h).symm))
  · exact .inr (.inr (.inr (Host.Outcome.next.inj h).symm))

end Sys2Proof.Machine
end

