-- ==== Sys2Proof/Laws/Encoding.lean ====
section
/-! SUPPORT. The laws of the byte-order helpers and of the matchOp and action codes. -/

namespace Sys2Proof

/-! ## Byte order -/

@[simp] theorem length_toLE (v k : Nat) : (toLE v k).length = k := by
  induction k generalizing v with
  | zero => rfl
  | succ k ih => simp [toLE, ih]

@[simp] theorem length_toBE (v k : Nat) : (toBE v k).length = k := by simp [toBE]

/-- Reading back k bytes of a number gives it modulo 256^k. -/
theorem leNat_toLE (v k : Nat) : leNat (toLE v k) = v % 256 ^ k := by
  induction k generalizing v with
  | zero => simp [toLE, leNat, Nat.mod_one]
  | succ k ih =>
    simp only [toLE, leNat, ih, BitVec.toNat_ofNat, pow_succ]
    have : v % (256 ^ k * 256) = v % 256 + 256 * (v / 256 % 256 ^ k) := by rw [Nat.mul_comm, Nat.mod_mul]
    omega

theorem beNat_toBE (v k : Nat) : beNat (toBE v k) = v % 256 ^ k := by
  simp only [beNat, toBE, List.reverse_reverse, leNat_toLE]

/-- The number of k bytes is below 256^k. -/
theorem leNat_lt (bs : List Byte) : leNat bs < 256 ^ bs.length := by
  induction bs with
  | nil => simp [leNat]
  | cons b bs ih => simp only [leNat, List.length_cons, pow_succ]; have := b.isLt; omega

/-- Laying out the number of some bytes gives them back. -/
theorem toLE_leNat (bs : List Byte) : toLE (leNat bs) bs.length = bs := by
  induction bs with
  | nil => rfl
  | cons b bs ih =>
    have hb := b.isLt
    simp only [leNat, List.length_cons, toLE]
    have h1 : (b.toNat + 256 * leNat bs) / 256 = leNat bs := by omega
    rw [h1, ih]
    congr 1
    apply BitVec.eq_of_toNat_eq
    simp only [BitVec.toNat_ofNat]
    omega

/-- Byte i of a number laid out little-endian. -/
theorem getElem?_toLE (v k i : Nat) :
    (toLE v k)[i]? = if i < k then some (BitVec.ofNat 8 (v / 256 ^ i)) else none := by
  induction k generalizing v i with
  | zero => simp [toLE]
  | succ k ih =>
    cases i with
    | zero => simp [toLE]
    | succ i =>
      simp only [toLE, List.getElem?_cons_succ, ih, Nat.div_div_eq_div_mul, pow_succ, Nat.mul_comm 256,
        Nat.add_lt_add_iff_right]

/-! ## Codes -/

theorem MatchOp.ofCode_eq_some (c : BitVec 2) (mo : MatchOp) : MatchOp.ofCode c = some mo ↔ c = mo.code := by
  cases mo <;> revert c <;> decide

theorem MatchOp.ofCode_eq_none (c : BitVec 2) : MatchOp.ofCode c = none ↔ 2 < c.toNat := by revert c; decide

theorem Action.ofCode_eq_some (c : BitVec 3) (a : Action) : Action.ofCode c = some a ↔ c = a.code := by
  cases a <;> revert c <;> decide

theorem Action.ofCode_eq_none (c : BitVec 3) : Action.ofCode c = none ↔ 5 < c.toNat := by revert c; decide

end Sys2Proof
end

