-- ==== Sys2Proof/Laws/Words.lean ====
section
/-! SUPPORT. The laws of words, fields and masks as numbers: concatenation, slices, the descriptor word, the byte words
and the operands of spec/30_encoding.md R53. -/

namespace Sys2Proof

theorem toNat_append {m n : Nat} (a : BitVec m) (b : BitVec n) : (a ++ b).toNat = a.toNat * 2 ^ n + b.toNat := by
  rw [BitVec.toNat_append, ← Nat.shiftLeft_add_eq_or_of_lt (BitVec.isLt _), Nat.shiftLeft_eq]

theorem toNat_extract {w : Nat} (v : BitVec w) (s n : Nat) : (v.extractLsb' s n).toNat = v.toNat / 2 ^ s % 2 ^ n := by
  simp [BitVec.extractLsb'_toNat, Nat.shiftRight_eq_div_pow]

/-- A descriptor's word as a number (R52, R65). -/
theorem Descriptor.toNat_word (d : Descriptor) : d.word.toNat =
    d.tv.toNat + 2 ^ 32 * d.bl.toNat + 2 ^ 38 * d.msb.toNat + 2 ^ 44 * d.mo.code.toNat + 2 ^ 46 * d.act.code.toNat := by
  simp only [Descriptor.word, toNat_append]
  simp only [BitVec.ofNat_eq_ofNat, BitVec.toNat_ofNat]
  omega

/-- A descriptor that keeps WF3 and WF4 is read back from its word. -/
theorem decodeFd_word {d : Descriptor} (h3 : d.wf3 = true) (h4 : d.wf4 = true) : decodeFd d.word = .ok d := by
  obtain ⟨tv, bl, msb, mo, act⟩ := d
  simp only [Descriptor.wf3, Descriptor.wf4, decide_eq_true_eq] at h3 h4
  have hw := Descriptor.toNat_word ⟨tv, bl, msb, mo, act⟩
  simp only at hw
  generalize hx : (Descriptor.mk tv bl msb mo act).word = x at hw
  have b1 := tv.isLt
  have b2 := bl.isLt
  have b3 := msb.isLt
  have b4 := mo.code.isLt
  have b5 := act.code.isLt
  have e0 : FdWord.rsv x = 0 := by apply BitVec.eq_of_toNat_eq; rw [FdWord.rsv, toNat_extract, hw]; simp; omega
  have e1 : FdWord.tv x = tv := by apply BitVec.eq_of_toNat_eq; rw [FdWord.tv, toNat_extract, hw]; omega
  have e2 : FdWord.bl x = bl := by apply BitVec.eq_of_toNat_eq; rw [FdWord.bl, toNat_extract, hw]; omega
  have e3 : FdWord.msb x = msb := by apply BitVec.eq_of_toNat_eq; rw [FdWord.msb, toNat_extract, hw]; omega
  have e4 : FdWord.mo x = mo.code := by apply BitVec.eq_of_toNat_eq; rw [FdWord.mo, toNat_extract, hw]; omega
  have e5 : FdWord.act x = act.code := by apply BitVec.eq_of_toNat_eq; rw [FdWord.act, toNat_extract, hw]; omega
  unfold decodeFd
  rw [e0, e1, e2, e3, e4, e5, (MatchOp.ofCode_eq_some _ _).2 rfl, (Action.ofCode_eq_some _ _).2 rfl, if_neg (by simp),
    if_neg (by omega), if_neg (by omega)]

/-- A decoded descriptor keeps WF3 and WF4, and its word is the one it was read from. -/
theorem decodeFd_ok {w : FdWord} {d : Descriptor} (h : decodeFd w = .ok d) :
    d.word = w ∧ d.wf3 = true ∧ d.wf4 = true := by
  unfold decodeFd at h
  split_ifs at h with h0 h1 h2
  split at h
  · cases h
  · rename_i mo hm
    split at h
    · cases h
    · rename_i act ha
      cases h
      refine ⟨?_, by simp [Descriptor.wf3]; omega, by simp [Descriptor.wf4]; omega⟩
      have em := congrArg BitVec.toNat ((MatchOp.ofCode_eq_some _ _).1 hm)
      have ea := congrArg BitVec.toNat ((Action.ofCode_eq_some _ _).1 ha)
      have e0 : (FdWord.rsv w).toNat = 0 := by rw [not_not.1 h0]; rfl
      have hlt := w.isLt
      apply BitVec.eq_of_toNat_eq
      rw [Descriptor.toNat_word]
      simp only [FdWord.tv, FdWord.bl, FdWord.msb, FdWord.mo, FdWord.act, FdWord.rsv, toNat_extract] at *
      omega

/-! ## Sequences of bytes as numbers -/

/-- The number of bytes f 0, …, f (n-1), the first least significant. -/
theorem leNat_map (f : Nat → Byte) (n : Nat) :
    leNat ((List.range n).map f) = ((List.range n).map fun i => (f i).toNat * 256 ^ i).sum := by
  induction n generalizing f with
  | zero => rfl
  | succ n ih =>
    rw [List.range_succ_eq_map]
    simp only [List.map_cons, List.map_map, leNat, List.sum_cons]
    rw [ih (f ∘ Nat.succ), ← List.sum_map_mul_left]
    simp only [Function.comp_def, pow_succ, Nat.succ_eq_add_one, pow_zero, mul_one]
    congr 2
    apply List.map_congr_left
    intros
    ring

/-- Bit i of the number of bytes f 0, …, f (n-1), the first least significant. -/
theorem testBit_leNat_map (f : Nat → Byte) (n i : Nat) :
    (leNat ((List.range n).map f)).testBit i = (decide (i < 8 * n) && (f (i / 8)).getLsbD (i % 8)) := by
  induction n generalizing f i with
  | zero => simp [leNat]
  | succ n ih =>
    rw [List.range_succ_eq_map]
    simp only [List.map_cons, List.map_map, leNat]
    rw [Nat.add_comm, show 256 = 2 ^ 8 by rfl, Nat.testBit_two_pow_mul_add _ (f 0).isLt]
    split_ifs with h
    · simp [show i / 8 = 0 by omega, show i % 8 = i by omega, BitVec.getLsbD]
      omega
    · rw [ih]
      simp [show (i - 8) / 8 + 1 = i / 8 by omega, show (i - 8) % 8 = i % 8 by omega,
        show (i - 8 < 8 * n) ↔ (i < 8 * (n + 1)) by omega]

theorem leNat_lt_word {l : List Byte} (h : l.length ≤ 4) : leNat l < 2 ^ 32 :=
  calc leNat l < 256 ^ l.length := leNat_lt l
    _ ≤ 256 ^ 4 := Nat.pow_le_pow_right (by norm_num) h
    _ = 2 ^ 32 := by norm_num

namespace Machine

/-- At most 4 bytes laid out from a word give it back modulo their bits. -/
theorem toNat_leWord_toLE (v : Word) (k : Nat) : (leWord (toLE v.toNat k)).toNat = v.toNat % 2 ^ (8 * k) := by
  rw [leWord, BitVec.toNat_ofNat, leNat_toLE, Nat.mod_eq_of_lt, Nat.pow_mul]
  exact lt_of_le_of_lt (Nat.mod_le _ _) v.isLt

theorem toNat_beWord_toBE (v : Word) (k : Nat) : (beWord (toBE v.toNat k)).toNat = v.toNat % 2 ^ (8 * k) := by
  rw [beWord, BitVec.toNat_ofNat, beNat_toBE, Nat.mod_eq_of_lt, Nat.pow_mul]
  exact lt_of_le_of_lt (Nat.mod_le _ _) v.isLt

/-- The word of at most 4 bytes lays out as those bytes. -/
theorem toLE_leWord {bs : List Byte} (h : bs.length ≤ 4) : toLE (leWord bs).toNat bs.length = bs := by
  rw [leWord, BitVec.toNat_ofNat, Nat.mod_eq_of_lt (leNat_lt_word h), toLE_leNat]

/-- mmask has exactly the top msbBitLength bits of a bitLength-bit field (R53). -/
theorem getLsbD_mmask {bl msb : BitVec 6} (h1 : bl.toNat ≤ 32) (h2 : msb.toNat ≤ bl.toNat) (i : Nat) :
    (mmask bl msb).getLsbD i = (decide (bl.toNat - msb.toNat ≤ i) && decide (i < bl.toNat)) := by
  simp only [mmask, ones]
  generalize bl.toNat = b at *
  generalize msb.toNat = m at *
  rw [BitVec.getLsbD_shiftLeft, BitVec.getLsbD_ofNat, Nat.testBit_two_pow_sub_one]
  by_cases hi : i < 32
  · by_cases h3 : b - m ≤ i
    · simp [hi, show i - (b - m) < 32 by omega, h3, show ¬ i < b - m by omega]
      omega
    · simp [show i < b - m by omega, h3]
  · simp [hi]
    omega

/-- lmask has exactly the remaining bits (R53). -/
theorem getLsbD_lmask (bl msb : BitVec 6) (i : Nat) :
    (lmask bl msb).getLsbD i = (decide (i < 32) && decide (i < bl.toNat - msb.toNat)) := by
  simp [lmask, ones, nL, BitVec.getLsbD_ofNat, Nat.testBit_two_pow_sub_one]

end Machine

end Sys2Proof
end

