-- ==== Sys2Proof/Laws/Commands.lean ====
section
/-! SUPPORT. What the field units and the command functions do, said once for each: well-formed rules, the priority
encoder, the residual encoder, the residual read, one field of the walk, the deferred fields, the header. -/

namespace Sys2Proof.Machine

/-! ## Rules -/

theorem mem_ruleFields (r : Rule) (d : Descriptor) (p : Nat) : (d, p) ∈ ruleFields r ↔ r.fields[p]? = some d := by
  simp [ruleFields, List.mem_zipIdx_iff_getElem?]

theorem position_lt {r : Rule} {p : Nat} {d : Descriptor} (h : r.fields[p]? = some d) : p < 18 := by
  by_contra hp
  rw [Vector.getElem?_eq_none (by omega)] at h
  cases h

/-- A sum over a rule's positions that does not look at the position. -/
theorem sum_ruleFields (r : Rule) (f : Descriptor → Nat) :
    ((ruleFields r).map fun dp => f dp.1).sum = (r.fields.toList.map f).sum := by
  have aux : ∀ (l : List Descriptor) (n : Nat), ((l.zipIdx n).map fun dp => f dp.1).sum = (l.map f).sum := fun l => by
    induction l with
    | nil => exact fun _ => rfl
    | cons d l ih => exact fun n => by simp [ih]
  exact aux r.fields.toList 0

theorem Config.wf_rule {cfg : Config} (h : cfg.wf = true) {k : Nat} {r : Rule} (hk : cfg.rules[k]? = some r) :
    r.wf = true := by
  simp only [Config.wf, Bool.and_eq_true, List.all_eq_true] at h
  exact h.1.2 r (List.mem_of_getElem? hk)

theorem Rule.wf_field {r : Rule} (h : r.wf = true) {p : Nat} {d : Descriptor} (hd : r.fields[p]? = some d) :
    d.wfAt p = true := by
  simp only [Rule.wf, List.all_eq_true, Prod.forall] at h
  exact h d p ((mem_ruleFields r d p).2 hd)

theorem Rule.wf_bitLength {r : Rule} (h : r.wf = true) {d : Descriptor} (hd : d ∈ r.fields.toList) :
    d.bl.toNat ≤ 32 := by
  obtain ⟨p, hp, rfl⟩ := List.getElem_of_mem hd
  have := Rule.wf_field h (p := p) (d := r.fields.toList[p]) (by simp at hp ⊢)
  simp only [Descriptor.wfAt, Descriptor.wf, Descriptor.wf3, Bool.and_eq_true, decide_eq_true_eq] at this
  exact this.1.1.1

/-- The ranges that WF gives the parameters (WF1, WF10). -/
theorem Config.wf_ranges {cfg : Config} (h : cfg.wf = true) :
    cfg.devidLen ≤ 8 ∧ 49 ≤ cfg.bufBytes ∧ cfg.bufBytes ≤ 65488 ∧ cfg.rules.length ≤ 255 := by
  have hn : cfg.nRules = cfg.rules.length := rfl
  simp only [Config.wf, Config.wf10, Config.wf1, Bool.and_eq_true, decide_eq_true_eq] at h
  omega

/-! ## The priority encoder -/

/-- What `firstMatch` finds, counting from n. -/
theorem firstMatch_eq_some {hc : HeaderContext} {rs : List Rule} {n k : Nat} :
    firstMatch hc rs n = some k ↔
      n ≤ k ∧ (∃ r, rs[k - n]? = some r ∧ ruleMatches r hc = true) ∧
        ∀ j, n ≤ j → j < k → ∀ r, rs[j - n]? = some r → ruleMatches r hc = false := by
  induction rs generalizing n with
  | nil => simp [firstMatch]
  | cons r rs ih =>
    simp only [firstMatch]
    split_ifs with h
    · constructor
      · intro e
        cases e
        exact ⟨le_refl _, ⟨r, by simp, h⟩, fun j h1 h2 => by omega⟩
      · rintro ⟨a, -, d⟩
        by_contra e
        have := d n (le_refl _) (by rcases Nat.lt_or_eq_of_le a with h | h; exact h; exact absurd (congrArg some h) e)
          r (by simp)
        simp [h] at this
    · rw [ih]
      constructor
      · rintro ⟨a, ⟨r', b, c⟩, d⟩
        refine ⟨by omega, ⟨r', ?_, c⟩, fun j h1 h2 x hx => ?_⟩
        · rw [show k - n = (k - (n + 1)) + 1 by omega]
          simpa using b
        · by_cases e : j = n
          · subst e
            simp at hx
            subst hx
            simpa using h
          · rw [show j - n = (j - (n + 1)) + 1 by omega] at hx
            exact d j (by omega) h2 x (by simpa using hx)
      · rintro ⟨a, ⟨r', b, c⟩, d⟩
        have : k ≠ n := by
          rintro rfl
          simp at b
          subst b
          exact h c
        rw [show k - n = (k - (n + 1)) + 1 by omega] at b
        refine ⟨by omega, ⟨r', by simpa using b, c⟩, fun j h1 h2 x hx => d j (by omega) h2 x ?_⟩
        rw [show j - n = (j - (n + 1)) + 1 by omega]
        simpa using hx

theorem firstMatch_eq_none {hc : HeaderContext} {rs : List Rule} {n : Nat} :
    firstMatch hc rs n = none ↔ ∀ r ∈ rs, ruleMatches r hc = false := by
  induction rs generalizing n with
  | nil => simp [firstMatch]
  | cons r rs ih =>
    simp only [firstMatch]
    split_ifs with h <;> simp_all

/-! ## MATCH -/

/-- What MATCH answers (R77): a matching rule of the set for a whole header, or none. The function itself writes
nothing and has no output; the registers are the commit's (R68). -/
theorem matchInput_cases (cfg : Config) (inp : List Byte) :
    matchInput cfg inp = .matchNone ∨
      ∃ k, 48 ≤ inp.length ∧ selectRule cfg (parseHeader cfg (inp.take 48)) = some k ∧
        matchInput cfg inp = .matchRule k := by
  unfold matchInput
  split_ifs with h
  · exact .inl rfl
  · split
    · exact .inl rfl
    · rename_i k hk
      exact .inr ⟨k, by simpa using h, hk, rfl⟩

/-- MATCH leaves OBUF (R77). -/
theorem obufEffect_matchInput (cfg : Config) (inp : List Byte) : (matchInput cfg inp).obufEffect = .keep := by
  obtain h | ⟨k, _, _, h⟩ := matchInput_cases cfg inp <;> rw [h] <;> rfl

/-! ## The residual encoder -/

theorem length_emitField (cfg : Config) (d : Descriptor) (p : Nat) (h : Word) :
    (emitField cfg d p h).length = if d.act = .vs then (d.bl.toNat + 7) / 8 else 0 := by
  unfold emitField
  cases d.act <;> simp only [emitNs, emitVs, emitLsb, emitCmp, emitCks, emitDev] <;>
    first
    | rfl
    | (split_ifs <;> simp [nvs, nb])

theorem length_residualBytes (cfg : Config) (r : Rule) (hc : HeaderContext) : (residualBytes cfg r hc).length =
    (r.fields.toList.map fun d => if d.act = .vs then (d.bl.toNat + 7) / 8 else 0).sum := by
  simp only [residualBytes, List.length_flatMap, length_emitField]
  exact sum_ruleFields r fun d => if d.act = .vs then (d.bl.toNat + 7) / 8 else 0

/-- How a compression under a matching rule comes about. -/
theorem compressInput_matched {cfg : Config} {inp out : List Byte} {k n : Nat} {r : Rule}
    (hc : compressInput cfg inp = .cmpMatched out k n) (hr : cfg.rules[k]? = some r) :
    48 ≤ inp.length ∧ selectRule cfg (parseHeader cfg (inp.take 48)) = some k ∧
      out = r.id :: residualBytes cfg r (parseHeader cfg (inp.take 48)) ++ inp.drop 48 ∧
      n = 1 + (residualBytes cfg r (parseHeader cfg (inp.take 48))).length := by
  simp only [compressInput] at hc
  split_ifs at hc with h48
  split at hc
  · cases hc
  · split at hc
    · cases hc
    · rename_i hs _ r' hr'
      cases hc
      rw [hr] at hr'
      cases hr'
      exact ⟨by simpa using h48, hs, rfl, rfl⟩

/-! ## The residual read and one field of the walk -/

theorem readResidual_some {inp : List Byte} {off n : Nat} (h : n = 0 ∨ off + n ≤ inp.length) :
    readResidual inp off n = some ((inp.drop off).take n, off + n) := by
  unfold readResidual
  split_ifs with h1 h2
  · simp [h1]
  · omega
  · rfl

theorem readResidual_none {inp : List Byte} {off n : Nat} (h : n ≠ 0) (h2 : inp.length < off + n) :
    readResidual inp off n = none := by
  simp [readResidual, h, h2]

/-- What the residual read sees of a frame in IBUF. -/
theorem State.input_slice (s : State) (off n : Nat) (h : n = 0 ∨ off + n ≤ s.frameLen) :
    (s.input.drop off).take n = (List.range n).map fun i => s.ibufByte (off + i) := by
  apply List.ext_getElem?
  intro i
  rw [List.getElem?_take]
  by_cases hi : i < n
  · simp only [hi, if_true, List.getElem?_drop]
    rw [State.getElem?_input, if_pos (by omega)]
    simp [hi]
  · simp [hi]

/-- The bytes a descriptor consumes (R61). -/
def consumedBytes (cfg : Config) (d : Descriptor) : Nat :=
  if d.act = .vs then (d.bl.toNat + 7) / 8
  else if d.act = .lsb ∧ cfg.lsbDecRead = true then (d.bl.toNat - d.msb.toNat + 7) / 8
  else 0

/-- A field that yields a value advances the offset by the bytes it consumes, inside the frame. -/
theorem decodeField_value {cfg : Config} {d : Descriptor} {p : Nat} {inp : List Byte} {off off' : Nat} {v : Word}
    (h : decodeField cfg d p inp off = .value v off') :
    off' = off + consumedBytes cfg d ∧ (off ≤ inp.length → off' ≤ inp.length) := by
  have rr : ∀ n b o, readResidual inp off n = some (b, o) → o = off + n ∧ (off ≤ inp.length → o ≤ inp.length) := by
    intro n b o h
    unfold readResidual at h
    split_ifs at h <;> simp at h <;> omega
  unfold decodeField at h
  unfold consumedBytes
  cases ha : d.act <;> simp only [ha] at h
  · simp only [fieldNs, FieldResult.value.injEq] at h
    simp
    omega
  · simp only [fieldVs] at h
    split at h
    · cases h
    · rename_i b o hr
      have := rr _ _ _ hr
      simp only [FieldResult.value.injEq] at h
      simp only [nvs, nb] at this
      simp
      omega
  · simp only [fieldLsb] at h
    split_ifs at h with hc
    · split at h
      · cases h
      · rename_i b o hr
        have := rr _ _ _ hr
        simp only [FieldResult.value.injEq] at h
        simp only [nls, nb, nL] at this
        simp [hc]
        omega
    · simp only [FieldResult.value.injEq] at h
      simp [hc]
      omega
  · simp only [fieldCmp, FieldResult.value.injEq] at h
    simp
    omega
  · simp only [fieldCks, FieldResult.value.injEq] at h
    simp
    omega
  · simp only [fieldDev] at h
    split_ifs at h
    all_goals
      simp only [FieldResult.value.injEq] at h
      simp
      omega

/-- The two kinds a field can raise. -/
theorem decodeField_raised {cfg : Config} {d : Descriptor} {p : Nat} {inp : List Byte} {off : Nat} {e : ErrKind}
    (h : decodeField cfg d p inp off = .raised e) : e = .truncatedBuffer ∨ e = .invalidDeviceIdentity := by
  unfold decodeField at h
  cases ha : d.act <;> simp only [ha] at h
  · cases h
  · simp only [fieldVs] at h
    split at h <;> cases h
    exact .inl rfl
  · simp only [fieldLsb] at h
    split_ifs at h
    split at h <;> cases h
    exact .inl rfl
  · cases h
  · cases h
  · simp only [fieldDev] at h
    split_ifs at h
    cases h
    exact .inr rfl

/-- What the deferred pass leaves at a position, for descriptors that stand from position n on. -/
theorem resolveDeferred_get (len : Word) (l : List Descriptor) (n : Nat) (hc : HeaderContext) (hn : n + l.length ≤ 18)
    (p : Nat) : (resolveDeferred len (l.zipIdx n) hc).get p =
      if n ≤ p then
        match l[p - n]? with
        | some d => if d.act = .cmp then len else if d.act = .cks then 0 else hc.get p
        | none => hc.get p
      else hc.get p := by
  induction l generalizing n hc with
  | nil => simp [resolveDeferred]
  | cons d l ih =>
    simp only [List.length_cons] at hn
    have key : ∀ hc2 : HeaderContext, (∀ q, q ≠ n → hc2.get q = hc.get q) →
        hc2.get n = (if d.act = .cmp then len else if d.act = .cks then 0 else hc.get n) →
        (resolveDeferred len (l.zipIdx (n + 1)) hc2).get p =
          if n ≤ p then
            match (d :: l)[p - n]? with
            | some d => if d.act = .cmp then len else if d.act = .cks then 0 else hc.get p
            | none => hc.get p
          else hc.get p := by
      intro hc2 h1 h2
      rw [ih _ _ (by omega)]
      by_cases e : p = n
      · subst e
        simp [h2, show ¬ p + 1 ≤ p by omega]
      · by_cases e2 : n + 1 ≤ p
        · rw [if_pos e2, if_pos (by omega), show p - n = (p - (n + 1)) + 1 by omega, List.getElem?_cons_succ, h1 p e]
        · rw [if_neg e2, if_neg (by omega), h1 p e]
    have other : ∀ v q, q ≠ n → (hc.set n v).get q = hc.get q := fun v q hq => by
      rw [HeaderContext.get_set, if_neg (fun h => hq h.1)]
    have self : ∀ v, (hc.set n v).get n = v := fun v => by
      rw [HeaderContext.get_set, if_pos ⟨rfl, by omega⟩]
    simp only [List.zipIdx_cons, resolveDeferred]
    cases ha : d.act
    · exact key _ (fun _ _ => rfl) (by simp [ha])
    · exact key _ (fun _ _ => rfl) (by simp [ha])
    · exact key _ (fun _ _ => rfl) (by simp [ha])
    · exact key _ (other len) (by simp [self, ha])
    · exact key _ (other 0) (by simp [self, ha])
    · exact key _ (fun _ _ => rfl) (by simp [ha])

/-! ## The header -/

theorem length_serializeHeader (cfg : Config) (hc : HeaderContext) : (serializeHeader cfg hc).length = 48 := by
  simp only [serializeHeader, List.length_append, length_toLE, udpBytes]
  split_ifs <;> simp

/-- A UDP field that is laid out at a byte index is read back modulo 16 bits. -/
theorem toNat_udpField {cfg : Config} {v : Word} {h : List Byte} {a : Nat}
    (hb : udpBytes cfg v = [headerByte h a, headerByte h (a + 1)]) : (udpField cfg h a).toNat = v.toNat % 2 ^ 16 := by
  unfold udpField
  unfold udpBytes at hb
  split_ifs at hb ⊢ <;> rw [← hb]
  · exact toNat_leWord_toLE v 2
  · exact toNat_beWord_toBE v 2

theorem udpBytes_udpField (cfg : Config) (h : List Byte) (a : Nat) :
    udpBytes cfg (udpField cfg h a) = [headerByte h a, headerByte h (a + 1)] := by
  unfold udpField udpBytes
  split_ifs
  · exact toLE_leWord (by simp)
  · have := toLE_leWord (bs := [headerByte h (a + 1), headerByte h a]) (by simp)
    rw [toBE, beWord]
    exact congrArg List.reverse this

/-- An address word that is laid out at a byte index is read back whole. -/
theorem addressWord_eq {v : Word} {h : List Byte} {a : Nat}
    (hb : toLE v.toNat 4 = [headerByte h a, headerByte h (a + 1), headerByte h (a + 2), headerByte h (a + 3)]) :
    addressWord h a = v := by
  apply BitVec.eq_of_toNat_eq
  rw [addressWord, ← hb, toNat_leWord_toLE, Nat.mod_eq_of_lt v.isLt]

theorem toLE_addressWord (h : List Byte) (a : Nat) : toLE (addressWord h a).toNat 4 =
    [headerByte h a, headerByte h (a + 1), headerByte h (a + 2), headerByte h (a + 3)] := toLE_leWord (by simp)

/-- The header's first 8 bytes, its eight address words and its four UDP fields. -/
theorem serializeHeader_split (cfg : Config) (hc : HeaderContext) : ∃ pre : List Byte, pre.length = 8 ∧
    serializeHeader cfg hc = pre ++ ((List.range 8).flatMap fun m => toLE (hc.get (6 + m)).toNat 4) ++
      ((List.range 4).flatMap fun q => udpBytes cfg (hc.get (14 + q))) := by
  refine ⟨[(hc.get 0).extractLsb' 0 4 ++ (hc.get 1).extractLsb' 4 4,
    (hc.get 1).extractLsb' 0 4 ++ (hc.get 2).extractLsb' 16 4, (hc.get 2).extractLsb' 8 8, (hc.get 2).extractLsb' 0 8,
    (hc.get 3).extractLsb' 8 8, (hc.get 3).extractLsb' 0 8, (hc.get 4).extractLsb' 0 8, (hc.get 5).extractLsb' 0 8],
    rfl, ?_⟩
  simp only [serializeHeader, List.range, List.range.loop, List.flatMap_cons, List.flatMap_nil, List.append_nil,
    List.append_assoc]

/-- A byte of a concatenation of n pieces of k bytes. -/
theorem getElem?_flatMap_pieces {f : Nat → List Byte} {k n m i : Nat} (hf : ∀ m, (f m).length = k) (hm : m < n)
    (hi : i < k) : ((List.range n).flatMap f)[k * m + i]? = (f m)[i]? := by
  induction n with
  | zero => omega
  | succ n ih =>
    have hl : ((List.range n).flatMap f).length = k * n := by
      rw [List.length_flatMap]
      simp [hf, Nat.mul_comm]
    rw [List.range_succ, List.flatMap_append]
    simp only [List.flatMap_cons, List.flatMap_nil, List.append_nil]
    by_cases h : m < n
    · have : k * (m + 1) ≤ k * n := Nat.mul_le_mul_left k h
      rw [Nat.mul_succ] at this
      rw [List.getElem?_append_left (by omega), ih h]
    · obtain rfl : m = n := by omega
      rw [List.getElem?_append_right (by omega), hl]
      congr 1
      omega

theorem headerByte_serialize_address (cfg : Config) (hc : HeaderContext) {m i : Nat} (hm : m < 8) (hi : i < 4) :
    headerByte (serializeHeader cfg hc) (8 + 4 * m + i) = BitVec.ofNat 8 ((hc.get (6 + m)).toNat / 256 ^ i) := by
  obtain ⟨pre, h1, h2⟩ := serializeHeader_split cfg hc
  have hl : ((List.range 8).flatMap fun m => toLE (hc.get (6 + m)).toNat 4).length = 32 := by
    simp [List.length_flatMap]
  rw [h2, headerByte, List.getElem?_append_left (by rw [List.length_append, hl]; omega),
    List.getElem?_append_right (by omega), show 8 + 4 * m + i - pre.length = 4 * m + i by omega,
    getElem?_flatMap_pieces (fun _ => by simp) hm hi, getElem?_toLE, if_pos hi]
  rfl

theorem headerByte_serialize_udp (cfg : Config) (hc : HeaderContext) {q i : Nat} (hq : q < 4) (hi : i < 2) :
    headerByte (serializeHeader cfg hc) (40 + 2 * q + i) = headerByte (udpBytes cfg (hc.get (14 + q))) i := by
  obtain ⟨pre, h1, h2⟩ := serializeHeader_split cfg hc
  have hl : ((List.range 8).flatMap fun m => toLE (hc.get (6 + m)).toNat 4).length = 32 := by
    simp [List.length_flatMap]
  rw [h2, headerByte, List.getElem?_append_right (by rw [List.length_append, hl]; omega), List.length_append, hl, h1,
    show 40 + 2 * q + i - (8 + 32) = 2 * q + i by omega,
    getElem?_flatMap_pieces (fun _ => by unfold udpBytes; split_ifs <;> simp) hq hi]
  rfl

/-! ## The identity -/

/-- The identity words as numbers (R108). -/
theorem toNat_idWords (cfg : Config) :
    (idWord0 cfg).toNat = (cfg.devid.toList.getD 0 0).toNat + 256 * (cfg.devid.toList.getD 1 0).toNat +
      65536 * (cfg.devid.toList.getD 2 0).toNat + 16777216 * (cfg.devid.toList.getD 3 0).toNat ∧
    (idWord1 cfg).toNat = (cfg.devid.toList.getD 4 0).toNat + 256 * (cfg.devid.toList.getD 5 0).toNat +
      65536 * (cfg.devid.toList.getD 6 0).toNat + 16777216 * (cfg.devid.toList.getD 7 0).toNat := by
  unfold idWord0 idWord1
  have hl : cfg.devid.toList.length = 8 := by simp
  generalize cfg.devid.toList = l at *
  match l, hl with
  | [a, b, c, d, e, f, g, h], _ =>
    simp [leWord, leNat]
    have := a.isLt
    have := b.isLt
    have := c.isLt
    have := d.isLt
    have := e.isLt
    have := f.isLt
    have := g.isLt
    have := h.isLt
    omega

end Sys2Proof.Machine
end

