-- ==== Sys2Proof/Laws/PerInstr.lean ====
section
/-! SUPPORT. The per-instruction family CodeLength: how many bytes the encoder lays out. -/

namespace Sys2Proof.Laws

/-- The encoder lays out 4 bytes for a command (R57) and 8 for a descriptor (R52). -/
def CodeLength.Statement (i : Instr) : Prop :=
  (encode i).length = match i.descriptor with
    | none => 4
    | some _ => 8

theorem CodeLength.compress : CodeLength.Statement .compress := length_toLE _ _

theorem CodeLength.decompress : CodeLength.Statement .decompress := length_toLE _ _

theorem CodeLength.matchCmd : CodeLength.Statement .matchCmd := length_toLE _ _

theorem CodeLength.idsynth : CodeLength.Statement .idsynth := length_toLE _ _

theorem CodeLength.matchEq (tv : Word) (bl msb : BitVec 6) (act : Action) :
    CodeLength.Statement (.matchEq tv bl msb act) := length_toLE _ _

theorem CodeLength.matchIgn (tv : Word) (bl msb : BitVec 6) (act : Action) :
    CodeLength.Statement (.matchIgn tv bl msb act) := length_toLE _ _

theorem CodeLength.matchMsb (tv : Word) (bl msb : BitVec 6) (act : Action) :
    CodeLength.Statement (.matchMsb tv bl msb act) := length_toLE _ _

theorem CodeLength.nsCompress (tv : Word) (bl msb : BitVec 6) (mo : MatchOp) :
    CodeLength.Statement (.nsCompress tv bl msb mo) := length_toLE _ _

theorem CodeLength.nsDecompress (tv : Word) (bl msb : BitVec 6) (mo : MatchOp) :
    CodeLength.Statement (.nsDecompress tv bl msb mo) := length_toLE _ _

theorem CodeLength.vsCompress (tv : Word) (bl msb : BitVec 6) (mo : MatchOp) :
    CodeLength.Statement (.vsCompress tv bl msb mo) := length_toLE _ _

theorem CodeLength.vsDecompress (tv : Word) (bl msb : BitVec 6) (mo : MatchOp) :
    CodeLength.Statement (.vsDecompress tv bl msb mo) := length_toLE _ _

theorem CodeLength.lsbCompress (tv : Word) (bl msb : BitVec 6) (mo : MatchOp) :
    CodeLength.Statement (.lsbCompress tv bl msb mo) := length_toLE _ _

theorem CodeLength.lsbDecompress (tv : Word) (bl msb : BitVec 6) (mo : MatchOp) :
    CodeLength.Statement (.lsbDecompress tv bl msb mo) := length_toLE _ _

theorem CodeLength.cmpCompress (tv : Word) (bl msb : BitVec 6) (mo : MatchOp) :
    CodeLength.Statement (.cmpCompress tv bl msb mo) := length_toLE _ _

theorem CodeLength.cmpDecompress (tv : Word) (bl msb : BitVec 6) (mo : MatchOp) :
    CodeLength.Statement (.cmpDecompress tv bl msb mo) := length_toLE _ _

theorem CodeLength.cksCompress (tv : Word) (bl msb : BitVec 6) (mo : MatchOp) :
    CodeLength.Statement (.cksCompress tv bl msb mo) := length_toLE _ _

theorem CodeLength.cksDecompress (tv : Word) (bl msb : BitVec 6) (mo : MatchOp) :
    CodeLength.Statement (.cksDecompress tv bl msb mo) := length_toLE _ _

theorem CodeLength.devCompress (tv : Word) (bl msb : BitVec 6) (mo : MatchOp) :
    CodeLength.Statement (.devCompress tv bl msb mo) := length_toLE _ _

theorem CodeLength.devDecompress (tv : Word) (bl msb : BitVec 6) (mo : MatchOp) :
    CodeLength.Statement (.devDecompress tv bl msb mo) := length_toLE _ _

end Sys2Proof.Laws
end

