-- ==== Sys2Proof/Laws/Step.lean ====
section
/-! SUPPORT. What exec and step can do, said once. -/

namespace Sys2Proof.Machine

/-- An executed instruction commits a result or changes the internal state alone. -/
theorem exec_next {i : Instr} {s t : State} (h : exec i s = .next t) :
    (∃ r, t = s.commit r) ∨ ∃ w : Walk, w.mux = none ∧ t = { s with walk := w } := by
  have field : ∀ {f : Nat → List Byte → Nat → FieldResult}, s.fieldStep f = .next t →
      (∃ r, t = s.commit r) ∨ ∃ w : Walk, w.mux = none ∧ t = { s with walk := w } := fun hf => by
    rcases State.fieldStep_next hf with hw | ⟨e, _, ht⟩
    · exact .inr hw
    · exact .inl ⟨_, ht⟩
  cases i with
  | compress => exact .inl ⟨_, (Host.Outcome.next.inj h).symm⟩
  | decompress => exact .inl ⟨_, (Host.Outcome.next.inj h).symm⟩
  | matchCmd => exact .inl ⟨_, (Host.Outcome.next.inj h).symm⟩
  | idsynth => exact .inl ⟨_, (Host.Outcome.next.inj h).symm⟩
  | matchEq tv bl msb act => exact .inr (State.laneStep_next h)
  | matchIgn tv bl msb act => exact .inr (State.laneStep_next h)
  | matchMsb tv bl msb act => exact .inr (State.laneStep_next h)
  | nsCompress tv bl msb mo => exact .inr (State.emitStep_next h)
  | vsCompress tv bl msb mo => exact .inr (State.emitStep_next h)
  | lsbCompress tv bl msb mo => exact .inr (State.emitStep_next h)
  | cmpCompress tv bl msb mo => exact .inr (State.emitStep_next h)
  | cksCompress tv bl msb mo => exact .inr (State.emitStep_next h)
  | devCompress tv bl msb mo => exact .inr (State.emitStep_next h)
  | nsDecompress tv bl msb mo => exact @field (fieldNs tv) h
  | vsDecompress tv bl msb mo => exact field h
  | lsbDecompress tv bl msb mo => exact field h
  | cmpDecompress tv bl msb mo => exact @field fieldCmp h
  | cksDecompress tv bl msb mo => exact @field fieldCks h
  | devDecompress tv bl msb mo => exact field h

/-- The result that each command commits. -/
def commandResult (s : State) : Instr → Option CmdResult
  | .compress => some (s.withInput (compressInput s.cfg))
  | .decompress => some (s.withInput (decompressInput s.cfg))
  | .matchCmd => some (s.withInput (matchInput s.cfg))
  | .idsynth => some (idSynth s.cfg)
  | .matchEq _ _ _ _ => none
  | .matchIgn _ _ _ _ => none
  | .matchMsb _ _ _ _ => none
  | .nsCompress _ _ _ _ => none
  | .nsDecompress _ _ _ _ => none
  | .vsCompress _ _ _ _ => none
  | .vsDecompress _ _ _ _ => none
  | .lsbCompress _ _ _ _ => none
  | .lsbDecompress _ _ _ _ => none
  | .cmpCompress _ _ _ _ => none
  | .cmpDecompress _ _ _ _ => none
  | .cksCompress _ _ _ _ => none
  | .cksDecompress _ _ _ _ => none
  | .devCompress _ _ _ _ => none
  | .devDecompress _ _ _ _ => none

/-- A decoded CMD value is one of the four commands. -/
theorem decodeCommand_ok {v : Word} {i : Instr} (h : decodeCommand v = .ok i) :
    i = .compress ∨ i = .decompress ∨ i = .matchCmd ∨ i = .idsynth := by
  simp only [decodeCommand] at h
  split_ifs at h
  · exact .inl (Decoded.ok.inj h).symm
  · exact .inr (.inl (Decoded.ok.inj h).symm)
  · exact .inr (.inr (.inl (Decoded.ok.inj h).symm))
  · exact .inr (.inr (.inr (Decoded.ok.inj h).symm))

/-- The Engine's turn commits one of the four commands' results or IllegalCommand, and only while BUSY with a
pending value. -/
theorem State.engineStep_next {s t : State} (h : s.engineStep = .next t) :
    s.status.busy = true ∧ ∃ v, s.pend = some v ∧
      ((∃ i r, decodeCommand v = .ok i ∧ commandResult s i = some r ∧ t = s.commit r) ∨
       ((∃ why, decodeCommand v = .rejected why) ∧ t = s.commit .illegal)) := by
  simp only [State.engineStep] at h
  split_ifs at h with hb
  refine ⟨hb, ?_⟩
  split at h
  · exact absurd h (by simp)
  · rename_i v hv
    refine ⟨v, hv, ?_⟩
    split at h
    · rename_i i hi
      refine .inl ⟨i, ?_⟩
      rcases decodeCommand_ok hi with rfl | rfl | rfl | rfl <;>
        exact ⟨_, hi, rfl, (Host.Outcome.next.inj h).symm⟩
    · rename_i why hw
      exact .inr ⟨⟨why, hw⟩, (Host.Outcome.next.inj h).symm⟩

/-- Everything one step can do when it answers a next state. -/
theorem step_next {s t : State} (h : step s = .next t) :
    s.cfg.wf = true ∧
    ((∃ u w i, s.walk.mux = some (u, w) ∧ decodeUnit u w = .ok i ∧ i.wfAt s.walk.j = true ∧ exec i s = .next t) ∨
     (s.walk.mux = none ∧
      ((s.inputs = [] ∧ s.engineStep = .next t) ∨
       (∃ rest, s.inputs = .engine :: rest ∧ State.engineStep { s with inputs := rest } = .next t) ∨
       (∃ a n rest, s.inputs = .read a n :: rest ∧ State.hostRead a n { s with inputs := rest } = .next t) ∨
       (∃ a n v rest, s.inputs = .write a n v :: rest ∧ State.hostWrite a n v { s with inputs := rest } = .next t) ∨
       (∃ rest, s.inputs = .reset :: rest ∧ t = State.resetInput { s with inputs := rest })))) := by
  simp only [step] at h
  split_ifs at h with hw
  refine ⟨by simpa using hw, ?_⟩
  split at h
  · rename_i u w hm
    simp only [State.unitStep] at h
    split at h
    · exact absurd h (by simp)
    · rename_i i hi
      split_ifs at h with hp
      exact .inl ⟨u, w, i, hm, hi, hp, h⟩
  · rename_i hm
    refine .inr ⟨hm, ?_⟩
    simp only [State.eventStep] at h
    split at h
    · rename_i hin; exact .inl ⟨hin, h⟩
    · rename_i a n rest hin; exact .inr (.inr (.inl ⟨a, n, rest, hin, h⟩))
    · rename_i a n v rest hin; exact .inr (.inr (.inr (.inl ⟨a, n, v, rest, hin, h⟩)))
    · rename_i rest hin; exact .inr (.inl ⟨rest, hin, h⟩)
    · rename_i rest hin; exact .inr (.inr (.inr (.inr ⟨rest, hin, (Host.Outcome.next.inj h).symm⟩)))

/-! ## Each event -/

theorem step_read {s : State} {a : BitVec 18} {n : Nat} {rest : List Event} (h : NextEvent s (.read a n) rest) :
    step s = State.hostRead a n { s with inputs := rest } := by
  obtain ⟨h1, h2, h3⟩ := h
  simp only [step, h1, h2, State.eventStep, h3]
  rfl

theorem step_write {s : State} {a : BitVec 18} {n : Nat} {v : Word} {rest : List Event}
    (h : NextEvent s (.write a n v) rest) : step s = State.hostWrite a n v { s with inputs := rest } := by
  obtain ⟨h1, h2, h3⟩ := h
  simp only [step, h1, h2, State.eventStep, h3]
  rfl

theorem step_engineTurn {s : State} {rest : List Event} (h : EngineTurn s rest) :
    step s = State.engineStep { s with inputs := rest } := by
  obtain ⟨h1, h2, h3⟩ := h
  simp only [step, h1, h2, State.eventStep]
  rcases h3 with h3 | ⟨h3, rfl⟩
  · simp [h3]
  · have : ({ s with inputs := [] } : State) = s := by cases s; simp_all
    rw [h3, this]
    rfl

/-! ## Windows -/

/-- The four windows by their address ranges (R36). -/
theorem windowOf_iff (a : BitVec 18) :
    (windowOf a = .reg ↔ a.toNat < 0x10000) ∧ (windowOf a = .ibuf ↔ 0x10000 ≤ a.toNat ∧ a.toNat < 0x20000) ∧
      (windowOf a = .obuf ↔ 0x20000 ≤ a.toNat ∧ a.toNat < 0x30000) ∧ (windowOf a = .rom ↔ 0x30000 ≤ a.toNat) := by
  unfold windowOf
  split_ifs <;> simp <;> omega

/-- The legal accesses (R41). -/
theorem accessLegal_iff (a : BitVec 18) (n : Nat) : accessLegal a n = true ↔
    if a.toNat < 0x10000 then n = 4 ∧ a.toNat % 4 = 0 else n = 1 ∨ n = 4 ∧ a.toNat % 4 = 0 := by
  have := windowOf_iff a
  unfold accessLegal
  split_ifs with h
  · rw [this.1.2 h]
    simp
  · cases hw : windowOf a <;> simp_all

/-! ## Decoding the bytes that step lays out -/

theorem decode_command_bytes (v : Word) : decode .cmd (toLE v.toNat 4) = decodeCommand v := by
  have hv := v.isLt
  unfold decode
  rw [if_neg (by simp [Port.wordBytes])]
  simp only [Port.wordBytes]
  rw [List.take_of_length_le (by simp), leNat_toLE, decodeUnit]
  have hlo : BitVec.extractLsb' 0 32 (BitVec.ofNat 64 (v.toNat % 256 ^ 4)) = v := by
    apply BitVec.eq_of_toNat_eq
    simp [BitVec.extractLsb'_toNat]
    omega
  rw [hlo, if_pos]
  apply BitVec.eq_of_toNat_eq
  simp [BitVec.extractLsb'_toNat, Nat.shiftRight_eq_div_pow]
  omega

theorem decode_unit_bytes {u : Port} (hu : u ≠ .cmd) (w : FdWord) : decode u (toLE w.toNat 8) = decodeUnit u w := by
  have hw := w.isLt
  have h8 : u.wordBytes = 8 := by cases u <;> simp_all [Port.wordBytes]
  unfold decode
  rw [if_neg (by simp [h8]), h8, List.take_of_length_le (by simp), leNat_toLE]
  congr 1
  apply BitVec.eq_of_toNat_eq
  simp
  omega

end Sys2Proof.Machine
end

