-- ==== Sys2Proof/Tests/Slice0.lean ====
section
/-! SUPPORT. The model's own tests: decoding of words written out in spec/95_test_vectors.md section 2, ill-formed terms
that the checks refuse, at most two small steps for each instruction with results from spec/95_test_vectors.md, and a
witness for the hypotheses of each obligation. -/

namespace Sys2Proof.Tests

open Sys2Proof.Machine

-- The tests are checked one after the other: each is a kernel evaluation, and a hundred at once need a thread each.
set_option Elab.async false

/-! ## Helpers -/

/-- Header H of spec/95_test_vectors.md section 2, with bytes 6 and 7 given. -/
def headerWith (nh hl : Byte) : List Byte :=
  [0x60, 0x00, 0x00, 0x00, 0x00, 0x0C, nh, hl] ++
  [0xFE, 0x80, 0x00, 0x00, 0x00, 0x00, 0x00, 0x00, 0x70, 0xB3, 0xD5, 0x49, 0x90, 0x00, 0x12, 0x34] ++
  [0xFE, 0x80, 0x00, 0x00, 0x00, 0x00, 0x00, 0x00, 0x00, 0x00, 0x00, 0x00, 0x00, 0x00, 0x00, 0x01] ++
  [0x04, 0x3E, 0x16, 0x33, 0x00, 0x0C, 0xAB, 0xCD]

/-- H, H64 and HT of section 2. -/
def headerH : List Byte := headerWith 0x11 0xFF
def headerH64 : List Byte := headerWith 0x11 0x40
def headerHT : List Byte := headerWith 0x06 0xFF

/-- Pay and X of section 2. -/
def payload : List Byte := [0xDE, 0xAD, 0xBE, 0xEF]
def packetX : List Byte := headerH ++ payload

/-- The identity of fewer than 8 bytes (V-D-7, V-I-2). -/
def shortIdentity (n : Nat) : Config := { Config.reference with devidLen := n }

/-- Rule set D of section 2, with P_LSB_DEC_READ given. -/
def setD (read : Bool) : Config :=
  { Config.reference with
    rules := [exampleRule 1 (fdStatic 8 255) (fdStatic 16 1086) (fdPrefix 16 12 0x1630)], lsbDecRead := read }

/-- A block after reset with a frame loaded. -/
def loaded (cfg : Config) (bytes : List Byte) : State :=
  { State.afterReset cfg with ibuf := Memory.ofBytes 0 bytes, inLen := BitVec.ofNat 16 bytes.length }

/-- The same with a CMD value latched and the given events to come. -/
def started (cfg : Config) (bytes : List Byte) (v : Word) (evs : List Event) : State :=
  { loaded cfg bytes with pend := some v, status := Status.started, inputs := evs }

/-- A block in the middle of a command, at position j. -/
def walking (cfg : Config) (bytes : List Byte) (j off : Nat) (hc : HeaderContext) : State :=
  { loaded cfg bytes with walk := { Walk.fresh with j := j, off := off, hc := hc } }

def nextOf : Host.Outcome State Fault Refusal → Option State
  | .next s => some s
  | .fault _ => none
  | .refused _ => none

def refusalOf : Host.Outcome State Fault Refusal → Option Refusal
  | .next _ => none
  | .fault _ => none
  | .refused r => some r

/-- STATUS, OUT_LEN and HDR_LEN. -/
def results (o : Host.Outcome State Fault Refusal) : Option (Word × Nat × Nat) :=
  (nextOf o).map fun t => (t.status.word, t.outLen.toNat, t.hdrLen.toNat)

/-- The known bytes of OBUF. -/
def output (o : Host.Outcome State Fault Refusal) : Option (List Byte) := (nextOf o).map fun t => t.obuf.map Prod.snd

/-- The internal state after one operation of a field unit: HC at a position, the offset, the output, the verdict. -/
def fieldValue (o : Host.Outcome State Fault Refusal) (p : Nat) : Option (Word × Nat) :=
  (nextOf o).map fun t => (t.walk.hc.get p, t.walk.off)

def emitted (o : Host.Outcome State Fault Refusal) : Option (List Byte) := (nextOf o).map fun t => t.walk.out

def verdict (o : Host.Outcome State Fault Refusal) : Option Bool := (nextOf o).map fun t => t.walk.acc

/-- The offset and HC[5] at the end of a walk without a raise. -/
def walked : WalkResult → Option (Nat × Word)
  | .done hc off => some (off, hc.get 5)
  | .raised _ _ => none

/-- The Header Context with one value. -/
def hcWith (p : Nat) (v : Word) : HeaderContext := HeaderContext.zero.set p v

/-- The value a host read returns. -/
def readOf (s : State) (a : BitVec 18) (n : Nat) : Option Word :=
  (nextOf (step { s with inputs := [.read a n] })).map State.rdata

theorem next_of_isSome {o : Host.Outcome State Fault Refusal} (h : (nextOf o).isSome = true) : ∃ t, o = .next t := by
  cases o with
  | next t => exact ⟨t, rfl⟩
  | fault r => cases h
  | refused r => cases h

/-! ## Decoding: the words of spec/95_test_vectors.md section 2, written hi:lo there -/

theorem test_decode_compress : decode .cmd [0x01, 0x00, 0x00, 0x00] = .ok .compress := by decide +kernel
theorem test_decode_decompress : decode .cmd [0x02, 0x00, 0x00, 0x00] = .ok .decompress := by decide +kernel
theorem test_decode_match : decode .cmd [0x03, 0x00, 0x00, 0x00] = .ok .matchCmd := by decide +kernel
theorem test_decode_idsynth : decode .cmd [0x04, 0x00, 0x00, 0x00] = .ok .idsynth := by decide +kernel

/-- 00000008:000000FF is STATIC(8, 255). -/
theorem test_decode_matchEq :
    decode .comparator [0xFF, 0x00, 0x00, 0x00, 0x08, 0x00, 0x00, 0x00] = .ok (.matchEq 255 8 0 .ns) := by decide +kernel

/-- 00005008:00000040 is SENT(8, 64). -/
theorem test_decode_matchIgn :
    decode .comparator [0x40, 0x00, 0x00, 0x00, 0x08, 0x50, 0x00, 0x00] = .ok (.matchIgn 64 8 0 .vs) := by decide +kernel

/-- 0000A310:00001630 is PREFIX(16, 12, 0x1630). -/
theorem test_decode_matchMsb :
    decode .comparator [0x30, 0x16, 0x00, 0x00, 0x10, 0xA3, 0x00, 0x00] = .ok (.matchMsb 0x1630 16 12 .lsb) := by
  decide +kernel

/-- 00000008:00000011 is STATIC(8, 17). -/
theorem test_decode_ns :
    decode .encoder [0x11, 0x00, 0x00, 0x00, 0x08, 0x00, 0x00, 0x00] = .ok (.nsCompress 17 8 0 .eq) ∧
    decode .decoder [0x11, 0x00, 0x00, 0x00, 0x08, 0x00, 0x00, 0x00] = .ok (.nsDecompress 17 8 0 .eq) := by
  decide +kernel

theorem test_decode_vs :
    decode .encoder [0x40, 0x00, 0x00, 0x00, 0x08, 0x50, 0x00, 0x00] = .ok (.vsCompress 64 8 0 .ign) ∧
    decode .decoder [0x40, 0x00, 0x00, 0x00, 0x08, 0x50, 0x00, 0x00] = .ok (.vsDecompress 64 8 0 .ign) := by
  decide +kernel

theorem test_decode_lsb :
    decode .encoder [0x30, 0x16, 0x00, 0x00, 0x10, 0xA3, 0x00, 0x00] = .ok (.lsbCompress 0x1630 16 12 .msb) ∧
    decode .decoder [0x30, 0x16, 0x00, 0x00, 0x10, 0xA3, 0x00, 0x00] = .ok (.lsbDecompress 0x1630 16 12 .msb) := by
  decide +kernel

/-- 0000D010:00000000 is LENGTH(16). -/
theorem test_decode_cmp :
    decode .encoder [0x00, 0x00, 0x00, 0x00, 0x10, 0xD0, 0x00, 0x00] = .ok (.cmpCompress 0 16 0 .ign) ∧
    decode .decoder [0x00, 0x00, 0x00, 0x00, 0x10, 0xD0, 0x00, 0x00] = .ok (.cmpDecompress 0 16 0 .ign) := by
  decide +kernel

/-- 00011010:00000000 is CSUM(16). -/
theorem test_decode_cks :
    decode .encoder [0x00, 0x00, 0x00, 0x00, 0x10, 0x10, 0x01, 0x00] = .ok (.cksCompress 0 16 0 .ign) ∧
    decode .decoder [0x00, 0x00, 0x00, 0x00, 0x10, 0x10, 0x01, 0x00] = .ok (.cksDecompress 0 16 0 .ign) := by
  decide +kernel

/-- 00014020:49D5B370 is IID(0x49D5B370). -/
theorem test_decode_dev :
    decode .encoder [0x70, 0xB3, 0xD5, 0x49, 0x20, 0x40, 0x01, 0x00] = .ok (.devCompress 0x49D5B370 32 0 .eq) ∧
    decode .decoder [0x70, 0xB3, 0xD5, 0x49, 0x20, 0x40, 0x01, 0x00] = .ok (.devDecompress 0x49D5B370 32 0 .eq) := by
  decide +kernel

/-- The words of R52 that are no descriptor, each by its name (R63), and the CMD values of R69. -/
theorem test_rejects_reservedMatchOp : decodeFd 0x0000300800000000 = .rejected .reservedMatchOp := by decide +kernel
theorem test_rejects_reservedAction :
    decodeFd 0x0001800800000000 = .rejected .reservedAction ∧ decodeFd 0x0001C00800000000 = .rejected .reservedAction := by
  decide +kernel
theorem test_rejects_reservedBits :
    decodeFd 0x0002000800000000 = .rejected .reservedBits ∧ decodeFd 0x8000000800000000 = .rejected .reservedBits := by
  decide +kernel
theorem test_rejects_bitLength : decodeFd 0x0000002100000000 = .rejected .bitLengthTooLong := by decide +kernel
theorem test_rejects_msbLength : decodeFd 0x0000024800000000 = .rejected .msbLengthTooLong := by decide +kernel
theorem test_rejects_commands :
    decodeCommand 0x11 = .rejected .illegalCommand ∧ decodeCommand 0 = .rejected .illegalCommand ∧
      decodeCommand 5 = .rejected .illegalCommand ∧ decodeCommand 0x80000001 = .rejected .illegalCommand := by
  decide +kernel
theorem test_rejects_tooShort :
    decode .cmd [0x01, 0x00, 0x00] = .rejected .tooShort ∧ decode .decoder [0, 0, 0, 0, 0, 0, 0] = .rejected .tooShort := by
  decide +kernel

/-- The table's words reach step as the first instruction after reset: IDSYNTH (V-I-1), and a descriptor word. -/
theorem test_fetch_command : decodeTableWord 32 4 = some .idsynth ∧
    results (step (State.reset.withFetchWord 32 4)) = some (0x00FF0002, 0, 0) := by decide +kernel
theorem test_fetch_descriptor : decodeTableWord 64 0x0000500800000040 = some (.vsCompress 64 8 0 .ign) ∧
    emitted (step (State.reset.withFetchWord 64 0x0000500800000040)) = some [0x40] := by decide +kernel

/-! ## Well-formedness: an ill-formed term for each check of R56 -/

theorem smoke_reference : Config.reference.wf = true := by decide +kernel
theorem smoke_WF1 : Config.wf1 { Config.reference with rules := List.replicate 256 exampleRule1 } = false := by
  decide +kernel
theorem smoke_WF2 : Config.wf2 { Config.reference with rules := [exampleRule2] } = false := by decide +kernel
theorem smoke_WF3 : (fd 33 0 0 .eq .ns).wf3 = false := by decide +kernel
theorem smoke_WF4 : (fd 8 9 0 .eq .ns).wf4 = false := by decide +kernel
theorem smoke_WF5 : (fd 8 0 256 .eq .ns).wf5 = false ∧ (fd 8 0 256 .ign .ns).wf5 = true := by decide +kernel
theorem smoke_WF6 : Rule.ofWords 1 (List.replicate 18 0x0000300800000000) = none := by decide +kernel
theorem smoke_WF7 : Rule.ofWords 1 (List.replicate 18 0x0001800800000000) = none := by decide +kernel
theorem smoke_WF8 : Rule.ofWords 1 (List.replicate 18 0x0002000800000000) = none := by decide +kernel
theorem smoke_WF9 : (fdIid 0).wf9 7 = false ∧ (fdIid 0).wf9 8 = true ∧ (fdIid 0).wf9 13 = true := by decide +kernel
theorem smoke_WF10 : Config.wf10 (shortIdentity 9) = false ∧
    Config.wf10 { Config.reference with bufBytes := 48 } = false ∧
    Config.wf10 { Config.reference with bufBytes := 65489 } = false := by decide +kernel
theorem smoke_rule : Rule.wf (exampleRule 1 (fdIid 0) (fdStatic 16 0) (fdStatic 16 0)) = false := by decide +kernel
theorem smoke_instr : (Instr.matchEq 256 8 0 .ns).wf = false ∧ (Instr.devDecompress 0 32 0 .ign).wfAt 7 = false := by
  decide +kernel
/-- A rule of 17 or 19 descriptors cannot be built; the 18 words of rule 1 of rule set A build it. -/
theorem smoke_ruleLength : Rule.ofWords 1 (List.replicate 17 0) = none ∧ Rule.ofWords 1 (List.replicate 19 0) = none ∧
    Rule.ofWords 1 (exampleRule1.fields.toList.map Descriptor.word) = some exampleRule1 := by decide +kernel

/-! ## One step of each instruction (at most two for each) -/

/-- V-CMP-1 and V-CMP-2. -/
theorem test_compress_1 : results (exec .compress (loaded Config.reference packetX)) = some (0x00FF0106, 5, 1) ∧
    output (exec .compress (loaded Config.reference packetX)) = some (0x01 :: payload) := by decide +kernel
theorem test_compress_2 :
    results (exec .compress (loaded Config.reference (headerH64 ++ payload))) = some (0x00FF0206, 6, 2) ∧
    output (exec .compress (loaded Config.reference (headerH64 ++ payload))) = some (0x02 :: 0x40 :: payload) := by
  decide +kernel

/-- V-D-2 and V-D-4. -/
theorem test_decompress_1 :
    results (exec .decompress (loaded Config.reference (0x02 :: 0x40 :: payload))) = some (0x00FF0206, 52, 2) ∧
    output (exec .decompress (loaded Config.reference (0x02 :: 0x40 :: payload))) =
      some (headerH64.take 46 ++ [0x00, 0x00] ++ payload) := by decide +kernel
theorem test_decompress_2 :
    results (exec .decompress (loaded Config.reference [0x02])) = some (0x00050232, 0, 0) := by decide +kernel

/-- V-M-9 and V-M-10. -/
theorem test_match_rule_two : results (exec .matchCmd (loaded Config.reference headerH64)) = some (0x00FF0206, 0, 0) := by
  decide +kernel
theorem test_match_first_only :
    results (exec .matchCmd (loaded { Config.reference with scanFirstOnly := true } headerH64)) =
      some (0x00FF0012, 0, 0) := by decide +kernel

/-- V-I-3 and V-I-2. -/
theorem test_idsynth_1 :
    (nextOf (exec .idsynth (loaded { Config.reference with
        devid := #v[0x00, 0x11, 0x22, 0x33, 0x44, 0x55, 0x66, 0x77] } []))).map (fun t => (t.idw0, t.idw1)) =
      some (0x33221100, 0x77665544) := by decide +kernel
theorem test_idsynth_2 : results (exec .idsynth (loaded (shortIdentity 7) [])) = some (0x00FF0042, 0, 0) ∧
    (nextOf (exec .idsynth (loaded (shortIdentity 7) []))).map (fun t => (t.idw0, t.idw1)) = some (0, 0) := by
  decide +kernel

/-- V-M-7 (a header value wider than bitLength) and V-M-2. -/
theorem test_matchEq_1 : verdict (exec (.matchEq 0 4 0 .ns) (walking Config.reference [] 1 0 (hcWith 1 0x10))) =
    some false := by decide +kernel
theorem test_matchEq_2 : verdict (exec (.matchEq 255 8 0 .ns) (walking Config.reference [] 5 0 (hcWith 5 255))) =
    some true := by decide +kernel

/-- V-M-3. -/
theorem test_matchIgn : verdict (exec (.matchIgn 64 8 0 .vs) (walking Config.reference [] 5 0 (hcWith 5 1))) =
    some true := by decide +kernel

/-- V-M-4: 0x16FF and 0x1733 against 0x1600. -/
theorem test_matchMsb_1 : verdict (exec (.matchMsb 0x1600 16 8 .ns) (walking Config.reference [] 15 0 (hcWith 15 0x16FF))) =
    some true := by decide +kernel
theorem test_matchMsb_2 : verdict (exec (.matchMsb 0x1600 16 8 .ns) (walking Config.reference [] 15 0 (hcWith 15 0x1733))) =
    some false := by decide +kernel

/-- V-E-1. -/
theorem test_nsCompress : emitted (exec (.nsCompress 6 4 0 .eq) (walking Config.reference [] 0 0 (hcWith 0 6))) =
    some [] := by decide +kernel

/-- V-E-5 (big-endian at position 2) and V-E-9 (no mask to bitLength). -/
theorem test_vsCompress_1 :
    emitted (exec (.vsCompress 0x12345 20 0 .eq) (walking Config.reference [] 2 0 (hcWith 2 0x12345))) =
      some [0x01, 0x23, 0x45] := by decide +kernel
theorem test_vsCompress_2 : emitted (exec (.vsCompress 0x3FF 9 0 .ign) (walking Config.reference [] 14 0 (hcWith 14 0))) =
    some [0xFF, 0x03] := by decide +kernel

/-- V-E-12, V-E-13, V-E-14, V-E-15. -/
theorem test_lsbCompress :
    emitted (exec (.lsbCompress 0x1630 16 12 .msb) (walking Config.reference [] 15 0 (hcWith 15 0x1633))) = some [] := by
  decide +kernel
theorem test_cmpCompress : emitted (exec (.cmpCompress 0 16 0 .ign) (walking Config.reference [] 3 0 (hcWith 3 12))) =
    some [] := by decide +kernel
theorem test_cksCompress : emitted (exec (.cksCompress 0 16 0 .ign) (walking Config.reference [] 17 0 (hcWith 17 0xABCD))) =
    some [] := by decide +kernel
theorem test_devCompress :
    emitted (exec (.devCompress 0x49D5B370 32 0 .eq) (walking Config.reference [] 8 0 (hcWith 8 0x49D5B370))) = some [] := by
  decide +kernel

/-- V-F-1. -/
theorem test_nsDecompress :
    fieldValue (exec (.nsDecompress 17 8 0 .eq) (walking Config.reference [1] 4 1 HeaderContext.zero)) 4 = some (17, 1) := by
  decide +kernel

/-- V-F-3 (little-endian) and V-F-5 (big-endian, not masked). -/
theorem test_vsDecompress_1 :
    fieldValue (exec (.vsDecompress 0 16 0 .ign) (walking Config.reference [1, 0x33, 0x16] 15 1 HeaderContext.zero)) 15 =
      some (0x1633, 3) := by decide +kernel
theorem test_vsDecompress_2 :
    fieldValue (exec (.vsDecompress 0 20 0 .ign) (walking Config.reference [1, 0xAB, 0xCD, 0xEF] 2 1 HeaderContext.zero)) 2 =
      some (0xABCDEF, 4) := by decide +kernel

/-- V-F-7 and V-F-8. -/
theorem test_lsbDecompress_1 :
    fieldValue (exec (.lsbDecompress 0x1630 16 12 .msb) (walking (setD true) [1, 0x3F] 15 1 HeaderContext.zero)) 15 =
      some (0x163F, 2) := by decide +kernel
theorem test_lsbDecompress_2 :
    fieldValue (exec (.lsbDecompress 0x1630 16 12 .msb) (walking (setD false) [1, 0x3F] 15 1 HeaderContext.zero)) 15 =
      some (0x1630, 1) := by decide +kernel

/-- R99 and R100: the placeholder 0, which the synthesiser replaces later (V-F-12, V-F-14). -/
theorem test_cmpDecompress :
    fieldValue (exec (.cmpDecompress 0 16 0 .ign) (walking Config.reference [1] 3 1 (hcWith 3 7))) 3 = some (0, 1) := by
  decide +kernel
theorem test_cksDecompress :
    fieldValue (exec (.cksDecompress 0 16 0 .ign) (walking Config.reference [1] 17 1 (hcWith 17 7))) 17 = some (0, 1) := by
  decide +kernel

/-- V-F-11 at position 9, and V-D-7's raise. -/
theorem test_devDecompress_1 :
    fieldValue (exec (.devDecompress 0 32 0 .ign) (walking Config.reference [1] 9 1 HeaderContext.zero)) 9 =
      some (0x34120090, 1) := by decide +kernel
theorem test_devDecompress_2 :
    results (exec (.devDecompress 0x49D5B370 32 0 .eq) (walking (shortIdentity 4) (0x01 :: payload) 8 1 HeaderContext.zero)) =
      some (0x00080142, 0, 0) := by decide +kernel

/-! ## The header and the bus -/

/-- V-P-1, V-P-3 and V-P-5. -/
theorem test_parse : (parseHeader Config.reference headerH).toList =
    [0x6, 0x0, 0x0, 0xC, 0x11, 0xFF, 0x000080FE, 0x0, 0x49D5B370, 0x34120090, 0x000080FE, 0x0, 0x0, 0x01000000, 0x043E,
      0x1633, 0xC, 0xABCD] := by decide +kernel
theorem test_parse_udpLe : (parseHeader { Config.reference with udpLe := true } headerH).toList.drop 14 =
    [0x3E04, 0x3316, 0x0C00, 0xCDAB] := by decide +kernel
theorem test_serialize : (serializeHeader Config.reference (hcWith 2 0xABCDEF)).take 4 = [0x00, 0x0B, 0xCD, 0xEF] := by
  decide +kernel

/-- V-MEM-3, V-MEM-4, V-MEM-5, V-X-5 and V-X-6. -/
theorem test_rom : readOf State.reset 0x300B8 4 = some 0x40 ∧ readOf State.reset 0x300BC 4 = some 0x5008 ∧
    readOf State.reset 0x3F004 4 = some 2 ∧ readOf State.reset 0x3F008 4 = some 0 ∧
    readOf State.reset 0x30004 1 = some 0x04 := by decide +kernel
theorem test_reset_registers : ([0x00, 0x04, 0x08, 0x0C, 0x10, 0x14, 0x18, 0x1C, 0x20, 0x24].map fun a =>
    readOf State.reset (BitVec.ofNat 18 a) 4) =
    [some 0, some 0, some 0, some 0, some 0, some 2, some 0, some 0, some 8, some 0] := by decide +kernel

/-- V-MEM-1 and V-MEM-7. -/
theorem test_ibuf : (nextOf (step { State.reset with inputs := [.write 0x10000 4 0x00000060] })).map
    (fun s => [0x10000, 0x10001, 0x10002, 0x10003].map fun a => readOf s (BitVec.ofNat 18 a) 1) =
    some [some 0x60, some 0, some 0, some 0] := by decide +kernel
theorem test_refused : refusalOf (step { State.reset with inputs := [.read 0x00004 1] }) = some .illegalAccess ∧
    refusalOf (step { State.reset with inputs := [.write 0x10002 4 0] }) = some .illegalAccess := by decide +kernel

/-- V-X-4 and V-X-1. -/
theorem test_busy : readOf (started Config.reference [] 1 []) 0x00004 4 = some 1 := by decide +kernel
theorem test_illegal : results (step (started Config.reference [] 7 [])) = some (0x00FF0052, 0, 0) := by decide +kernel

/-! ## Witnesses: for each obligation with hypotheses, concrete values that meet them all -/

theorem witness_EncodedInstructionsDecode :
    (∀ d, (Instr.matchMsb 0xFFFFFFFF 32 32 .dev).descriptor = some d → d.wf3 = true ∧ d.wf4 = true) ∧
    (∀ d, Instr.compress.descriptor = some d → d.wf3 = true ∧ d.wf4 = true) := by
  refine ⟨fun d h => ?_, fun d h => by cases h⟩
  cases h
  decide

theorem witness_DecodedWordsEncodeBack :
    decode .decoder [0x70, 0xB3, 0xD5, 0x49, 0x20, 0x40, 0x01, 0x00, 0xFF] = .ok (.devDecompress 0x49D5B370 32 0 .eq) ∧
    decode .cmd [0x04, 0x00, 0x00, 0x00, 0xFF] = .ok .idsynth := by decide +kernel

theorem witness_DescriptorWordLayout : decodeFd 0x0001682000000000 = .ok ⟨0, 32, 32, .msb, .dev⟩ ∧
    (∀ d, decodeFd 0x0000300000000000 ≠ .ok d) ∧ Port.comparator ≠ .cmd := by
  refine ⟨by decide +kernel, fun d => ?_, by decide⟩
  rw [show decodeFd 0x0000300000000000 = .rejected .reservedMatchOp by decide +kernel]
  exact fun h => by cases h

theorem witness_ConfigurationChecks :
    decodeFd 0x0000300000000000 = .rejected .reservedMatchOp ∧
    (List.replicate 18 (0x0000300000000000 : FdWord))[17]? = some 0x0000300000000000 ∧
    (loaded (shortIdentity 9) []).cfg.wf = false := by decide +kernel

theorem witness_StepRunsDecodedInstruction :
    (EngineTurn (started Config.reference packetX 1 [.engine]) [] ∧
      (started Config.reference packetX 1 [.engine]).status.busy = true ∧
      (started Config.reference packetX 1 [.engine]).pend = some 1 ∧ decode .cmd (toLE (1 : Word).toNat 4) = .ok .compress) ∧
    EngineTurn (started Config.reference packetX 1 []) [] ∧
    ((State.reset.withDescriptor .decoder 0x0001402049D5B370).cfg.wf = true ∧
      (State.reset.withDescriptor .decoder 0x0001402049D5B370).walk.mux = some (.decoder, 0x0001402049D5B370) ∧
      Port.decoder ≠ .cmd ∧
      decode .decoder (toLE (0x0001402049D5B370 : FdWord).toNat 8) = .ok (.devDecompress 0x49D5B370 32 0 .eq) ∧
      (Instr.devDecompress 0x49D5B370 32 0 .eq).wfAt
        (State.reset.withDescriptor .decoder 0x0001402049D5B370).walk.j = true) := by decide +kernel

theorem witness_IdleEngineHasNoStep : EngineTurn State.reset [] ∧ State.reset.status.busy = false ∧
    EngineTurn { State.reset with inputs := [.engine, .reset] } [.reset] := by decide +kernel

/-- One CMD value for each clause of the disjunction, at the boundaries. -/
theorem witness_IllegalCommandCompletes : ([(0x11 : Word), 0x10, 0, 5, 15, 0xFFFFFFFF].all fun v => decide
    (EngineTurn (started Config.reference [] v []) [] ∧ (started Config.reference [] v []).status.busy = true ∧
      (started Config.reference [] v []).pend = some v ∧
      (v.toNat / 16 ≠ 0 ∨ v.toNat % 16 = 0 ∨ 5 ≤ v.toNat % 16))) = true := by decide +kernel

theorem witness_LengthErrorCompletes :
    ((loaded Config.reference []).cfg.wf = true ∧ (loaded Config.reference []).frameLen = 0) ∧
    (loaded Config.reference (List.replicate 255 0)).frameLen = (loaded Config.reference []).cfg.bufBytes ∧
    (loaded Config.reference []).cfg.bufBytes < (loaded Config.reference (List.replicate 256 0)).frameLen := by
  decide +kernel

theorem witness_EqualAndIgnoreLanes : (walking Config.reference [] 17 0 HeaderContext.zero).walk.j < 18 := by decide

theorem witness_MsbLane : (walking Config.reference [] 17 0 HeaderContext.zero).walk.j < 18 ∧
    (32 : BitVec 6).toNat ≤ 32 ∧ (32 : BitVec 6).toNat ≤ (32 : BitVec 6).toNat := by decide

theorem witness_RuleMatchesWhenEveryLaneAccepts : ruleMatches exampleRule1 (parseHeader Config.reference headerH) = true ∧
    exampleRule1.fields[17]? = some (fdCsum 16) := by decide +kernel

theorem witness_SelectIsFirstMatch :
    (Config.reference.scanFirstOnly = false ∧
      selectRule Config.reference (parseHeader Config.reference headerH64) = some 1 ∧
      selectRule Config.reference (parseHeader Config.reference headerHT) = none) ∧
    selectRule { Config.reference with scanFirstOnly := true } (parseHeader Config.reference headerH) = some 0 ∧
    selectRule { Config.reference with scanFirstOnly := true } (parseHeader Config.reference headerH64) = none := by
  decide +kernel

theorem witness_MatchReportsSelectedRule :
    ((loaded Config.reference headerH64).cfg.wf = true ∧ (loaded Config.reference headerH64).frameLen ≤ 255 ∧
      48 ≤ (loaded Config.reference headerH64).frameLen ∧
      selectRule Config.reference (parseHeader Config.reference ((loaded Config.reference headerH64).input.take 48)) =
        some 1) ∧
    (loaded Config.reference (headerH.take 47)).frameLen < 48 ∧
    selectRule Config.reference (parseHeader Config.reference ((loaded Config.reference headerHT).input.take 48)) = none := by
  decide +kernel

theorem witness_ParsedFieldValues : headerH.length = 48 := by decide

theorem witness_SerializeAndParseAreInverse : 17 < 18 ∧ headerH.length = 48 := by decide

theorem witness_SilentActionsEmitNothing : (walking Config.reference [] 17 0 HeaderContext.zero).walk.j < 18 ∧
    Instr.devCompress 0 32 0 .ign ∈ [Instr.nsCompress 0 32 0 .ign, .lsbCompress 0 32 0 .ign, .cmpCompress 0 32 0 .ign,
      .cksCompress 0 32 0 .ign, .devCompress 0 32 0 .ign] := by decide

/-- A big-endian position, a little-endian one, and each byte of the longest value. -/
theorem witness_ValueSentEmission : ∀ j ∈ [0, 2, 3, 17], ∀ i ∈ [0, 3],
    (walking Config.reference [] j 0 HeaderContext.zero).walk.j < 18 ∧ i < ((32 : BitVec 6).toNat + 7) / 8 := by decide

theorem witness_CompressUnderMatchingRule :
    (loaded Config.reference (headerH64 ++ payload)).cfg.wf = true ∧
    48 ≤ (loaded Config.reference (headerH64 ++ payload)).frameLen ∧
    (loaded Config.reference (headerH64 ++ payload)).frameLen ≤ Config.reference.bufBytes ∧
    selectRule Config.reference
      (parseHeader Config.reference ((loaded Config.reference (headerH64 ++ payload)).input.take 48)) = some 1 ∧
    Config.reference.rules[1]? = some exampleRule2 ∧
    (residualBytes Config.reference exampleRule2 (parseHeader Config.reference headerH64))[0]? = some 0x40 := by
  decide +kernel

theorem witness_CompressPassesThrough :
    ((loaded Config.reference (headerH.take 47)).cfg.wf = true ∧
      (loaded Config.reference (headerH.take 47)).frameLen ≤ 255 ∧
      (loaded Config.reference (headerH.take 47)).frameLen < 48) ∧
    ((loaded Config.reference headerHT).frameLen ≤ 255 ∧
      selectRule Config.reference
        (parseHeader Config.reference ((loaded Config.reference headerHT).input.take 48)) = none) := by decide +kernel

theorem witness_CompressedSizeLaw : Config.reference.wf = true ∧
    compressInput Config.reference headerH64 = .cmpMatched [0x02, 0x40] 1 2 ∧
    Config.reference.rules[1]? = some exampleRule2 := by decide +kernel

theorem witness_NotSentAndDeferredFields : (walking Config.reference [1] 17 1 HeaderContext.zero).walk.j < 18 ∧
    (Instr.cmpDecompress 5 16 0 .ign, (0 : Word)) ∈ [(Instr.nsDecompress 5 16 0 .ign, (5 : Word)),
      (.cmpDecompress 5 16 0 .ign, 0), (.cksDecompress 5 16 0 .ign, 0)] := by decide

/-- The longest read that just fits, at a big-endian and a little-endian position, and the empty read. -/
theorem witness_ValueSentField : ∀ j ∈ [2, 17],
    (walking Config.reference [1, 2, 3, 4, 5] j 1 HeaderContext.zero).walk.j < 18 ∧ (32 : BitVec 6).toNat ≤ 32 ∧
      (walking Config.reference [1, 2, 3, 4, 5] j 1 HeaderContext.zero).walk.off + ((32 : BitVec 6).toNat + 7) / 8 ≤
        (walking Config.reference [1, 2, 3, 4, 5] j 1 HeaderContext.zero).frameLen ∧
      ((0 : BitVec 6).toNat + 7) / 8 = 0 := by decide +kernel

/-- With and without P_LSB_DEC_READ. -/
theorem witness_LeastSignificantBitsField : ∀ read ∈ [true, false],
    (walking (setD read) [1, 0x3F] 17 1 HeaderContext.zero).walk.j < 18 ∧ (16 : BitVec 6).toNat ≤ 32 ∧
      (12 : BitVec 6).toNat ≤ (16 : BitVec 6).toNat ∧ (setD read).lsbDecRead = read ∧
      (walking (setD read) [1, 0x3F] 17 1 HeaderContext.zero).walk.off + (16 - 12 + 7) / 8 ≤
        (walking (setD read) [1, 0x3F] 17 1 HeaderContext.zero).frameLen := by decide +kernel

theorem witness_DeviceIdentityField : ∀ j ∈ [8, 9, 12, 13],
    iidPosition (walking Config.reference [1] j 1 HeaderContext.zero).walk.j = true ∧
      8 ≤ (walking Config.reference [1] j 1 HeaderContext.zero).cfg.devidLen := by decide

/-- One missing byte for each of the two reads, an identity of 7 bytes, and an empty frame. -/
theorem witness_FieldRaiseEndsCommand :
    ((walking Config.reference [1, 2, 3, 4] 17 1 HeaderContext.zero).walk.j < 18 ∧ ((32 : BitVec 6).toNat + 7) / 8 ≠ 0 ∧
      (walking Config.reference [1, 2, 3, 4] 17 1 HeaderContext.zero).frameLen < 1 + ((32 : BitVec 6).toNat + 7) / 8) ∧
    ((setD true).lsbDecRead = true ∧ ((16 : BitVec 6).toNat - (12 : BitVec 6).toNat + 7) / 8 ≠ 0 ∧
      (walking (setD true) [1] 17 1 HeaderContext.zero).frameLen <
        1 + ((16 : BitVec 6).toNat - (12 : BitVec 6).toNat + 7) / 8) ∧
    (walking (shortIdentity 7) [1] 8 1 HeaderContext.zero).cfg.devidLen < 8 ∧
    (walking (shortIdentity 7) [] 8 1 HeaderContext.zero).frameLen = 0 := by decide +kernel

theorem witness_DecompressPassesThrough : ∀ bs ∈ [[(0x00 : Byte)], [0x00, 0xAA, 0xBB]],
    (loaded Config.reference bs).cfg.wf = true ∧ 1 ≤ (loaded Config.reference bs).frameLen ∧
      (loaded Config.reference bs).frameLen ≤ (loaded Config.reference bs).cfg.bufBytes ∧
      Memory.read (loaded Config.reference bs).ibuf 0 = some 0 := by decide +kernel

theorem witness_DecompressRejectsFrames :
    ((loaded Config.reference []).cfg.wf = true ∧ (loaded Config.reference []).frameLen = 0) ∧
    (1 ≤ (loaded Config.reference [3]).frameLen ∧ (loaded Config.reference [3]).frameLen ≤ 255 ∧
      (loaded Config.reference [3]).cfg.nRules < ((loaded Config.reference [3]).ibufByte 0).toNat) := by decide +kernel

theorem witness_DecompressUnderRule :
    ((loaded Config.reference [2]).cfg.wf = true ∧ 1 ≤ (loaded Config.reference [2]).frameLen ∧
      (loaded Config.reference [2]).frameLen ≤ 255 ∧ (loaded Config.reference [2]).ibufByte 0 ≠ 0 ∧
      Config.reference.rules[((loaded Config.reference [2]).ibufByte 0).toNat - 1]? = some exampleRule2 ∧
      fieldWalk Config.reference (loaded Config.reference [2]).input (ruleFields exampleRule2) HeaderContext.zero 1 =
        .raised .truncatedBuffer 5) ∧
    walked (fieldWalk Config.reference (loaded Config.reference [2, 0x40]).input (ruleFields exampleRule2)
      HeaderContext.zero 1) = some (2, 0x40) := by decide +kernel

theorem witness_WalkConsumesResidualLength : 1 ≤ ([2, 0x40] : List Byte).length ∧
    walked (fieldWalk Config.reference [2, 0x40] (ruleFields exampleRule2) HeaderContext.zero 1) = some (2, 0x40) := by decide +kernel

theorem witness_WalkReportsFirstRaise :
    fieldWalk (shortIdentity 4) [1] (ruleFields exampleRule1) HeaderContext.zero 1 = .raised .invalidDeviceIdentity 8 := by
  decide +kernel

theorem witness_CommandsAreTheirFieldOperations :
    walked (fieldWalk Config.reference (loaded Config.reference [2, 0x40]).input (ruleFields exampleRule2)
      HeaderContext.zero 1) = some (2, 0x40) ∧
    (fieldWalk Config.reference (loaded Config.reference [2]).input (ruleFields exampleRule2) HeaderContext.zero 1 =
        .raised .truncatedBuffer 5 ∧ 1 ≤ (loaded Config.reference [2]).frameLen ∧
      (loaded Config.reference [2]).frameLen ≤ 255 ∧ (loaded Config.reference [2]).ibufByte 0 ≠ 0 ∧
      Config.reference.rules[((loaded Config.reference [2]).ibufByte 0).toNat - 1]? = some exampleRule2) := by
  decide +kernel

/-- Rule 2 has a ValueSent field away from positions 2 and 3, derived fields, deferred fields and no LSB field. -/
theorem witness_RoundTripLaw : Config.reference.wf = true ∧ headerH64.length = 48 ∧
    headerH64.length + payload.length ≤ Config.reference.bufBytes ∧
    compressInput Config.reference (headerH64 ++ payload) = .cmpMatched (0x02 :: 0x40 :: payload) 1 2 ∧
    Config.reference.rules[1]? = some exampleRule2 ∧
    (Config.reference.lsbDecRead = false ∨ ∀ d ∈ exampleRule2.fields.toList, d.act ≠ .lsb) ∧
    Config.reference.cmpFlplLe = false ∧ Config.reference.devidLen = 8 ∧
    exampleRule2.fields[5]? = some (fdSent 8 64) := by decide +kernel

theorem witness_IdsynthResult : 8 ≤ (loaded Config.reference []).cfg.devidLen ∧
    (loaded (shortIdentity 7) []).cfg.devidLen < 8 := by decide

theorem witness_CmdWriteStartsCommand :
    NextEvent { loaded Config.reference packetX with inputs := [.write 0 4 1] } (.write 0 4 1) [] ∧
    (loaded Config.reference packetX).status.busy = false := by decide +kernel

theorem witness_InLenWriteSetsLength :
    NextEvent { loaded Config.reference [] with inputs := [.write 8 4 0xFFFF0034] } (.write 8 4 0xFFFF0034) [] ∧
    (loaded Config.reference []).status.busy = false := by decide +kernel

/-- CMD, IN_LEN, the first and the last byte of IBUF. -/
theorem witness_BusyWritesRefused : ∀ an ∈ [((0x00000 : BitVec 18), 4), (0x00008, 4), (0x10000, 1), (0x100FE, 1)],
    NextEvent (started Config.reference [] 1 [.write an.1 an.2 0]) (.write an.1 an.2 0) [] ∧
      (started Config.reference [] 1 []).status.busy = true ∧ accessLegal an.1 an.2 = true ∧
      (an.1.toNat = 0 ∨ an.1.toNat = 8 ∨
        (0x10000 ≤ an.1.toNat ∧ an.1.toNat < 0x10000 + Config.reference.bufBytes)) := by decide +kernel

/-- The two sides of the equivalence in and outside the REG window. -/
theorem witness_IllegalAccessesRefused : ∀ an ∈ [((0x00004 : BitVec 18), 1), (0x00004, 4), (0x10001, 4), (0x10001, 1)],
    NextEvent { State.reset with inputs := [.read an.1 an.2] } (.read an.1 an.2) [] ∧
      NextEvent { State.reset with inputs := [.write an.1 an.2 0] } (.write an.1 an.2 0) [] := by decide +kernel

/-- A word across the end of IBUF: three bytes stored, one ignored. -/
theorem witness_IbufWriteStoresLittleEndian :
    NextEvent { State.reset with inputs := [.write 0x100FC 4 1] } (.write 0x100FC 4 1) [] ∧
      State.reset.status.busy = false ∧ accessLegal 0x100FC 4 = true ∧ windowOf 0x100FC = .ibuf ∧
      windowOffset 0x100FC + 2 < Config.reference.bufBytes ∧ Config.reference.bufBytes ≤ windowOffset 0x100FC + 3 := by
  decide +kernel

/-- STATUS, the last reserved offset, the first word beyond IBUF, OBUF and ROM; while BUSY = 1. -/
theorem witness_ReadOnlyWritesIgnored :
    ([(0x00004 : BitVec 18), 0x0FFFC, 0x10100, 0x20000, 0x30000, 0x3FFFC].all fun a => decide
    (NextEvent (started Config.reference [] 1 [.write a 4 0]) (.write a 4 0) [] ∧ accessLegal a 4 = true ∧
      (a.toNat < 0x10000 ∧ a.toNat ≠ 0 ∧ a.toNat ≠ 8 ∨ 0x10000 + Config.reference.bufBytes ≤ a.toNat))) = true := by
  decide +kernel

/-- STATUS read twice while BUSY = 1, OUT_LEN while BUSY = 0. -/
theorem witness_ReadsLeaveStateAlone :
    NextEvent (started Config.reference [] 1 [.read 4 4, .read 4 4]) (.read 4 4) [.read 4 4] ∧ accessLegal 4 4 = true ∧
    NextEvent { State.reset with inputs := [.read 0x0C 4, .read 0x0C 4] } (.read 0x0C 4) [.read 0x0C 4] ∧
    State.reset.status.busy = false := by decide +kernel

/-- Every register offset, the first reserved one and the last. -/
theorem witness_RegisterReadValues :
    ([(0x00 : BitVec 18), 0x04, 0x08, 0x0C, 0x10, 0x14, 0x18, 0x1C, 0x20, 0x24, 0xFFFC].all fun a => decide
    (NextEvent { State.reset with inputs := [.read a 4] } (.read a 4) [] ∧ a.toNat < 0x10000 ∧ a.toNat % 4 = 0 ∧
      State.reset.status.busy = false)) = true := by decide +kernel

/-- IBUF while busy, OBUF while idle, each up to and beyond the buffer's end. -/
theorem witness_BufferReadValues :
    (∀ an ∈ [((0x100FC : BitVec 18), 4), (0x100FF, 1)],
      NextEvent (started Config.reference [] 1 [.read an.1 an.2]) (.read an.1 an.2) [] ∧ accessLegal an.1 an.2 = true ∧
        windowOf an.1 = .ibuf) ∧
    (∀ an ∈ [((0x2012C : BitVec 18), 4), (0x2012E, 1)],
      NextEvent { State.reset with inputs := [.read an.1 an.2] } (.read an.1 an.2) [] ∧ accessLegal an.1 an.2 = true ∧
        windowOf an.1 = .obuf ∧ State.reset.status.busy = false) := by decide +kernel

/-- The last descriptor of rule set A, low and high half, the last id, and the words just past both. -/
theorem witness_RomWindowContents :
    ([((0x30118 : BitVec 18), 4), (0x3011C, 4), (0x3F004, 4), (0x30120, 4), (0x3EFFC, 4), (0x3F008, 4), (0x3FFFC, 4),
        (0x30118, 1), (0x3011F, 1), (0x30120, 1), (0x3F004, 1), (0x3F007, 1), (0x3F008, 1), (0x3FFFF, 1)].all fun an =>
      decide (NextEvent { State.reset with inputs := [.read an.1 an.2] } (.read an.1 an.2) [] ∧ 0x30000 ≤ an.1.toNat ∧
        accessLegal an.1 an.2 = true)) = true ∧
    (0x3011F : BitVec 18).toNat = 0x30000 + 8 * (18 * 1 + 17) + 7 ∧ (0x3F007 : BitVec 18).toNat = 0x3F000 + 4 * 1 + 3 ∧
    Config.reference.rules[1]? = some exampleRule2 ∧ exampleRule2.fields[17]? = some (fdCsum 16) ∧
    (0x30118 : BitVec 18).toNat = 0x30000 + 8 * (18 * 1 + 17) ∧ (0x3F004 : BitVec 18).toNat = 0x3F000 + 4 * 1 ∧
    (0x30120 : BitVec 18).toNat = 0x30000 + 144 * Config.reference.nRules ∧
    (0x3F008 : BitVec 18).toNat = 0x3F000 + 4 * Config.reference.nRules := by decide +kernel

theorem witness_ResetInputResets : NextEvent (started Config.reference packetX 1 [.reset]) .reset [] ∧
    (started Config.reference packetX 1 [.reset]).status.busy = true := by decide +kernel

theorem witness_ConfigurationNeverChanges : ∃ t, step (started Config.reference packetX 1 []) = .next t :=
  next_of_isSome (by decide +kernel)

/-- An IDSYNTH that changes the words, and a reset that clears them. -/
theorem witness_OnlyIdsynthWritesIdentityWords :
    (started Config.reference [] 4 []).walk.mux = none ∧ EngineTurn (started Config.reference [] 4 []) [] ∧
    (nextOf (step (started Config.reference [] 4 []))).map (fun t => (t.idw0, t.idw1)) = some (0x49D5B370, 0x34120090) ∧
    (nextOf (step { State.reset with idw0 := 5, inputs := [.reset] })).map State.idw0 = some 0 := by decide +kernel

theorem witness_EngineNeverWritesInput : (∃ t, step (started Config.reference packetX 1 []) = .next t) ∧
    (∀ a n v rest, (started Config.reference packetX 1 []).inputs ≠ .write a n v :: rest) ∧
    (∀ rest, (started Config.reference packetX 1 []).inputs ≠ .reset :: rest) :=
  ⟨next_of_isSome (by decide +kernel), fun _ _ _ _ h => (by cases h), fun _ h => (by cases h)⟩

/-- A CMD write, an Engine turn and a reset, each of which changes STATUS. -/
theorem witness_OnlyCommandsChangeStatus :
    ∀ s ∈ [{ State.reset with inputs := [.write 0 4 1] }, started Config.reference packetX 1 [],
      started Config.reference packetX 1 [.reset]],
    s.walk.mux = none ∧ (nextOf (step s)).map (fun t => decide (t.status = s.status)) = some false := by decide +kernel

theorem witness_BusyUntilEngineStep :
    NextEvent (started Config.reference packetX 1 [.read 4 4]) (.read 4 4) [] ∧ Event.read 4 4 ≠ .engine ∧
    Event.read 4 4 ≠ .reset ∧ (started Config.reference packetX 1 [.read 4 4]).status.busy = true ∧
    (nextOf (step (started Config.reference packetX 1 [.read 4 4]))).isSome = true := by decide +kernel

theorem witness_StartedCommandCompletes :
    (started Config.reference packetX 1 [.read 4 4, .read 0x20000 4]).cfg.wf = true ∧
    (started Config.reference packetX 1 [.read 4 4, .read 0x20000 4]).Inv ∧
    (started Config.reference packetX 1 [.read 4 4, .read 0x20000 4]).status.busy = true ∧
    (∀ ev ∈ (started Config.reference packetX 1 [.read 4 4, .read 0x20000 4]).inputs,
      ∃ a n, ev = .read a n ∧ accessLegal a n = true) := by
  refine ⟨by decide +kernel, by decide +kernel, rfl, fun ev h => ?_⟩
  rcases List.mem_cons.1 h with rfl | h
  · exact ⟨_, _, rfl, by decide⟩
  · rcases List.mem_cons.1 h with rfl | h
    · exact ⟨_, _, rfl, by decide⟩
    · cases h

/-- A buffer that differs from index L on. -/
theorem witness_BytesBeyondLengthIrrelevant : (∀ x, x < (loaded Config.reference [1, 2]).frameLen →
    State.ibufByte { loaded Config.reference [1, 2] with ibuf := Memory.ofBytes 0 [1, 2, 3], ibufDraw := 0 } x =
      (loaded Config.reference [1, 2]).ibufByte x) ∧
    Memory.ofBytes 0 [1, 2, 3] ≠ (loaded Config.reference [1, 2]).ibuf := by decide +kernel

theorem witness_EveryStepKeepsInvariant : (started Config.reference packetX 1 []).Inv ∧
    (nextOf (step (started Config.reference packetX 1 []))).isSome = true := by decide +kernel

end Sys2Proof.Tests
end

namespace Sys2Proof.Machine

/-! ## The idle Engine (spec/00_scope.md R12) -/

/-- BUSY alone enables the Engine (R67): a pending value makes no difference to an idle one. -/
theorem State.engineStep_of_not_busy {s : State} (h : s.status.busy = false) : s.engineStep = .fault .noStep := by
  simp [State.engineStep, h]

/-- Settles O8: in both kinds of Engine turn the step is the Engine's own, and taking the turn off the list leaves
STATUS, so BUSY = 0 still disables it. -/
theorem idleEngineHasNoStep : Obligations.IdleEngineHasNoStep := by
  intro s rest hturn hidle
  calc step s = State.engineStep { s with inputs := rest } := step_engineTurn hturn
    _ = .fault .noStep := State.engineStep_of_not_busy hidle

end Sys2Proof.Machine

namespace Sys2Proof.Machine

/-! ## What a step of an idle walk can do -/

/-- With no descriptor presented a step is the Engine's turn, a host access or the reset input; both kinds of Engine
turn are one case. -/
theorem step_next_of_mux_none {s t : State} (hm : s.walk.mux = none) (h : step s = .next t) :
    ∃ rest,
      (EngineTurn s rest ∧ State.engineStep { s with inputs := rest } = .next t) ∨
      (∃ a n, NextEvent s (.read a n) rest ∧ State.hostRead a n { s with inputs := rest } = .next t) ∨
      (∃ a n v, NextEvent s (.write a n v) rest ∧ State.hostWrite a n v { s with inputs := rest } = .next t) ∨
      (NextEvent s .reset rest ∧ t = State.resetInput { s with inputs := rest }) := by
  obtain ⟨hwf, ⟨u, w, i, hmux, -⟩ | ⟨-, hev⟩⟩ := step_next h
  · simp [hm] at hmux
  · rcases hev with ⟨hin, -⟩ | ⟨rest, hin, he⟩ | ⟨a, n, rest, hin, hr⟩ | ⟨a, n, v, rest, hin, hw⟩ | ⟨rest, hin, ht⟩
    · have hturn : EngineTurn s [] := ⟨hwf, hm, .inr ⟨hin, rfl⟩⟩
      exact ⟨[], .inl ⟨hturn, (step_engineTurn hturn).symm.trans h⟩⟩
    · exact ⟨rest, .inl ⟨⟨hwf, hm, .inl hin⟩, he⟩⟩
    · exact ⟨rest, .inr (.inl ⟨a, n, ⟨hwf, hm, hin⟩, hr⟩)⟩
    · exact ⟨rest, .inr (.inr (.inl ⟨a, n, v, ⟨hwf, hm, hin⟩, hw⟩))⟩
    · exact ⟨rest, .inr (.inr (.inr ⟨⟨hwf, hm, hin⟩, ht⟩))⟩

/-- A command's Engine step is the commit of its result (R67). -/
theorem exec_of_commandResult {s : State} {i : Instr} {r : CmdResult} (h : commandResult s i = some r) :
    exec i s = .next (s.commit r) := by
  cases i with
  | compress | decompress | matchCmd | idsynth => cases h; rfl
  | _ => cases h

/-! ## The STATUS word -/

/-- Every result clears BUSY and sets DONE (R67). -/
@[simp] theorem CmdResult.status_busy (r : CmdResult) : r.status.busy = false := by cases r <;> rfl

@[simp] theorem CmdResult.status_done (r : CmdResult) : r.status.done = true := by cases r <;> rfl

@[simp] theorem Status.word_zero : Status.zero.word = 0 := by decide

@[simp] theorem Status.word_started : Status.started.word = 1 := by decide

/-- Settles O45: `word` is a concatenation, and `toNat_append` reads each field off at its place. -/
theorem statusWordLayout : Obligations.StatusWordLayout := by
  intro st
  simp only [Status.word, toNat_append, BitVec.toNat_ofBool]
  simp only [BitVec.ofNat_eq_ofNat, BitVec.toNat_ofNat]
  omega

/-! ## Reset -/

/-- Settles O48. -/
theorem resetRegisterValues : Obligations.ResetRegisterValues := by
  intro cfg
  exact ⟨rfl, Status.word_zero, rfl, rfl, rfl, rfl, rfl, rfl, HeaderContext.get_zero, rfl, rfl⟩

/-- Settles O58: reset leaves no command pending, STATUS and both lengths zero, and both buffers without a listed byte. -/
theorem resetMeetsInvariant : Obligations.ResetMeetsInvariant := by
  intro cfg
  have hstatus : (State.afterReset cfg).StatusLegal := by
    simp [State.StatusLegal, State.afterReset, Status.zero]
  have herr : (State.afterReset cfg).ErrorClearsLengths := fun h => absurd rfl h
  have hlen : (State.afterReset cfg).LengthsFit := by simp [State.LengthsFit, State.afterReset]
  have hbuf : (State.afterReset cfg).BuffersCanonical := ⟨Memory.wf_nil _, Memory.wf_nil _⟩
  have hdraws : (State.afterReset cfg).DrawsFresh := by simp [State.DrawsFresh, State.afterReset]
  exact ⟨rfl, rfl, hstatus, herr, hlen, hbuf, hdraws⟩

/-! ## Host writes of CMD and IN_LEN -/

theorem State.hostWrite_cmd {s : State} (v : Word) (h : s.status.busy = false) :
    s.hostWrite 0 4 v = .next (s.startCommand v) := by
  simp [State.hostWrite, accessLegal, windowOf, windowOffset, State.writeReg, h]

theorem State.hostWrite_inLen {s : State} (v : Word) (h : s.status.busy = false) :
    s.hostWrite 8 4 v = .next { s with inLen := v.setWidth 16 } := by
  simp [State.hostWrite, accessLegal, windowOf, windowOffset, State.writeReg, h]

/-- Settles O37: the step is the start of the command, which sets PEND and STATUS alone. -/
theorem cmdWriteStartsCommand : Obligations.CmdWriteStartsCommand := by
  intro s v rest hev hidle
  refine ⟨State.startCommand v { s with inputs := rest }, (step_write hev).trans (State.hostWrite_cmd v hidle), ?_⟩
  exact ⟨rfl, Status.word_started, rfl, rfl, rfl, rfl, ⟨rfl, rfl⟩, fun _ => rfl, fun _ => rfl, rfl, rfl, rfl⟩

/-- Settles O38: the register keeps the value's low 16 bits. -/
theorem inLenWriteSetsLength : Obligations.InLenWriteSetsLength := by
  intro s v rest hev hidle
  refine ⟨{ s with inputs := rest, inLen := v.setWidth 16 }, (step_write hev).trans (State.hostWrite_inLen v hidle), ?_⟩
  exact ⟨BitVec.toNat_setWidth .., rfl, rfl, rfl, rfl, ⟨rfl, rfl⟩, rfl, fun _ => rfl, fun _ => rfl, rfl, rfl, rfl⟩

/-! ## Register reads -/

theorem State.hostRead_open {s : State} {a : BitVec 18} {n : Nat} (hl : accessLegal a n = true)
    (ho : (s.status.busy && unspecifiedWhileBusy a) = true) :
    s.hostRead a n = .next { s with rdata := lowBytes (Config.freeWord s.draws) n, draws := s.draws + 1 } := by
  simp only [State.hostRead, hl, ho]
  rfl

theorem State.hostRead_fixed {s : State} {a : BitVec 18} {n : Nat} (hl : accessLegal a n = true)
    (ho : (s.status.busy && unspecifiedWhileBusy a) = false) :
    s.hostRead a n = .next { s with rdata := s.readValue a n } := by
  simp only [State.hostRead, hl, ho]
  rfl

/-! What a read of the REG window returns (R22, R37). -/

theorem windowOffset_of_reg {a : BitVec 18} (h : a.toNat < 0x10000) : windowOffset a = a.toNat := Nat.mod_eq_of_lt h

theorem State.readValue_of_reg (s : State) {a : BitVec 18} (n : Nat) (h : a.toNat < 0x10000) :
    s.readValue a n = s.readReg a.toNat := by
  rw [State.readValue, (windowOf_iff a).1.2 h, windowOffset_of_reg h]

/-- The registers whose value is left open while BUSY = 1 (R127). -/
theorem unspecifiedWhileBusy_of_reg {a : BitVec 18} (h : a.toNat < 0x10000) : unspecifiedWhileBusy a = true ↔
    a.toNat = 0x0C ∨ a.toNat = 0x10 ∨ a.toNat = 0x18 ∨ a.toNat = 0x1C := by
  simp [unspecifiedWhileBusy, (windowOf_iff a).1.2 h, windowOffset_of_reg h, or_assoc]

theorem State.toNat_readReg_inLen (s : State) : (s.readReg 0x08).toNat = s.inLen.toNat :=
  BitVec.toNat_setWidth_of_le (b := s.inLen) (show 16 ≤ 32 by decide)

theorem State.toNat_readReg_outLen (s : State) : (s.readReg 0x0C).toNat = s.outLen.toNat :=
  BitVec.toNat_setWidth_of_le (b := s.outLen) (show 16 ≤ 32 by decide)

theorem State.toNat_readReg_hdrLen (s : State) : (s.readReg 0x10).toNat = s.hdrLen.toNat :=
  BitVec.toNat_setWidth_of_le (b := s.hdrLen) (show 16 ≤ 32 by decide)

/-- WF1 keeps N_RULES inside the register's 8 bits. -/
theorem State.toNat_readReg_nRules {s : State} (h : s.cfg.wf = true) : (s.readReg 0x14).toNat = s.cfg.nRules := by
  obtain ⟨-, -, -, hrules⟩ := Config.wf_ranges h
  calc (s.readReg 0x14).toNat = (BitVec.ofNat 8 s.cfg.nRules).toNat :=
        BitVec.toNat_setWidth_of_le (b := BitVec.ofNat 8 s.cfg.nRules) (show 8 ≤ 32 by decide)
    _ = s.cfg.nRules := Nat.mod_eq_of_lt (Nat.lt_succ_of_le hrules)

/-- WF10 keeps DEVID_LEN inside the register's 4 bits. -/
theorem State.toNat_readReg_devidLen {s : State} (h : s.cfg.wf = true) : (s.readReg 0x20).toNat = s.cfg.devidLen := by
  obtain ⟨hdevid, -, -, -⟩ := Config.wf_ranges h
  calc (s.readReg 0x20).toNat = (BitVec.ofNat 4 s.cfg.devidLen).toNat :=
        BitVec.toNat_setWidth_of_le (b := BitVec.ofNat 4 s.cfg.devidLen) (show 4 ≤ 32 by decide)
    _ = s.cfg.devidLen := Nat.mod_eq_of_lt (by omega)

theorem State.readReg_reserved (s : State) {o : Nat} (h : 0x24 ≤ o) : s.readReg o = 0 := by
  unfold State.readReg
  rw [if_neg (by omega), if_neg (by omega), if_neg (by omega), if_neg (by omega), if_neg (by omega), if_neg (by omega),
    if_neg (by omega), if_neg (by omega)]

/-- Settles O44: a read that R127 leaves open is one of a result while BUSY = 1, which no clause speaks of; every other
read returns `readReg` at the offset. -/
theorem registerReadValues : Obligations.RegisterReadValues := by
  intro s a rest hev hreg halign
  have hwf : s.cfg.wf = true := hev.1
  have hlegal : accessLegal a 4 = true := (accessLegal_iff a 4).2 (by simp [hreg, halign])
  cases ho : s.status.busy && unspecifiedWhileBusy a with
  | true =>
    refine ⟨_, (step_read hev).trans (State.hostRead_open hlegal ho), ?_⟩
    rw [Bool.and_eq_true, unspecifiedWhileBusy_of_reg hreg] at ho
    obtain ⟨hbusy, hoff⟩ := ho
    simp only [hbusy, Bool.true_eq_false, false_implies, implies_true, true_and]
    omega
  | false =>
    refine ⟨_, (step_read hev).trans (State.hostRead_fixed hlegal ho), ?_⟩
    simp only [State.readValue_of_reg _ 4 hreg]
    exact ⟨fun h => by rw [h]; rfl, fun h => by rw [h]; rfl, fun h => by rw [h]; exact State.toNat_readReg_inLen _,
      fun h _ => by rw [h]; exact State.toNat_readReg_outLen _, fun h _ => by rw [h]; exact State.toNat_readReg_hdrLen _,
      fun h => by rw [h]; exact State.toNat_readReg_nRules hwf, fun h _ => by rw [h]; rfl, fun h _ => by rw [h]; rfl,
      fun h => by rw [h]; exact State.toNat_readReg_devidLen hwf, State.readReg_reserved _⟩

/-! ## What the commands answer -/

/-- The rule that the priority encoder selects is one of the set. -/
theorem selectRule_mem {cfg : Config} {hc : HeaderContext} {k : Nat} (h : selectRule cfg hc = some k) :
    ∃ r, cfg.rules[k]? = some r := by
  unfold selectRule at h
  split_ifs at h
  · obtain ⟨-, ⟨r, hr, -⟩, -⟩ := firstMatch_eq_some.1 h
    rw [Nat.sub_zero, List.getElem?_take] at hr
    exact ⟨r, (Option.ite_none_right_eq_some.1 hr).2⟩
  · obtain ⟨-, ⟨r, hr, -⟩, -⟩ := firstMatch_eq_some.1 h
    exact ⟨r, hr⟩

/-- What COMPRESS answers (R88, R89): the passthrough, or the output under a rule of the set for a whole header. -/
theorem compressInput_cases (cfg : Config) (inp : List Byte) :
    compressInput cfg inp = .cmpPass (0x00 :: inp) ∨
      ∃ k r out n, cfg.rules[k]? = some r ∧ compressInput cfg inp = .cmpMatched out k n := by
  unfold compressInput
  split_ifs with hlen
  · exact .inl rfl
  · split
    · exact .inl rfl
    · split
      · exact .inl rfl
      · rename_i k _ _ r hr
        exact .inr ⟨k, r, _, _, hr, rfl⟩

/-- How a decompression under a rule ends (R106): a raise of the walk, or the header and the payload. -/
theorem decompressUnder_cases (cfg : Config) (r : Rule) (tag : Byte) (inp : List Byte) :
    (∃ e p, fieldWalk cfg inp (ruleFields r) HeaderContext.zero 1 = .raised e p ∧
      decompressUnder cfg r tag inp = .decErr e tag (BitVec.ofNat 8 p)) ∨
    ∃ hc off, fieldWalk cfg inp (ruleFields r) HeaderContext.zero 1 = .done hc off ∧
      decompressUnder cfg r tag inp = .decOk
        (serializeHeader cfg (resolveDeferred (lengthValue inp.length off) (ruleFields r) hc) ++ inp.drop off) tag off := by
  unfold decompressUnder
  split
  · rename_i e p hw
    exact .inl ⟨e, p, hw, rfl⟩
  · rename_i hc off hw
    exact .inr ⟨hc, off, hw, rfl⟩

/-- What DECOMPRESS answers (R91, R92, R93, R106): an error without a position, the rest of a frame with tag 0, or the
decompression under the rule of the tag. -/
theorem decompressInput_cases (cfg : Config) (inp : List Byte) :
    (∃ e tag, decompressInput cfg inp = .decErr e tag noPosition) ∨
    (∃ rest, inp = 0 :: rest ∧ decompressInput cfg inp = .decOk rest 0 1) ∨
    ∃ tag rest r, inp = tag :: rest ∧ tag ≠ 0 ∧ cfg.rules[tag.toNat - 1]? = some r ∧
      decompressInput cfg inp = decompressUnder cfg r tag inp := by
  cases inp with
  | nil => exact .inl ⟨_, _, rfl⟩
  | cons tag rest =>
    simp only [decompressInput]
    split_ifs with h0
    · exact .inr (.inl ⟨rest, by rw [h0], rfl⟩)
    · split
      · exact .inl ⟨_, _, rfl⟩
      · rename_i r hr
        exact .inr (.inr ⟨tag, rest, r, rfl, h0, hr, rfl⟩)

/-- What IDSYNTH answers (R109, R110). -/
theorem idSynth_cases (cfg : Config) :
    8 ≤ cfg.devidLen ∧ idSynth cfg = .idOk (idWord0 cfg) (idWord1 cfg) ∨ cfg.devidLen < 8 ∧ idSynth cfg = .idErr := by
  rcases Nat.lt_or_ge cfg.devidLen 8 with h | h
  · exact .inr ⟨h, by simp [idSynth, identityValid, h]⟩
  · exact .inl ⟨h, by simp [idSynth, identityValid, h]⟩

/-! ## The sizes of a residual -/

/-- A sum over a rule's 18 fields of at most 4 each is at most 72 (R61). -/
theorem Rule.sum_fields_le {r : Rule} {f : Descriptor → Nat} (h : ∀ d ∈ r.fields.toList, f d ≤ 4) :
    (r.fields.toList.map f).sum ≤ 72 := by
  have := List.sum_le_card_nsmul (r.fields.toList.map f) 4 (by simpa using h)
  simpa using this

theorem length_residualBytes_le {cfg : Config} {r : Rule} (hr : r.wf = true) (hc : HeaderContext) :
    (residualBytes cfg r hc).length ≤ 72 := by
  rw [length_residualBytes]
  refine Rule.sum_fields_le fun d hd => ?_
  have := Rule.wf_bitLength hr hd
  split_ifs <;> omega

/-- A field of at most 32 bits consumes at most 4 bytes, whichever of R97 and R98 reads them. -/
theorem consumedBytes_le (cfg : Config) {d : Descriptor} (h : d.bl.toNat ≤ 32) : consumedBytes cfg d ≤ 4 := by
  unfold consumedBytes
  split_ifs <;> omega

/-! ## The field walk -/

/-- A walk that ends without a raise has advanced by what its fields consume, inside the frame. -/
theorem fieldWalk_done {cfg : Config} {inp : List Byte} {l : List (Descriptor × Nat)} {hc hc' : HeaderContext}
    {off off' : Nat} (h : fieldWalk cfg inp l hc off = .done hc' off') :
    off' = off + (l.map fun dp => consumedBytes cfg dp.1).sum ∧ (off ≤ inp.length → off' ≤ inp.length) := by
  induction l generalizing hc off with
  | nil =>
    cases h
    exact ⟨rfl, id⟩
  | cons dp rest ih =>
    obtain ⟨d, p⟩ := dp
    simp only [fieldWalk] at h
    split at h
    · rename_i v off₁ hfield
      obtain ⟨hoff, hin⟩ := decodeField_value hfield
      obtain ⟨hoff', hin'⟩ := ih h
      refine ⟨?_, fun hle => hin' (hin hle)⟩
      rw [hoff', hoff, List.map_cons, List.sum_cons, Nat.add_assoc]
    · cases h

/-- A walk raises at the position of one of its descriptors. -/
theorem fieldWalk_raised_mem {cfg : Config} {inp : List Byte} {l : List (Descriptor × Nat)} {hc : HeaderContext}
    {off p : Nat} {e : ErrKind} (h : fieldWalk cfg inp l hc off = .raised e p) : ∃ d, (d, p) ∈ l := by
  induction l generalizing hc off with
  | nil => cases h
  | cons dp rest ih =>
    obtain ⟨d, q⟩ := dp
    simp only [fieldWalk] at h
    split at h
    · obtain ⟨d', hd'⟩ := ih h
      exact ⟨d', List.mem_cons_of_mem _ hd'⟩
    · cases h
      exact ⟨d, List.mem_cons_self⟩

/-- The final offset of a rule's walk lies between the tag byte and the tag with 72 residual bytes (R61). -/
theorem fieldWalk_ruleFields_done {cfg : Config} {inp : List Byte} {r : Rule} {hc hc' : HeaderContext} {off : Nat}
    (hr : r.wf = true) (h : fieldWalk cfg inp (ruleFields r) hc 1 = .done hc' off) : 1 ≤ off ∧ off ≤ 73 := by
  obtain ⟨hoff, -⟩ := fieldWalk_done h
  rw [sum_ruleFields r (consumedBytes cfg)] at hoff
  have := Rule.sum_fields_le (f := consumedBytes cfg) fun d hd => consumedBytes_le cfg (Rule.wf_bitLength hr hd)
  omega

theorem fieldWalk_ruleFields_raised {cfg : Config} {inp : List Byte} {r : Rule} {hc : HeaderContext} {off p : Nat}
    {e : ErrKind} (h : fieldWalk cfg inp (ruleFields r) hc off = .raised e p) : p < 18 := by
  obtain ⟨d, hd⟩ := fieldWalk_raised_mem h
  exact position_lt ((mem_ruleFields r d p).1 hd)

/-! ## Sound results -/

/-- What the invariant asks of a result before it is committed: a matched tag is a rule's, an output fits OBUF, a header
length is at most 73, and an error position is one of 0..17 or none (R24, R32, R61). -/
def CmdResult.Sound (cfg : Config) : CmdResult → Prop
  | .cmpMatched out k hdrLen => k < cfg.nRules ∧ out.length ≤ cfg.obufBytes ∧ hdrLen ≤ 73
  | .cmpPass out => out.length ≤ cfg.obufBytes
  | .decOk out tag hdrLen => tag.toNat ≤ cfg.nRules ∧ out.length ≤ cfg.obufBytes ∧ hdrLen ≤ 73
  | .decErr _ _ pos => pos = noPosition ∨ pos.toNat ≤ 17
  | .matchRule k => k < cfg.nRules
  | .matchNone | .idOk _ _ | .idErr | .illegal | .lengthErr => True

theorem matchInput_sound (cfg : Config) (inp : List Byte) : (matchInput cfg inp).Sound cfg := by
  obtain h | ⟨k, -, hsel, h⟩ := matchInput_cases cfg inp
  · rw [h]; trivial
  · obtain ⟨r, hr⟩ := selectRule_mem hsel
    rw [h]
    exact (List.getElem?_eq_some_iff.1 hr).1

/-- The passthrough adds the tag to the frame; a rule replaces the 48 header bytes by the tag and at most 72. -/
theorem compressInput_sound {cfg : Config} (hwf : cfg.wf = true) {inp : List Byte} (hlen : inp.length ≤ cfg.bufBytes) :
    (compressInput cfg inp).Sound cfg := by
  obtain h | ⟨k, r, out, n, hr, h⟩ := compressInput_cases cfg inp
  · rw [h]
    simp only [CmdResult.Sound, List.length_cons, Config.obufBytes]
    omega
  · obtain ⟨h48, -, hout, hn⟩ := compressInput_matched h hr
    have hres := length_residualBytes_le (cfg := cfg) (Config.wf_rule hwf hr) (parseHeader cfg (inp.take 48))
    rw [h]
    refine ⟨(List.getElem?_eq_some_iff.1 hr).1, ?_, by omega⟩
    simp only [hout, List.cons_append, List.length_cons, List.length_append, List.length_drop, Config.obufBytes]
    omega

/-- A frame under a rule gives up at least its tag for the 48 header bytes. -/
theorem decompressUnder_sound {cfg : Config} (hwf : cfg.wf = true) {r : Rule} {tag : Byte} {inp : List Byte}
    (hr : cfg.rules[tag.toNat - 1]? = some r) (hlen : inp.length ≤ cfg.bufBytes) :
    (decompressUnder cfg r tag inp).Sound cfg := by
  obtain ⟨e, p, hw, h⟩ | ⟨hc, off, hw, h⟩ := decompressUnder_cases cfg r tag inp
  · have hp := fieldWalk_ruleFields_raised hw
    rw [h]
    refine .inr ?_
    rw [BitVec.toNat_ofNat]
    omega
  · obtain ⟨-, hbuf, -, -⟩ := Config.wf_ranges hwf
    obtain ⟨hoff, hoff'⟩ := fieldWalk_ruleFields_done (Config.wf_rule hwf hr) hw
    have hrule := (List.getElem?_eq_some_iff.1 hr).1
    rw [h]
    refine ⟨Nat.le_of_pred_lt hrule, ?_, hoff'⟩
    simp only [List.length_append, length_serializeHeader, List.length_drop, Config.obufBytes]
    omega

theorem decompressInput_sound {cfg : Config} (hwf : cfg.wf = true) {inp : List Byte}
    (hlen : inp.length ≤ cfg.bufBytes) : (decompressInput cfg inp).Sound cfg := by
  obtain ⟨e, tag, h⟩ | ⟨rest, hin, h⟩ | ⟨tag, rest, r, -, -, hr, h⟩ := decompressInput_cases cfg inp
  · rw [h]
    exact .inl rfl
  · rw [h]
    rw [hin, List.length_cons] at hlen
    exact ⟨Nat.zero_le _, by simp only [Config.obufBytes]; omega, by omega⟩
  · rw [h]
    exact decompressUnder_sound hwf hr hlen

theorem State.withInput_sound {s : State} {f : List Byte → CmdResult}
    (hf : ∀ inp : List Byte, inp.length ≤ s.cfg.bufBytes → (f inp).Sound s.cfg) : (s.withInput f).Sound s.cfg := by
  rcases Nat.lt_or_ge s.cfg.bufBytes s.frameLen with h | h
  · rw [State.withInput_of_lt f h]; trivial
  · rw [State.withInput_of_le f h]
    exact hf _ (s.length_input.trans_le h)

theorem idSynth_sound (cfg : Config) : (idSynth cfg).Sound cfg := by
  obtain ⟨-, h⟩ | ⟨-, h⟩ := idSynth_cases cfg
  · rw [h]; trivial
  · rw [h]; trivial

theorem commandResult_sound {s : State} {i : Instr} {r : CmdResult} (hwf : s.cfg.wf = true)
    (h : commandResult s i = some r) : r.Sound s.cfg := by
  cases i with
  | compress => cases h; exact State.withInput_sound fun _ => compressInput_sound hwf
  | decompress => cases h; exact State.withInput_sound fun _ => decompressInput_sound hwf
  | matchCmd => cases h; exact State.withInput_sound fun inp _ => matchInput_sound s.cfg inp
  | idsynth => cases h; exact idSynth_sound s.cfg
  | _ => cases h

/-! ## Committing a sound result -/

/-- Rule k's tag k + 1 does not wrap around, since WF1 allows at most 255 rules. -/
theorem ruleTag_range {cfg : Config} (hwf : cfg.wf = true) {k : Nat} (hk : k < cfg.nRules) :
    1 ≤ (BitVec.ofNat 8 (k + 1)).toNat ∧ (BitVec.ofNat 8 (k + 1)).toNat ≤ cfg.nRules := by
  obtain ⟨-, -, -, hrules⟩ := Config.wf_ranges hwf
  rw [BitVec.toNat_ofNat, Nat.mod_eq_of_lt (Nat.lt_succ_of_le (le_trans hk hrules))]
  exact ⟨Nat.le_add_left 1 k, hk⟩

/-- A match reports no error and a rule's tag (R24). -/
theorem CmdResult.Sound.matched_tag {cfg : Config} {r : CmdResult} (hr : r.Sound cfg) (hwf : cfg.wf = true)
    (hm : r.status.matched = true) :
    r.status.err = .none ∧ 1 ≤ r.status.tag.toNat ∧ r.status.tag.toNat ≤ cfg.nRules := by
  cases r with
  | cmpMatched out k n => exact ⟨rfl, ruleTag_range hwf hr.1⟩
  | matchRule k => exact ⟨rfl, ruleTag_range hwf hr⟩
  | decOk out tag n =>
    have htag : tag ≠ 0 := of_decide_eq_true hm
    exact ⟨rfl, Nat.one_le_iff_ne_zero.2 fun h => htag (BitVec.eq_of_toNat_eq h), hr.1⟩
  | _ => cases hm

theorem CmdResult.Sound.errPos_range {cfg : Config} {r : CmdResult} (hr : r.Sound cfg) :
    r.status.errPos = noPosition ∨ r.status.errPos.toNat ≤ 17 := by
  cases r with
  | decErr e tag pos => exact hr
  | _ => exact .inl rfl

theorem CmdResult.Sound.lengths_le {cfg : Config} {r : CmdResult} (hr : r.Sound cfg) :
    r.outLen ≤ cfg.obufBytes ∧ r.hdrLen ≤ 73 := by
  cases r with
  | cmpMatched out k n => exact hr.2
  | decOk out tag n => exact hr.2
  | cmpPass out => exact ⟨hr, by simp [CmdResult.hdrLen]⟩
  | _ => exact ⟨Nat.zero_le _, Nat.zero_le _⟩

/-- R26, R27: of the errors only NoRuleMatched comes with an output. -/
theorem CmdResult.lengths_of_error {r : CmdResult} (h1 : r.status.err ≠ .none) (h2 : r.status.err ≠ .noRuleMatched) :
    r.outLen = 0 ∧ r.hdrLen = 0 := by
  cases r with
  | cmpMatched out k n => exact absurd rfl h1
  | cmpPass out => exact absurd rfl h2
  | decOk out tag n => exact absurd rfl h1
  | _ => exact ⟨rfl, rfl⟩

/-- OBUF holds the output, nothing known, or what it held. -/
theorem CmdResult.Sound.obuf_wf {cfg : Config} {r : CmdResult} (hr : r.Sound cfg) {m : Memory}
    (hm : Memory.wf cfg.obufBytes m = true) : Memory.wf cfg.obufBytes (r.obufEffect.memory m) = true := by
  cases r with
  | cmpMatched out k n => exact Memory.wf_ofBytes out hr.2.1
  | cmpPass out => exact Memory.wf_ofBytes out hr
  | decOk out tag n => exact Memory.wf_ofBytes out hr.2.1
  | decErr e tag pos => exact Memory.wf_nil _
  | _ => exact hm

theorem State.commit_lengthsFit {s : State} {r : CmdResult} (hr : r.Sound s.cfg) : (s.commit r).LengthsFit := by
  obtain ⟨hout, hhdr⟩ := hr.lengths_le
  exact ⟨(Nat.mod_le _ _).trans hout, (Nat.mod_le _ _).trans hhdr⟩

/-- A result that draws OBUF anew takes the next draw, which neither buffer holds. -/
theorem State.commit_drawsFresh {s : State} (h : s.DrawsFresh) (r : CmdResult) : (s.commit r).DrawsFresh := by
  obtain ⟨hi, ho, hne⟩ := h
  simp only [State.DrawsFresh, State.commit_ibufDraw, State.commit_obufDraw, State.commit_draws]
  split_ifs
  · omega
  · exact ⟨hi, ho, hne⟩

/-- The end of a command keeps the invariant when its result is sound. -/
theorem State.Inv.commit {s : State} (h : s.Inv) (hwf : s.cfg.wf = true) {r : CmdResult} (hr : r.Sound s.cfg) :
    (s.commit r).Inv := by
  obtain ⟨-, -, -, -, -, ⟨hibuf, hobuf⟩, hdraws⟩ := h
  have hpend : (s.commit r).PendMatchesBusy := r.status_busy.symm
  have hstatus : (s.commit r).StatusLegal :=
    ⟨fun hd => absurd (r.status_done.symm.trans hd) (by decide), fun _ => ⟨r.status_busy, hr.errPos_range⟩,
      hr.matched_tag hwf⟩
  have herr : (s.commit r).ErrorClearsLengths := fun h1 h2 => by
    obtain ⟨hout, hhdr⟩ := CmdResult.lengths_of_error h1 h2
    simp [hout, hhdr]
  exact ⟨hpend, rfl, hstatus, herr, State.commit_lengthsFit hr, ⟨hibuf, hr.obuf_wf hobuf⟩,
    State.commit_drawsFresh hdraws r⟩

/-! ## Every event keeps the invariant -/

theorem State.Inv.engineStep {s t : State} (h : s.Inv) (hwf : s.cfg.wf = true) (hs : s.engineStep = .next t) :
    t.Inv := by
  obtain ⟨-, v, -, ⟨i, r, -, hr, rfl⟩ | ⟨-, rfl⟩⟩ := State.engineStep_next hs
  · exact h.commit hwf (commandResult_sound hwf hr)
  · exact h.commit hwf trivial

/-- A read changes at most the draw counter, which only rises. -/
theorem State.Inv.hostRead {s t : State} {a : BitVec 18} {n : Nat} (h : s.Inv) (hs : s.hostRead a n = .next t) :
    t.Inv := by
  obtain ⟨-, ⟨-, rfl⟩ | ⟨-, rfl⟩⟩ := State.hostRead_next hs
  · exact h
  · obtain ⟨hpend, hwalk, hstatus, herr, hlen, hbuf, ⟨hi, ho, hne⟩⟩ := h
    exact ⟨hpend, hwalk, hstatus, herr, hlen, hbuf, Nat.lt_succ_of_lt hi, Nat.lt_succ_of_lt ho, hne⟩

/-- A CMD write leaves BUSY alone in STATUS with a value in PEND (R23, R31). -/
theorem State.Inv.startCommand {s : State} (h : s.Inv) (v : Word) : (s.startCommand v).Inv := by
  obtain ⟨-, hwalk, -, -, hlen, hbuf, hdraws⟩ := h
  have hstatus : (s.startCommand v).StatusLegal := by
    simp [State.StatusLegal, Status.started]
  exact ⟨rfl, hwalk, hstatus, fun herr => absurd rfl herr, hlen, hbuf, hdraws⟩

theorem State.Inv.hostWrite {s t : State} {a : BitVec 18} {n : Nat} {v : Word} (h : s.Inv)
    (hs : s.hostWrite a n v = .next t) : t.Inv := by
  obtain ⟨-, ⟨-, -, -, rfl⟩ | ⟨-, -, -, rfl⟩ | ⟨-, -, rfl⟩ | rfl⟩ := State.hostWrite_next hs
  · exact h.startCommand v
  · exact h
  · obtain ⟨hpend, hwalk, hstatus, herr, hlen, ⟨hibuf, hobuf⟩, hdraws⟩ := h
    exact ⟨hpend, hwalk, hstatus, herr, hlen, ⟨wf_writeBytes _ _ hibuf, hobuf⟩, hdraws⟩
  · exact h

/-- The reset input leaves R34's state but for the draws, which it takes in order. -/
theorem State.resetInput_inv (s : State) : s.resetInput.Inv := by
  obtain ⟨hpend, hwalk, hstatus, herr, hlen, hbuf, -⟩ := resetMeetsInvariant s.cfg
  have hdraws : s.resetInput.DrawsFresh := by simp [State.DrawsFresh]
  exact ⟨hpend, hwalk, hstatus, herr, hlen, hbuf, hdraws⟩

theorem State.Inv.mux_eq_none {s : State} (h : s.Inv) : s.walk.mux = none := by
  obtain ⟨-, hwalk, -⟩ := h
  rw [hwalk]
  rfl

/-- Settles O59: an idle walk presents no descriptor, so the step is one of the four events, and each keeps every part. -/
theorem everyStepKeepsInvariant : Obligations.EveryStepKeepsInvariant := by
  intro s t h hs
  obtain ⟨rest, ⟨⟨hwf, -⟩, he⟩ | ⟨a, n, -, hr⟩ | ⟨a, n, v, -, hw⟩ | ⟨-, rfl⟩⟩ := step_next_of_mux_none h.mux_eq_none hs
  · exact State.Inv.engineStep (s := { s with inputs := rest }) h hwf he
  · exact State.Inv.hostRead (s := { s with inputs := rest }) h hr
  · exact State.Inv.hostWrite (s := { s with inputs := rest }) h hw
  · exact State.resetInput_inv _

/-! ## The configuration -/

theorem exec_cfg {i : Instr} {s t : State} (h : exec i s = .next t) : t.cfg = s.cfg := by
  obtain ⟨r, rfl⟩ | ⟨w, -, rfl⟩ := exec_next h
  · rfl
  · rfl

theorem State.engineStep_cfg {s t : State} (h : s.engineStep = .next t) : t.cfg = s.cfg := by
  obtain ⟨-, v, -, ⟨i, r, -, -, rfl⟩ | ⟨-, rfl⟩⟩ := State.engineStep_next h
  · rfl
  · rfl

/-- A read leaves every register of the block alone (R44). -/
theorem State.hostRead_sameRegisters {s t : State} {a : BitVec 18} {n : Nat} (h : s.hostRead a n = .next t) :
    SameRegisters s t := by
  obtain ⟨-, ⟨-, rfl⟩ | ⟨-, rfl⟩⟩ := State.hostRead_next h
  · exact ⟨rfl, rfl, rfl, rfl, rfl, rfl, rfl, rfl⟩
  · exact ⟨rfl, rfl, rfl, rfl, rfl, rfl, rfl, rfl⟩

/-- No write reaches the configuration or an identity word (R22, R37). -/
theorem State.hostWrite_cfg_idWords {s t : State} {a : BitVec 18} {n : Nat} {v : Word}
    (h : s.hostWrite a n v = .next t) : t.cfg = s.cfg ∧ SameIdentityWords s t := by
  obtain ⟨-, ⟨-, -, -, rfl⟩ | ⟨-, -, -, rfl⟩ | ⟨-, -, rfl⟩ | rfl⟩ := State.hostWrite_next h
  · exact ⟨rfl, rfl, rfl⟩
  · exact ⟨rfl, rfl, rfl⟩
  · exact ⟨rfl, rfl, rfl⟩
  · exact ⟨rfl, rfl, rfl⟩

/-- Settles O50: a field unit's operation and each of the four events keep the configuration. -/
theorem configurationNeverChanges : Obligations.ConfigurationNeverChanges := by
  intro s t h
  cases hmux : s.walk.mux with
  | none =>
    obtain ⟨rest, ⟨-, he⟩ | ⟨a, n, -, hr⟩ | ⟨a, n, v, -, hw⟩ | ⟨-, rfl⟩⟩ := step_next_of_mux_none hmux h
    · exact (State.engineStep_cfg he :)
    · exact (State.hostRead_sameRegisters hr).1
    · exact (State.hostWrite_cfg_idWords hw).1
    · rfl
  | some uw =>
    obtain ⟨-, ⟨u, w, i, -, -, -, hi⟩ | ⟨hnone, -⟩⟩ := step_next h
    · exact exec_cfg hi
    · simp [hmux] at hnone

/-! ## The identity words -/

/-- IDSYNTH's result is the only one that the identity words take a value from (R68). -/
theorem CmdResult.idWords_keep_or_idOk (r : CmdResult) :
    (∀ old, r.idw0 old = old ∧ r.idw1 old = old) ∨ ∃ w0 w1, r = .idOk w0 w1 := by
  cases r with
  | idOk w0 w1 => exact .inr ⟨w0, w1, rfl⟩
  | _ => exact .inl fun _ => ⟨rfl, rfl⟩

theorem compressInput_ne_idOk (cfg : Config) (inp : List Byte) (w0 w1 : Word) :
    compressInput cfg inp ≠ .idOk w0 w1 := by
  obtain h | ⟨k, r, out, n, -, h⟩ := compressInput_cases cfg inp <;> simp [h]

theorem decompressInput_ne_idOk (cfg : Config) (inp : List Byte) (w0 w1 : Word) :
    decompressInput cfg inp ≠ .idOk w0 w1 := by
  obtain ⟨e, tag, h⟩ | ⟨rest, -, h⟩ | ⟨tag, rest, r, -, -, -, h⟩ := decompressInput_cases cfg inp
  · simp [h]
  · simp [h]
  · rw [h]
    obtain ⟨e, p, -, h⟩ | ⟨hc, off, -, h⟩ := decompressUnder_cases cfg r tag inp <;> simp [h]

theorem matchInput_ne_idOk (cfg : Config) (inp : List Byte) (w0 w1 : Word) : matchInput cfg inp ≠ .idOk w0 w1 := by
  obtain h | ⟨k, -, -, h⟩ := matchInput_cases cfg inp <;> simp [h]

theorem State.withInput_ne_idOk {s : State} {f : List Byte → CmdResult} {w0 w1 : Word}
    (hf : ∀ inp, f inp ≠ .idOk w0 w1) : s.withInput f ≠ .idOk w0 w1 := by
  unfold State.withInput
  split_ifs
  · simp
  · exact hf _

/-- R109, R110: two identity words come from IDSYNTH with a whole identity. -/
theorem commandResult_idOk {s : State} {i : Instr} {w0 w1 : Word} (h : commandResult s i = some (.idOk w0 w1)) :
    i = .idsynth ∧ 8 ≤ s.cfg.devidLen := by
  cases i with
  | compress => exact absurd (Option.some.inj h) (State.withInput_ne_idOk fun inp => compressInput_ne_idOk _ inp _ _)
  | decompress => exact absurd (Option.some.inj h) (State.withInput_ne_idOk fun inp => decompressInput_ne_idOk _ inp _ _)
  | matchCmd => exact absurd (Option.some.inj h) (State.withInput_ne_idOk fun inp => matchInput_ne_idOk _ inp _ _)
  | idsynth =>
    obtain ⟨hdevid, -⟩ | ⟨-, hs⟩ := idSynth_cases s.cfg
    · exact ⟨rfl, hdevid⟩
    · rw [commandResult, hs] at h
      cases h
  | _ => cases h

/-- IDSYNTH's OP code is 4, with bits 31:4 zero (R57). -/
theorem decodeCommand_idsynth {v : Word} (h : decodeCommand v = .ok .idsynth) : v = 4 := by
  unfold decodeCommand at h
  split_ifs at h with hhi hcompress hdecompress hmatch hidsynth
  · cases h
  · cases h
  · cases h
  · have hhigh := congrArg BitVec.toNat (not_not.1 hhi)
    have hlow := congrArg BitVec.toNat hidsynth
    rw [toNat_extract] at hhigh hlow
    apply BitVec.eq_of_toNat_eq
    simp only [BitVec.ofNat_eq_ofNat, BitVec.toNat_ofNat] at hhigh hlow ⊢
    omega

/-- An Engine's turn that changes an identity word has performed IDSYNTH (R29). -/
theorem State.engineStep_idWords {s t : State} (h : s.engineStep = .next t) (hne : ¬ SameIdentityWords s t) :
    s.status.busy = true ∧ s.pend = some 4 ∧ 8 ≤ s.cfg.devidLen ∧ t.status.done = true ∧ t.status.err = .none := by
  obtain ⟨hbusy, v, hpend, ⟨i, r, hi, hr, rfl⟩ | ⟨-, rfl⟩⟩ := State.engineStep_next h
  · obtain hkeep | ⟨w0, w1, rfl⟩ := r.idWords_keep_or_idOk
    · exact absurd ⟨(hkeep _).1, (hkeep _).2⟩ hne
    · obtain ⟨rfl, hdevid⟩ := commandResult_idOk hr
      exact ⟨hbusy, decodeCommand_idsynth hi ▸ hpend, hdevid, rfl, rfl⟩
  · exact absurd ⟨rfl, rfl⟩ hne

/-- Settles O51: host accesses keep both words, and the Engine changes them by IDSYNTH's result alone. -/
theorem onlyIdsynthWritesIdentityWords : Obligations.OnlyIdsynthWritesIdentityWords := by
  intro s t hmux h hne
  obtain ⟨rest, ⟨hturn, he⟩ | ⟨a, n, -, hr⟩ | ⟨a, n, v, -, hw⟩ | ⟨⟨-, -, hin⟩, -⟩⟩ := step_next_of_mux_none hmux h
  · exact .inl ⟨⟨rest, hturn⟩, (State.engineStep_idWords he hne :)⟩
  · obtain ⟨-, -, -, -, -, h0, h1, -⟩ := State.hostRead_sameRegisters hr
    exact absurd ⟨h0, h1⟩ hne
  · exact absurd (State.hostWrite_cfg_idWords hw).2 hne
  · exact .inr ⟨rest, hin⟩

/-! ## STATUS -/

/-- A legal access at offset 0 of the REG window is the word at CMD's address. -/
theorem eq_cmd_of_accessLegal {a : BitVec 18} {n : Nat} (hl : accessLegal a n = true) (hw : windowOf a = .reg)
    (ho : windowOffset a = 0) : a = 0 ∧ n = 4 := by
  have hreg := (windowOf_iff a).1.1 hw
  rw [windowOffset_of_reg hreg] at ho
  rw [accessLegal_iff, if_pos hreg] at hl
  exact ⟨BitVec.eq_of_toNat_eq ho, hl.1⟩

/-- A host write that changes STATUS is one of CMD while BUSY = 0 (R23). -/
theorem State.hostWrite_status {s t : State} {a : BitVec 18} {n : Nat} {v : Word} (h : s.hostWrite a n v = .next t)
    (hne : t.status ≠ s.status) : s.status.busy = false ∧ a = 0 ∧ n = 4 := by
  obtain ⟨hl, ⟨hidle, hw, ho, -⟩ | ⟨-, -, -, rfl⟩ | ⟨-, -, rfl⟩ | rfl⟩ := State.hostWrite_next h
  · exact ⟨hidle, eq_cmd_of_accessLegal hl hw ho⟩
  · exact absurd rfl hne
  · exact absurd rfl hne
  · exact absurd rfl hne

/-- Settles O53: a read keeps STATUS, a write that does not is one of CMD, and the Engine moves only while BUSY. -/
theorem onlyCommandsChangeStatus : Obligations.OnlyCommandsChangeStatus := by
  intro s t hmux h hne
  obtain ⟨rest, ⟨hturn, he⟩ | ⟨a, n, -, hr⟩ | ⟨a, n, v, ⟨-, -, hin⟩, hw⟩ | ⟨⟨-, -, hin⟩, -⟩⟩ :=
    step_next_of_mux_none hmux h
  · exact .inr (.inl ⟨(State.engineStep_next he).1, rest, hturn⟩)
  · obtain ⟨-, hstatus, -⟩ := State.hostRead_sameRegisters hr
    exact absurd hstatus hne
  · obtain ⟨hidle, rfl, rfl⟩ := State.hostWrite_status hw hne
    exact .inl ⟨v, rest, hin, hidle⟩
  · exact .inr (.inr ⟨rest, hin⟩)

/-! ## The internal state of a command -/

/-- A command's result is a function of the registers, the buffers and the configuration (R17). -/
theorem commandResult_walk (s : State) (w : Walk) (i : Instr) :
    commandResult { s with walk := w } i = commandResult s i := by
  cases i <;> rfl

/-- A command puts the fresh internal state in the old one's place, whatever it was (R67). -/
theorem exec_walk_of_commandResult {s : State} {i : Instr} {r : CmdResult} (h : commandResult s i = some r) (w : Walk) :
    exec i { s with walk := w } = exec i s :=
  calc exec i { s with walk := w } = .next (State.commit r { s with walk := w }) :=
        exec_of_commandResult ((commandResult_walk s w i).trans h)
    _ = .next (s.commit r) := rfl
    _ = exec i s := (exec_of_commandResult h).symm

/-- Settles O56: the four commands are those with a result. -/
theorem commandsIgnoreOldInternalState : Obligations.CommandsIgnoreOldInternalState := by
  intro s w i hi
  obtain ⟨r, hr⟩ : ∃ r, commandResult s i = some r := by
    simp only [List.mem_cons, List.not_mem_nil, or_false] at hi
    obtain rfl | rfl | rfl | rfl := hi
    · exact ⟨_, rfl⟩
    · exact ⟨_, rfl⟩
    · exact ⟨_, rfl⟩
    · exact ⟨_, rfl⟩
  exact ⟨exec_walk_of_commandResult hr w, s.commit r, exec_of_commandResult hr, rfl⟩

end Sys2Proof.Machine


namespace Sys2Proof.Machine

/-! ## Legal accesses (spec/20_memory.md R41) -/

/-- A host read is refused for nothing but its form. -/
theorem State.hostRead_illegal_iff (s : State) (a : BitVec 18) (n : Nat) :
    s.hostRead a n = .refused .illegalAccess ↔ ¬ accessLegal a n = true := by
  by_cases hl : accessLegal a n = true
  · cases ho : s.status.busy && unspecifiedWhileBusy a with
    | true => simp [State.hostRead_open hl ho, hl]
    | false => simp [State.hostRead_fixed hl ho, hl]
  · simp [State.hostRead, hl]

theorem State.writeReg_ne_illegal (s : State) (o : Nat) (v : Word) : s.writeReg o v ≠ .refused .illegalAccess := by
  unfold State.writeReg
  split_ifs <;> simp

theorem State.writeIbuf_ne_illegal (s : State) (o n : Nat) (v : Word) :
    s.writeIbuf o n v ≠ .refused .illegalAccess := by
  unfold State.writeIbuf
  split_ifs <;> simp

/-! What a legal write does in each window. -/

section
variable {s : State} {a : BitVec 18} {n : Nat} {v : Word}

theorem State.hostWrite_illegal (hl : ¬ accessLegal a n = true) :
    s.hostWrite a n v = .refused .illegalAccess := by
  simp [State.hostWrite, hl]

theorem State.hostWrite_reg (hl : accessLegal a n = true) (hw : windowOf a = .reg) :
    s.hostWrite a n v = s.writeReg (windowOffset a) v := by
  simp [State.hostWrite, hl, hw]

theorem State.hostWrite_ibuf (hl : accessLegal a n = true) (hw : windowOf a = .ibuf) :
    s.hostWrite a n v = s.writeIbuf (windowOffset a) n v := by
  simp [State.hostWrite, hl, hw]

theorem State.hostWrite_obuf (hl : accessLegal a n = true) (hw : windowOf a = .obuf) :
    s.hostWrite a n v = .next s := by
  simp [State.hostWrite, hl, hw]

theorem State.hostWrite_rom (hl : accessLegal a n = true) (hw : windowOf a = .rom) :
    s.hostWrite a n v = .next s := by
  simp [State.hostWrite, hl, hw]

end

/-- A host write of legal form may be refused, but as a write while BUSY = 1 (R126). -/
theorem State.hostWrite_illegal_iff (s : State) (a : BitVec 18) (n : Nat) (v : Word) :
    s.hostWrite a n v = .refused .illegalAccess ↔ ¬ accessLegal a n = true := by
  refine ⟨fun h hl => ?_, State.hostWrite_illegal⟩
  cases hw : windowOf a with
  | reg => exact State.writeReg_ne_illegal _ _ _ ((State.hostWrite_reg hl hw).symm.trans h)
  | ibuf => exact State.writeIbuf_ne_illegal _ _ _ _ ((State.hostWrite_ibuf hl hw).symm.trans h)
  | obuf => cases (State.hostWrite_obuf hl hw).symm.trans h
  | rom => cases (State.hostWrite_rom hl hw).symm.trans h

/-- Settles O40: `accessLegal` is R41's condition, and it alone decides whether either access is refused as illegal. -/
theorem illegalAccessesRefused : Obligations.IllegalAccessesRefused := by
  intro s a n rest
  simp only [← accessLegal_iff]
  exact ⟨fun hev => by rw [step_read hev, State.hostRead_illegal_iff],
    fun v hev => by rw [step_write hev, State.hostWrite_illegal_iff]⟩

/-! ## Writes to IBUF (spec/20_memory.md R38, R42) -/

/-- IBUF after a write of n bytes at index o: the new bytes in the buffer, and every other one as before. -/
theorem State.ibufByte_writeBytes (s : State) (size o v n x : Nat) :
    State.ibufByte { s with ibuf := writeBytes size s.ibuf o (toLE v n) } x =
      if o ≤ x ∧ x < o + n ∧ x < size then BitVec.ofNat 8 (v / 256 ^ (x - o)) else s.ibufByte x := by
  simp only [State.ibufByte, read_writeBytes, length_toLE]
  split_ifs with hx
  · obtain ⟨hlo, hhi, -⟩ := hx
    rw [getElem?_toLE, if_pos (by omega), Option.getD_some]
  · rfl

theorem State.writeIbuf_next {s : State} {o : Nat} (n : Nat) (v : Word)
    (h : (s.status.busy && decide (o < s.cfg.bufBytes)) = false) :
    s.writeIbuf o n v = .next { s with ibuf := writeBytes s.cfg.bufBytes s.ibuf o (toLE v.toNat n) } := by
  simp only [State.writeIbuf, h]
  rfl

/-- Settles O41: while BUSY = 0 the step is `writeBytes` on IBUF, whose bytes `ibufByte_writeBytes` gives. -/
theorem ibufWriteStoresLittleEndian : Obligations.IbufWriteStoresLittleEndian := by
  intro s a n v rest hev hidle hl hw
  have hopen : (s.status.busy && decide (windowOffset a < s.cfg.bufBytes)) = false := by simp [hidle]
  refine ⟨_, (step_write hev).trans ((State.hostWrite_ibuf hl hw).trans (State.writeIbuf_next n v hopen)),
    ⟨rfl, rfl, rfl, rfl, rfl, rfl, rfl, rfl⟩, fun _ => rfl, rfl, rfl, rfl, fun i hi hsize => ?_, fun x hx => ?_⟩
  · rw [State.ibufByte_writeBytes, if_pos ⟨Nat.le_add_right _ _, Nat.add_lt_add_left hi _, hsize⟩,
      Nat.add_sub_cancel_left, BitVec.toNat_ofNat]
  · have hout : ¬ (windowOffset a ≤ x ∧ x < windowOffset a + n ∧ x < s.cfg.bufBytes) := by omega
    exact (State.ibufByte_writeBytes ..).trans (if_neg hout)

/-! ## Ignored writes (spec/20_memory.md R37-R40) -/

/-- CMD and IN_LEN are the registers that a write changes. -/
theorem State.writeReg_ignored (s : State) {o : Nat} (v : Word) (h0 : o ≠ 0) (h8 : o ≠ 8) :
    s.writeReg o v = .next s := by
  simp [State.writeReg, h0, h8]

/-- Bytes written at or beyond the end of the buffer are dropped (R38). -/
theorem writeBytes_of_size_le {size i : Nat} (m : Memory) (bs : List Byte) (h : size ≤ i) :
    writeBytes size m i bs = m := by
  induction bs generalizing i with
  | nil => rfl
  | cons b bs ih => rw [writeBytes, if_neg (by omega), ih (by omega)]

theorem State.hostWrite_readOnly {s : State} {a : BitVec 18} {n : Nat} (v : Word) (hl : accessLegal a n = true)
    (haddr : a.toNat < 0x10000 ∧ a.toNat ≠ 0 ∧ a.toNat ≠ 8 ∨ 0x10000 + s.cfg.bufBytes ≤ a.toNat) :
    s.hostWrite a n v = .next s := by
  cases hw : windowOf a with
  | reg =>
    have hreg := (windowOf_iff a).1.1 hw
    have hoff := windowOffset_of_reg hreg
    exact (State.hostWrite_reg hl hw).trans (State.writeReg_ignored s v (by omega) (by omega))
  | ibuf =>
    obtain ⟨hlo, hhi⟩ := (windowOf_iff a).2.1.1 hw
    have hbeyond : s.cfg.bufBytes ≤ windowOffset a := by unfold windowOffset; omega
    rw [State.hostWrite_ibuf hl hw, State.writeIbuf_next n v (by simp [hbeyond]), writeBytes_of_size_le _ _ hbeyond]
  | obuf => exact State.hostWrite_obuf hl hw
  | rom => exact State.hostWrite_rom hl hw

/-- Settles O42: the write answers the state it found, but for the event taken off the list. -/
theorem readOnlyWritesIgnored : Obligations.ReadOnlyWritesIgnored := by
  intro s a n v rest hev hl haddr
  exact ⟨{ s with inputs := rest }, (step_write hev).trans (State.hostWrite_readOnly v hl haddr),
    ⟨rfl, rfl, rfl, rfl, rfl, rfl, rfl, rfl⟩, fun _ => rfl, fun _ => rfl, rfl, rfl, rfl⟩

/-! ## Reads (spec/20_memory.md R44; spec/70_reset_and_hazards.md R127) -/

/-- The reads left open while BUSY = 1, by address (R127). -/
theorem unspecifiedWhileBusy_iff (a : BitVec 18) : unspecifiedWhileBusy a = true ↔
    0x20000 ≤ a.toNat ∧ a.toNat < 0x30000 ∨ a.toNat = 0x0C ∨ a.toNat = 0x10 ∨ a.toNat = 0x18 ∨ a.toNat = 0x1C := by
  obtain ⟨hreg, hibuf, hobuf, hrom⟩ := windowOf_iff a
  cases hw : windowOf a with
  | reg =>
    have := hreg.1 hw
    rw [unspecifiedWhileBusy_of_reg this]
    omega
  | ibuf =>
    have := hibuf.1 hw
    simp only [unspecifiedWhileBusy, hw, Bool.false_eq_true, false_iff]
    omega
  | obuf => simp [unspecifiedWhileBusy, hw, hobuf.1 hw]
  | rom =>
    have := hrom.1 hw
    simp only [unspecifiedWhileBusy, hw, Bool.false_eq_true, false_iff]
    omega

/-- A read that is not left open returns `readValue`. -/
theorem step_read_fixed {s : State} {a : BitVec 18} {n : Nat} {rest : List Event} (hev : NextEvent s (.read a n) rest)
    (hl : accessLegal a n = true) (ho : (s.status.busy && unspecifiedWhileBusy a) = false) :
    step s = .next { s with inputs := rest, rdata := s.readValue a n } :=
  (step_read hev).trans (State.hostRead_fixed hl ho)

/-- What a read returns does not depend on the events to come or on what an earlier read returned. -/
theorem State.readValue_inputs_rdata (s : State) (rest : List Event) (w : Word) (a : BitVec 18) (n : Nat) :
    State.readValue { s with inputs := rest, rdata := w } a n = s.readValue a n := rfl

/-- Settles O43: a read that returns a free value is one of those left open while BUSY = 1; every other one returns
`readValue`, which no read changes. -/
theorem readsLeaveStateAlone : Obligations.ReadsLeaveStateAlone := by
  intro s a n rest hev hl
  simp only [← unspecifiedWhileBusy_iff]
  cases ho : s.status.busy && unspecifiedWhileBusy a with
  | true =>
    obtain ⟨hbusy, hopen⟩ := Bool.and_eq_true_iff.1 ho
    refine ⟨_, (step_read hev).trans (State.hostRead_open hl ho), ⟨rfl, rfl, rfl, rfl, rfl, rfl, rfl, rfl⟩,
      fun _ => rfl, fun _ => rfl, rfl, rfl, fun hfixed => ?_⟩
    simp [hbusy, hopen] at hfixed
  | false =>
    refine ⟨{ s with inputs := rest, rdata := s.readValue a n }, step_read_fixed hev hl ho,
      ⟨rfl, rfl, rfl, rfl, rfl, rfl, rfl, rfl⟩, fun _ => rfl, fun _ => rfl, rfl, rfl, fun _ rest' hrest => ?_⟩
    obtain ⟨hwf, hmux, -⟩ := hev
    exact ⟨_, step_read_fixed ⟨hwf, hmux, hrest⟩ hl ho, State.readValue_inputs_rdata s rest _ a n⟩

/-! ## What a read of a byte window returns (spec/20_memory.md R38-R40, R42) -/

/-- Legal accesses are of 1 or 4 bytes. -/
theorem width_of_accessLegal {a : BitVec 18} {n : Nat} (hl : accessLegal a n = true) :
    n = 1 ∨ n = 4 ∧ a.toNat % 4 = 0 := by
  rw [accessLegal_iff] at hl
  split_ifs at hl
  · exact .inr hl
  · exact hl

theorem State.readValue_of_byteWindow (s : State) {a : BitVec 18} (n : Nat) (h : windowOf a ≠ .reg) :
    s.readValue a n = s.windowWord (windowOf a) (windowOffset a) n := by
  cases hw : windowOf a with
  | reg => exact absurd hw h
  | ibuf | obuf | rom => simp only [State.readValue, hw]

/-- Up to four bytes fill the read value without loss. -/
theorem State.toNat_windowWord (s : State) (w : Window) (o : Nat) {n : Nat} (hn : n ≤ 4) :
    (s.windowWord w o n).toNat = leNat ((List.range n).map fun i => s.windowByte w (o + i)) :=
  Nat.mod_eq_of_lt (leNat_lt_word (by simpa using hn))

/-- Settles O46: the read is not one that R127 leaves open, and its value is the sum of the window's bytes. -/
theorem bufferReadValues : Obligations.BufferReadValues := by
  intro s a n rest hev hl hwin
  have hwidth := width_of_accessLegal hl
  have ho : (s.status.busy && unspecifiedWhileBusy a) = false := by
    obtain hw | ⟨hw, hidle⟩ := hwin
    · simp [unspecifiedWhileBusy, hw]
    · simp [hidle]
  have hreg : windowOf a ≠ .reg := by
    obtain hw | ⟨hw, -⟩ := hwin <;> simp [hw]
  refine ⟨_, step_read_fixed hev hl ho, ?_⟩
  simp only [State.readValue_of_byteWindow _ n hreg, State.toNat_windowWord _ _ _ (show n ≤ 4 by omega), leNat_map]
  refine congrArg List.sum (List.map_congr_left fun i _ => ?_)
  rw [Nat.mul_comm]
  obtain hw | ⟨hw, -⟩ := hwin
  · simp only [hw, State.windowByte, if_true]
    split_ifs <;> rfl
  · simp only [hw, State.windowByte, reduceCtorEq, if_false]
    split_ifs <;> rfl

/-! ## The ROM window (spec/20_memory.md R40) -/

/-- A read whose bytes are those of a number gives its low n bytes. -/
theorem State.toNat_windowWord_of_bytes {s : State} {w : Window} {o n v : Nat} (hn : n ≤ 4)
    (h : ∀ i, i < n → s.windowByte w (o + i) = BitVec.ofNat 8 (v / 256 ^ i)) :
    (s.windowWord w o n).toNat = v % 256 ^ n := by
  have hbytes : ((List.range n).map fun i => s.windowByte w (o + i)) = toLE v n := by
    apply List.ext_getElem?
    intro i
    rw [getElem?_toLE]
    split_ifs with hi
    · simp [hi, h i hi]
    · simp [hi]
  rw [State.toNat_windowWord s w o hn, hbytes, leNat_toLE]

/-- Byte q of the descriptor word of rule k at position p. -/
theorem romByte_descriptor {cfg : Config} {k p q : Nat} {r : Rule} {d : Descriptor} (hwf : cfg.wf = true)
    (hr : cfg.rules[k]? = some r) (hd : r.fields[p]? = some d) (hq : q < 8) :
    romByte cfg (8 * (18 * k + p) + q) = BitVec.ofNat 8 (d.word.toNat / 256 ^ q) := by
  obtain ⟨-, -, -, hrules⟩ := Config.wf_ranges hwf
  obtain ⟨hk, -⟩ := List.getElem?_eq_some_iff.1 hr
  have hp := position_lt hd
  have hrule : (8 * (18 * k + p) + q) / 144 = k := by omega
  have hpos : (8 * (18 * k + p) + q) / 8 % 18 = p := by omega
  have hbyte : (8 * (18 * k + p) + q) % 8 = q := by omega
  rw [romByte, if_pos (by omega), romDescriptorByte, hrule, hpos, hbyte]
  simp only [hr, hd]
  apply BitVec.eq_of_toNat_eq
  rw [toNat_extract, BitVec.toNat_ofNat, Nat.pow_mul]

theorem toNat_byte_lt_pow (b : Byte) {k : Nat} (hk : k ≠ 0) : b.toNat < 256 ^ k :=
  b.isLt.trans_le (Nat.le_self_pow hk 256)

/-- Byte q of the id word of rule k. -/
theorem romByte_id {cfg : Config} {k q : Nat} {r : Rule} (hr : cfg.rules[k]? = some r) (hq : q < 4) :
    romByte cfg (0xF000 + 4 * k + q) = BitVec.ofNat 8 (r.id.toNat / 256 ^ q) := by
  have hoff : 0xF000 + 4 * k + q - 0xF000 = 4 * k + q := by omega
  have hrule : (4 * k + q) / 4 = k := by omega
  have hbyte : (4 * k + q) % 4 = q := by omega
  rw [romByte, if_neg (by omega), hoff, romIdByte, hrule, hbyte]
  split_ifs with h0
  · simp [hr, h0]
  · rw [Nat.div_eq_of_lt (toNat_byte_lt_pow r.id h0)]
    rfl

/-- Past the last descriptor and past the last id the ROM reads 0. -/
theorem romByte_empty {cfg : Config} {o : Nat} (hdesc : 144 * cfg.nRules ≤ o)
    (hid : o < 0xF000 ∨ 0xF000 + 4 * cfg.nRules ≤ o) : romByte cfg o = 0 := by
  have hn : cfg.nRules = cfg.rules.length := rfl
  unfold romByte
  split_ifs with ho
  · have hnone : cfg.rules[o / 144]? = none := List.getElem?_eq_none (by omega)
    simp only [romDescriptorByte, hnone]
  · have hnone : cfg.rules[(o - 0xF000) / 4]? = none := List.getElem?_eq_none (by omega)
    simp only [romIdByte, hnone, ite_self]

/-- Settles O47: the read takes its bytes from `romByte`; a legal one stays inside one word of the ROM, so each clause is
`toNat_windowWord_of_bytes` at the number that stands there. -/
theorem romWindowContents : Obligations.RomWindowContents := by
  intro s a n rest hev hrom hl
  have hwf : s.cfg.wf = true := hev.1
  have hw : windowOf a = .rom := (windowOf_iff a).2.2.2.2 hrom
  have hwidth := width_of_accessLegal hl
  have hoff : windowOffset a + 0x30000 = a.toNat := by have := a.isLt; unfold windowOffset; omega
  have hvalue : ∀ v, (∀ i, i < n → romByte s.cfg (windowOffset a + i) = BitVec.ofNat 8 (v / 256 ^ i)) →
      (s.readValue a n).toNat = v % 256 ^ n := fun v hv => by
    rw [State.readValue_of_byteWindow _ n (by simp [hw]), hw]
    exact State.toNat_windowWord_of_bytes (by omega) hv
  refine ⟨_, step_read_fixed hev hl (by simp [unspecifiedWhileBusy, hw]), ?_, ?_, ?_⟩
  · intro k p q r d hr hd hq ha
    refine hvalue _ fun i hi => ?_
    rw [show windowOffset a + i = 8 * (18 * k + p) + (q + i) by omega, romByte_descriptor hwf hr hd (by omega),
      pow_add, Nat.div_div_eq_div_mul]
  · intro k q r hr hq ha
    have hbytes := hvalue (r.id.toNat / 256 ^ q) fun i hi => by
      rw [show windowOffset a + i = 0xF000 + 4 * k + (q + i) by omega, romByte_id hr (by omega), pow_add,
        Nat.div_div_eq_div_mul]
    rw [hbytes]
    split_ifs with h0
    · rw [h0, pow_zero, Nat.div_one, Nat.mod_eq_of_lt (toNat_byte_lt_pow r.id (by omega))]
    · rw [Nat.div_eq_of_lt (toNat_byte_lt_pow r.id h0), Nat.zero_mod]
  · intro hdesc hid
    apply BitVec.eq_of_toNat_eq
    have hbytes := hvalue 0 fun i hi => by
      rw [romByte_empty (by omega) (by omega), Nat.zero_div]
      rfl
    rw [hbytes, Nat.zero_mod]
    rfl

/-! ## The Engine and the input registers (spec/10_state.md R25; spec/20_memory.md R38) -/

theorem exec_keeps_input {i : Instr} {s t : State} (h : exec i s = .next t) : SameIbuf s t ∧ t.inLen = s.inLen := by
  obtain ⟨r, rfl⟩ | ⟨w, -, rfl⟩ := exec_next h
  · exact ⟨State.ibufByte_commit s r, rfl⟩
  · exact ⟨fun _ => rfl, rfl⟩

theorem State.engineStep_keeps_input {s t : State} (h : s.engineStep = .next t) :
    SameIbuf s t ∧ t.inLen = s.inLen := by
  obtain ⟨-, v, -, ⟨i, r, -, -, rfl⟩ | ⟨-, rfl⟩⟩ := State.engineStep_next h
  · exact ⟨State.ibufByte_commit s r, rfl⟩
  · exact ⟨State.ibufByte_commit s .illegal, rfl⟩

theorem State.hostRead_keeps_input {s t : State} {a : BitVec 18} {n : Nat} (h : s.hostRead a n = .next t) :
    SameIbuf s t ∧ t.inLen = s.inLen := by
  obtain ⟨-, ⟨-, rfl⟩ | ⟨-, rfl⟩⟩ := State.hostRead_next h
  · exact ⟨fun _ => rfl, rfl⟩
  · exact ⟨fun _ => rfl, rfl⟩

/-- Settles O52: a field unit's operation, an Engine's turn and a host read keep the input; the two other events are
excluded. -/
theorem engineNeverWritesInput : Obligations.EngineNeverWritesInput := by
  intro s t h hwrite hreset
  cases hmux : s.walk.mux with
  | none =>
    obtain ⟨rest, ⟨-, he⟩ | ⟨a, n, -, hr⟩ | ⟨a, n, v, ⟨-, -, hin⟩, -⟩ | ⟨⟨-, -, hin⟩, -⟩⟩ :=
      step_next_of_mux_none hmux h
    · exact (State.engineStep_keeps_input he :)
    · exact (State.hostRead_keeps_input hr :)
    · exact absurd hin (hwrite a n v rest)
    · exact absurd hin (hreset rest)
  | some uw =>
    obtain ⟨-, ⟨u, w, i, -, -, -, hi⟩ | ⟨hnone, -⟩⟩ := step_next h
    · exact exec_keeps_input hi
    · simp [hmux] at hnone

end Sys2Proof.Machine

namespace Sys2Proof

open Machine

/-! ## Command values (spec/30_encoding.md R57) -/

/-- A field that reaches the top of a word is 0 exactly when the word is below the field's lowest bit. -/
theorem extract_high_eq_zero_iff {w s n : Nat} (v : BitVec w) (h : w ≤ s + n) :
    v.extractLsb' s n = 0 ↔ v.toNat < 2 ^ s := by
  have hv : v.toNat < 2 ^ s * 2 ^ n := by
    rw [← pow_add]
    exact v.isLt.trans_le (Nat.pow_le_pow_right (by decide) h)
  have hzero : (0 : BitVec n).toNat = 0 := BitVec.toNat_zero
  rw [← BitVec.toNat_inj, toNat_extract, hzero, Nat.mod_eq_of_lt (Nat.div_lt_of_lt_mul hv)]
  simp

theorem extract_low_eq_iff {w n : Nat} (v : BitVec w) (c : BitVec n) :
    v.extractLsb' 0 n = c ↔ v.toNat % 2 ^ n = c.toNat := by
  rw [← BitVec.toNat_inj, toNat_extract, pow_zero, Nat.div_one]

/-- Settles O4: RSV and OP are the CMD value's quotient and remainder by 16. -/
theorem legalCommandValues : Obligations.LegalCommandValues := by
  intro v
  have hrsv : v.extractLsb' 4 28 = 0 ↔ v.toNat / 16 = 0 := by
    rw [extract_high_eq_zero_iff v (by decide)]
    omega
  simp only [decodeCommand, ne_eq, hrsv, extract_low_eq_iff]
  by_cases h : v.toNat / 16 = 0
  · simp [h]
  · simp [h]

/-- A CMD value stands for a command exactly when it is the command's OP code. -/
theorem decodeCommand_eq_ok_iff {v : Word} {i : Instr} :
    decodeCommand v = .ok i ↔ i.port = .cmd ∧ i.code = v.toNat := by
  constructor
  · intro h
    rw [legalCommandValues v] at h
    split_ifs at h <;> cases h
    all_goals exact ⟨rfl, by simp only [Instr.code]; omega⟩
  · rintro ⟨hport, hcode⟩
    obtain rfl : v = BitVec.ofNat 32 i.code := by rw [hcode, BitVec.ofNat_toNat, BitVec.setWidth_eq]
    cases i with
    | compress | decompress | matchCmd | idsynth => rfl
    | _ => cases hport

/-! ## The unit that reads a descriptor word (R54, R55) -/

/-- A descriptor word is read back exactly as the descriptors that keep WF3 and WF4 are laid out. -/
theorem decodeFd_eq_ok_iff {w : FdWord} {d : Descriptor} :
    decodeFd w = .ok d ↔ d.word = w ∧ d.wf3 = true ∧ d.wf4 = true := by
  constructor
  · exact decodeFd_ok
  · rintro ⟨rfl, h3, h4⟩
    exact decodeFd_word h3 h4

/-- The comparator selects by the matchOp. -/
theorem Descriptor.laneInstr_eq_iff {d : Descriptor} {i : Instr} :
    d.laneInstr = i ↔ i.port = .comparator ∧ i.descriptor = some d := by
  constructor
  · rintro rfl
    obtain ⟨tv, bl, msb, mo, act⟩ := d
    cases mo <;> exact ⟨rfl, rfl⟩
  · rintro ⟨hport, hd⟩
    cases i with
    | matchEq | matchIgn | matchMsb => cases hd; rfl
    | _ => cases hport

/-- The residual encoder selects by the action. -/
theorem Descriptor.encodeInstr_eq_iff {d : Descriptor} {i : Instr} :
    d.encodeInstr = i ↔ i.port = .encoder ∧ i.descriptor = some d := by
  constructor
  · rintro rfl
    obtain ⟨tv, bl, msb, mo, act⟩ := d
    cases act <;> exact ⟨rfl, rfl⟩
  · rintro ⟨hport, hd⟩
    cases i with
    | nsCompress | vsCompress | lsbCompress | cmpCompress | cksCompress | devCompress => cases hd; rfl
    | _ => cases hport

/-- The field decoder selects by the action. -/
theorem Descriptor.decodeInstr_eq_iff {d : Descriptor} {i : Instr} :
    d.decodeInstr = i ↔ i.port = .decoder ∧ i.descriptor = some d := by
  constructor
  · rintro rfl
    obtain ⟨tv, bl, msb, mo, act⟩ := d
    cases act <;> exact ⟨rfl, rfl⟩
  · rintro ⟨hport, hd⟩
    cases i with
    | nsDecompress | vsDecompress | lsbDecompress | cmpDecompress | cksDecompress | devDecompress => cases hd; rfl
    | _ => cases hport

/-- A field unit reads the instruction of its own that carries the word's descriptor. -/
theorem decodeUnit_eq_ok_iff_of_ne_cmd {u : Port} (hu : u ≠ .cmd) {w : FdWord} {i : Instr} :
    decodeUnit u w = .ok i ↔ ∃ d, decodeFd w = .ok d ∧ i.port = u ∧ i.descriptor = some d := by
  cases u with
  | cmd => exact absurd rfl hu
  | comparator => cases h : decodeFd w <;> simp [decodeUnit, h, Descriptor.laneInstr_eq_iff]
  | encoder => cases h : decodeFd w <;> simp [decodeUnit, h, Descriptor.encodeInstr_eq_iff]
  | decoder => cases h : decodeFd w <;> simp [decodeUnit, h, Descriptor.decodeInstr_eq_iff]

/-- The command decoder reads a word as the number it is; its upper half must be 0. -/
theorem decodeUnit_cmd_eq_ok_iff {w : FdWord} {i : Instr} :
    decodeUnit .cmd w = .ok i ↔ i.port = .cmd ∧ i.code = w.toNat := by
  have hlo : (w.extractLsb' 0 32).toNat = w.toNat % 2 ^ 32 := by rw [toNat_extract, pow_zero, Nat.div_one]
  simp only [decodeUnit, extract_high_eq_zero_iff w (Nat.le_refl (32 + 32))]
  split_ifs with h
  · rw [decodeCommand_eq_ok_iff, hlo, Nat.mod_eq_of_lt h]
  · simp only [false_iff]
    rintro ⟨hport, hcode⟩
    have : i.code ≤ 4 := by
      cases i with
      | compress | decompress | matchCmd | idsynth => decide
      | _ => cases hport
    omega

/-! ## What an instruction's word stands for -/

theorem Instr.code_of_descriptor {i : Instr} {d : Descriptor} (h : i.descriptor = some d) : i.code = d.word.toNat := by
  cases i <;> cases h <;> rfl

theorem Instr.descriptor_eq_none_iff (i : Instr) : i.descriptor = none ↔ i.port = .cmd := by
  cases i <;> simp [Instr.descriptor, Instr.port]

/-- One meaning for each unit: a unit reads a word as its own instruction of that code, with the bounds of WF3 and
WF4. -/
theorem decodeUnit_eq_ok_iff {u : Port} {w : FdWord} {i : Instr} :
    decodeUnit u w = .ok i ↔
      i.port = u ∧ i.code = w.toNat ∧ ∀ d, i.descriptor = some d → d.wf3 = true ∧ d.wf4 = true := by
  by_cases hu : u = .cmd
  · subst hu
    rw [decodeUnit_cmd_eq_ok_iff]
    constructor
    · rintro ⟨hport, hcode⟩
      exact ⟨hport, hcode, by simp [i.descriptor_eq_none_iff.2 hport]⟩
    · rintro ⟨hport, hcode, -⟩
      exact ⟨hport, hcode⟩
  · rw [decodeUnit_eq_ok_iff_of_ne_cmd hu]
    constructor
    · rintro ⟨d, hw, hport, hd⟩
      obtain ⟨rfl, hwf⟩ := decodeFd_eq_ok_iff.1 hw
      refine ⟨hport, Instr.code_of_descriptor hd, fun d' hd' => ?_⟩
      cases hd.symm.trans hd'
      exact hwf
    · rintro ⟨rfl, hcode, hwf⟩
      obtain ⟨d, hd⟩ := Option.ne_none_iff_exists'.1 (mt i.descriptor_eq_none_iff.1 hu)
      have hword : d.word = w := BitVec.eq_of_toNat_eq (Instr.code_of_descriptor hd ▸ hcode)
      exact ⟨d, decodeFd_eq_ok_iff.2 ⟨hword, hwf d hd⟩, rfl, hd⟩

/-! ## Bytes -/

theorem Port.wordBytes_le (u : Port) : u.wordBytes ≤ 8 := by cases u <;> decide

theorem Instr.code_lt (i : Instr) : i.code < 256 ^ i.port.wordBytes := by
  cases i with
  | compress | decompress | matchCmd | idsynth => decide
  | _ => exact BitVec.isLt _

theorem length_encode (i : Instr) : (encode i).length = i.port.wordBytes := length_toLE _ _

theorem leNat_encode (i : Instr) : leNat (encode i) = i.code := by
  rw [encode, leNat_toLE, Nat.mod_eq_of_lt i.code_lt]

/-- The number of a unit's word fits 64 bits. -/
theorem toNat_ofNat_leNat {bs : List Byte} (h : bs.length ≤ 8) : (BitVec.ofNat 64 (leNat bs)).toNat = leNat bs := by
  rw [BitVec.toNat_ofNat, Nat.mod_eq_of_lt]
  exact (leNat_lt bs).trans_le (Nat.pow_le_pow_right (by norm_num) h)

/-- Decoding reads the unit's bytes and no more. -/
theorem decode_eq_ok_iff {u : Port} {bs : List Byte} {i : Instr} :
    decode u bs = .ok i ↔
      u.wordBytes ≤ bs.length ∧ decodeUnit u (BitVec.ofNat 64 (leNat (bs.take u.wordBytes))) = .ok i := by
  unfold decode
  split_ifs with h
  · simp [h]
  · simp [Nat.not_lt.1 h]

/-- Settles O1: the encoder's bytes are the instruction's code, which its own unit reads as that instruction. -/
theorem encodedInstructionsDecode : Obligations.EncodedInstructionsDecode := by
  intro i hwf
  have hlen := length_encode i
  rw [decode_eq_ok_iff, List.take_of_length_le hlen.le, decodeUnit_eq_ok_iff,
    toNat_ofNat_leNat (hlen.trans_le i.port.wordBytes_le), leNat_encode]
  exact ⟨hlen.ge, rfl, rfl, hwf⟩

/-- Settles O2: a decoded instruction's code is the number of the bytes read, whose layout gives the bytes back. -/
theorem decodedWordsEncodeBack : Obligations.DecodedWordsEncodeBack := by
  intro u bs i h
  obtain ⟨hlen, hunit⟩ := decode_eq_ok_iff.1 h
  obtain ⟨hport, hcode, -⟩ := decodeUnit_eq_ok_iff.1 hunit
  have htake : (bs.take u.wordBytes).length = u.wordBytes := List.length_take_of_le hlen
  rw [toNat_ofNat_leNat (htake.trans_le u.wordBytes_le)] at hcode
  refine ⟨hport, ?_⟩
  calc encode i = toLE (leNat (bs.take u.wordBytes)) (bs.take u.wordBytes).length := by rw [encode, hcode, hport, htake]
    _ = bs.take u.wordBytes := toLE_leNat _

/-! ## The descriptor word (R52) -/

/-- The fields of a descriptor's word stand at the places of R52. -/
theorem Descriptor.fields_word (d : Descriptor) :
    d.tv.toNat = d.word.toNat % 2 ^ 32 ∧ d.bl.toNat = d.word.toNat / 2 ^ 32 % 64 ∧
      d.msb.toNat = d.word.toNat / 2 ^ 38 % 64 ∧ d.mo.code.toNat = d.word.toNat / 2 ^ 44 % 4 ∧
      d.act.code.toNat = d.word.toNat / 2 ^ 46 % 8 ∧ d.word.toNat / 2 ^ 49 = 0 := by
  have := d.tv.isLt
  have := d.bl.isLt
  have := d.msb.isLt
  have := d.mo.code.isLt
  have := d.act.code.isLt
  have := d.toNat_word
  omega

theorem MatchOp.eq_iff_code (mo mo' : MatchOp) : mo = mo' ↔ mo.code.toNat = mo'.code.toNat := by
  refine ⟨fun h => h ▸ rfl, fun h => Option.some.inj ?_⟩
  calc some mo = MatchOp.ofCode mo.code := ((MatchOp.ofCode_eq_some _ mo).2 rfl).symm
    _ = some mo' := (MatchOp.ofCode_eq_some _ mo').2 (BitVec.eq_of_toNat_eq h)

theorem Action.eq_iff_code (act act' : Action) : act = act' ↔ act.code.toNat = act'.code.toNat := by
  refine ⟨fun h => h ▸ rfl, fun h => Option.some.inj ?_⟩
  calc some act = Action.ofCode act.code := ((Action.ofCode_eq_some _ act).2 rfl).symm
    _ = some act' := (Action.ofCode_eq_some _ act').2 (BitVec.eq_of_toNat_eq h)

theorem MatchOp.code_le (mo : MatchOp) : mo.code.toNat ≤ 2 := by cases mo <;> decide

theorem Action.code_le (act : Action) : act.code.toNat ≤ 5 := by cases act <;> decide

/-- The legal words (R63): reserved bits 0, legal codes, and WF3 and WF4. -/
theorem exists_decodeFd_iff (w : FdWord) :
    (∃ d, decodeFd w = .ok d) ↔
      w.toNat / 2 ^ 49 = 0 ∧ w.toNat / 2 ^ 44 % 4 ≤ 2 ∧ w.toNat / 2 ^ 46 % 8 ≤ 5 ∧
        w.toNat / 2 ^ 32 % 64 ≤ 32 ∧ w.toNat / 2 ^ 38 % 64 ≤ w.toNat / 2 ^ 32 % 64 := by
  constructor
  · rintro ⟨d, h⟩
    obtain ⟨rfl, h3, h4⟩ := decodeFd_eq_ok_iff.1 h
    obtain ⟨-, hbl, hmsb, hmo, hact, hrsv⟩ := d.fields_word
    simp only [Descriptor.wf3, Descriptor.wf4, decide_eq_true_eq] at h3 h4
    exact ⟨hrsv, hmo ▸ d.mo.code_le, hact ▸ d.act.code_le, hbl ▸ h3, hmsb ▸ hbl ▸ h4⟩
  · rintro ⟨hrsv, hmo, hact, hbl, hmsb⟩
    obtain ⟨mo, hmo⟩ := Option.ne_none_iff_exists'.1 <|
      mt (MatchOp.ofCode_eq_none (FdWord.mo w)).1 (Nat.not_lt.2 ((toNat_extract w 44 2).trans_le hmo))
    obtain ⟨act, hact⟩ := Option.ne_none_iff_exists'.1 <|
      mt (Action.ofCode_eq_none (FdWord.act w)).1 (Nat.not_lt.2 ((toNat_extract w 46 3).trans_le hact))
    have h0 : FdWord.rsv w = 0 := (extract_high_eq_zero_iff w (Nat.le_refl (49 + 15))).2 (by omega)
    have h3 : (FdWord.bl w).toNat ≤ 32 := (toNat_extract w 32 6).trans_le hbl
    have h4 : (FdWord.msb w).toNat ≤ (FdWord.bl w).toNat := by
      rw [FdWord.msb, FdWord.bl, toNat_extract, toNat_extract]
      exact hmsb
    refine ⟨⟨FdWord.tv w, FdWord.bl w, FdWord.msb w, mo, act⟩, ?_⟩
    rw [decodeFd, if_neg (not_not.2 h0), if_neg h3.not_gt, if_neg h4.not_gt, hmo, hact]

/-- Settles O5: the word of a decoded descriptor is the word it was read from, so the fields stand where
`Descriptor.fields_word` finds them; every field unit reads its word by `decodeFd`. -/
theorem descriptorWordLayout : Obligations.DescriptorWordLayout := by
  intro w
  refine ⟨exists_decodeFd_iff w, fun d h => ?_, fun h u i hu hi => ?_⟩
  · obtain ⟨rfl, -, -⟩ := decodeFd_eq_ok_iff.1 h
    obtain ⟨htv, hbl, hmsb, hmo, hact, -⟩ := d.fields_word
    rw [← hmo, ← hact]
    exact ⟨htv, hbl, hmsb, d.mo.eq_iff_code _, d.mo.eq_iff_code _, d.mo.eq_iff_code _, d.act.eq_iff_code _,
      d.act.eq_iff_code _, d.act.eq_iff_code _, d.act.eq_iff_code _, d.act.eq_iff_code _, d.act.eq_iff_code _⟩
  · obtain ⟨d, hd, -, -⟩ := (decodeUnit_eq_ok_iff_of_ne_cmd hu).1 hi
    exact h d hd

/-- Settles O3: the decoder evaluates each of the ten words. -/
theorem specWordsDecode : Obligations.SpecWordsDecode := by
  unfold Obligations.SpecWordsDecode
  decide

/-! ## Well-formedness (R56) -/

theorem Config.wf2_iff (cfg : Config) : cfg.wf2 = true ↔ ∀ k r, cfg.rules[k]? = some r → r.id.toNat = k + 1 := by
  simp only [Config.wf2, List.all_eq_true, Prod.forall, List.mem_zipIdx_iff_getElem?, decide_eq_true_eq]
  exact forall_comm

theorem Rule.wf_iff (r : Rule) : r.wf = true ↔
    ∀ (p : Nat) (d : Descriptor), r.fields[p]? = some d → d.wfAt p = true := by
  refine ⟨fun h p d => Rule.wf_field h, fun h => ?_⟩
  simp only [Rule.wf, List.all_eq_true, Prod.forall]
  exact fun d p hd => h p d ((mem_ruleFields r d p).1 hd)

theorem Descriptor.wfAt_iff (d : Descriptor) (p : Nat) : d.wfAt p = true ↔
    d.bl.toNat ≤ 32 ∧ d.msb.toNat ≤ d.bl.toNat ∧ (d.mo ≠ .ign → d.tv.toNat < 2 ^ d.bl.toNat) ∧
      (d.act = .dev → p = 8 ∨ p = 9 ∨ p = 12 ∨ p = 13) := by
  simp [Descriptor.wfAt, Descriptor.wf, Descriptor.wf3, Descriptor.wf4, Descriptor.wf5, Descriptor.wf9, iidPosition,
    and_assoc, or_assoc, imp_iff_not_or]

theorem Config.wf_iff (cfg : Config) : cfg.wf = true ↔
    cfg.wf1 = true ∧ cfg.wf2 = true ∧ (∀ r ∈ cfg.rules, r.wf = true) ∧ cfg.wf10 = true := by
  simp only [Config.wf, Bool.and_eq_true, List.all_eq_true, and_assoc]

theorem decodeFds_eq_none {ws : List FdWord} {w : FdWord} (hw : w ∈ ws) (h : ∀ d, decodeFd w ≠ .ok d) :
    decodeFds ws = none := by
  induction ws with
  | nil => cases hw
  | cons v ws ih =>
    unfold decodeFds
    split
    · rename_i d ds hd hds
      rcases List.mem_cons.1 hw with rfl | hmem
      · exact absurd hd (h d)
      · exact absurd hds (by simp [ih hmem])
    · rfl

theorem Rule.ofWords_eq_none (id : Byte) {ws : List FdWord} (h : decodeFds ws = none) : Rule.ofWords id ws = none := by
  simp [Rule.ofWords, h]

theorem Machine.step_of_not_wf {s : State} (h : s.cfg.wf = false) :
    step s = .refused .configNotWellFormed := by
  simp [step, h]

/-- Settles O6: the checks are WF1, WF2, WF10 and one for each descriptor at its position; one bad word spoils the
list of a rule. -/
theorem configurationChecks : Obligations.ConfigurationChecks := by
  refine ⟨fun cfg => ?_, fun id ws ⟨w, hw, h⟩ => Rule.ofWords_eq_none id (decodeFds_eq_none hw h),
    fun _ => step_of_not_wf⟩
  simp only [Config.wf_iff, Config.wf2_iff, Rule.wf_iff, Descriptor.wfAt_iff, Config.wf1, Config.wf10, Bool.and_eq_true,
    decide_eq_true_eq, and_assoc]

/-! ## The residual length (R61, R102) -/

/-- Settles O32: the walk starts behind the tag, inside the frame. -/
theorem walkConsumesResidualLength : Obligations.WalkConsumesResidualLength := by
  intro cfg inp r hc off hlen hwalk
  obtain ⟨hoff, hin⟩ := fieldWalk_done hwalk
  rw [sum_ruleFields r (consumedBytes cfg)] at hoff
  have hfit := hin hlen
  exact ⟨hoff, hfit, by omega, by omega⟩

end Sys2Proof

namespace Sys2Proof.Machine

/-! ## The Engine's turn (spec/40_dispatch.md R67, R69, R71) -/

/-- A legal pending value is executed as the command it stands for. -/
theorem State.engineStep_of_ok {s : State} {v : Word} {i : Instr} (hb : s.status.busy = true) (hp : s.pend = some v)
    (hv : decodeCommand v = .ok i) : s.engineStep = exec i s := by
  simp [State.engineStep, hb, hp, hv]

/-- Any other pending value completes as IllegalCommand. -/
theorem State.engineStep_of_rejected {s : State} {v : Word} {why : Reject} (hb : s.status.busy = true)
    (hp : s.pend = some v) (hv : decodeCommand v = .rejected why) : s.engineStep = .next (s.commit .illegal) := by
  simp [State.engineStep, hb, hp, hv]

theorem step_of_mux {s : State} {u : Port} {w : FdWord} (hwf : s.cfg.wf = true) (hm : s.walk.mux = some (u, w)) :
    step s = s.unitStep u w := by
  simp [step, hwf, hm]

theorem State.unitStep_of_ok {s : State} {u : Port} {w : FdWord} {i : Instr} (hd : decodeUnit u w = .ok i)
    (hi : i.wfAt s.walk.j = true) : s.unitStep u w = exec i s := by
  simp [State.unitStep, hd, hi]

/-- Settles O7: a word's little-endian bytes decode as the word does, by the Engine or by the unit that the MUX
presents it to. -/
theorem stepRunsDecodedInstruction : Obligations.StepRunsDecodedInstruction := by
  constructor
  · intro s v i rest hturn hbusy hpend hdec
    rw [decode_command_bytes] at hdec
    calc step s = State.engineStep { s with inputs := rest } := step_engineTurn hturn
      _ = exec i { s with inputs := rest } := State.engineStep_of_ok hbusy hpend hdec
  · intro s u w i hwf hmux hu hdec hi
    rw [decode_unit_bytes hu] at hdec
    calc step s = s.unitStep u w := step_of_mux hwf hmux
      _ = exec i s := State.unitStep_of_ok hdec hi

/-- A CMD value whose quotient by 16 is not 0, or whose remainder is none of 1 to 4, is no command (R57). -/
theorem decodeCommand_of_illegal {v : Word} (h : v.toNat / 16 ≠ 0 ∨ v.toNat % 16 = 0 ∨ 5 ≤ v.toNat % 16) :
    decodeCommand v = .rejected .illegalCommand := by
  rw [legalCommandValues v, if_neg (by omega), if_neg (by omega), if_neg (by omega), if_neg (by omega)]

/-- The end of an Engine step shows its result's row of R68, where the lengths fit their 16 bits. -/
theorem State.completedWith_commit (s : State) {r : CmdResult} (hout : r.outLen < 2 ^ 16) (hhdr : r.hdrLen < 2 ^ 16) :
    CompletedWith s (s.commit r) r.status.matched r.status.err r.status.tag.toNat r.status.errPos.toNat r.outLen
      r.hdrLen :=
  ⟨rfl, r.status_busy, r.status_done, rfl, rfl, rfl, rfl, Nat.mod_eq_of_lt hout, Nat.mod_eq_of_lt hhdr, rfl, rfl,
    State.ibufByte_commit s r, rfl, rfl⟩

/-- Settles O9: the Engine commits IllegalCommand, whose row of R68 keeps OBUF and the identity words. -/
theorem illegalCommandCompletes : Obligations.IllegalCommandCompletes := by
  intro s v rest hturn hbusy hpend hv
  let s₀ : State := { s with inputs := rest }
  have hstep : step s = .next (s₀.commit .illegal) := (step_engineTurn hturn).trans
    (State.engineStep_of_rejected hbusy hpend (decodeCommand_of_illegal hv))
  exact ⟨_, hstep, s₀.completedWith_commit (r := .illegal) (by decide) (by decide), rfl,
    State.obufByte_commit_keep (s := s₀) rfl, rfl, rfl⟩

/-! ## The length check (spec/40_dispatch.md R70) -/

/-- A field walk raises only what a field can raise (R115). -/
theorem fieldWalk_raised_kind {cfg : Config} {inp : List Byte} {l : List (Descriptor × Nat)} {hc : HeaderContext}
    {off p : Nat} {e : ErrKind} (h : fieldWalk cfg inp l hc off = .raised e p) :
    e = .truncatedBuffer ∨ e = .invalidDeviceIdentity := by
  induction l generalizing hc off with
  | nil => cases h
  | cons dp rest ih =>
    obtain ⟨d, q⟩ := dp
    simp only [fieldWalk] at h
    split at h
    · exact ih h
    · rename_i hfield
      cases h
      exact decodeField_raised hfield

theorem compressInput_err_ne_lengthError (cfg : Config) (inp : List Byte) :
    (compressInput cfg inp).status.err ≠ .lengthError := by
  obtain h | ⟨k, r, out, n, -, h⟩ := compressInput_cases cfg inp
  · rw [h]; exact ErrKind.noConfusion
  · rw [h]; exact ErrKind.noConfusion

theorem matchInput_err_ne_lengthError (cfg : Config) (inp : List Byte) :
    (matchInput cfg inp).status.err ≠ .lengthError := by
  obtain h | ⟨k, -, -, h⟩ := matchInput_cases cfg inp
  · rw [h]; exact ErrKind.noConfusion
  · rw [h]; exact ErrKind.noConfusion

theorem decompressUnder_err_ne_lengthError (cfg : Config) (r : Rule) (tag : Byte) (inp : List Byte) :
    (decompressUnder cfg r tag inp).status.err ≠ .lengthError := by
  obtain ⟨e, p, hw, h⟩ | ⟨hc, off, -, h⟩ := decompressUnder_cases cfg r tag inp
  · rw [h]
    obtain rfl | rfl := fieldWalk_raised_kind hw
    · exact ErrKind.noConfusion
    · exact ErrKind.noConfusion
  · rw [h]; exact ErrKind.noConfusion

theorem decompressInput_err_ne_lengthError (cfg : Config) (inp : List Byte) :
    (decompressInput cfg inp).status.err ≠ .lengthError := by
  unfold decompressInput
  split
  · exact ErrKind.noConfusion
  · split_ifs
    · exact ErrKind.noConfusion
    · split
      · exact ErrKind.noConfusion
      · exact decompressUnder_err_ne_lengthError cfg _ _ _

/-- The three commands with the length check: beyond it none reports LengthError. -/
theorem commandResult_withInput (s : State) {i : Instr}
    (hi : i ∈ [Instr.compress, Instr.decompress, Instr.matchCmd]) :
    ∃ f, commandResult s i = some (s.withInput f) ∧ ∀ inp, (f inp).status.err ≠ .lengthError := by
  simp only [List.mem_cons, List.not_mem_nil, or_false] at hi
  obtain rfl | rfl | rfl := hi
  · exact ⟨_, rfl, compressInput_err_ne_lengthError s.cfg⟩
  · exact ⟨_, rfl, decompressInput_err_ne_lengthError s.cfg⟩
  · exact ⟨_, rfl, matchInput_err_ne_lengthError s.cfg⟩

theorem idSynth_err_ne_lengthError (cfg : Config) : (idSynth cfg).status.err ≠ .lengthError := by
  obtain ⟨-, h⟩ | ⟨-, h⟩ := idSynth_cases cfg
  · rw [h]; exact ErrKind.noConfusion
  · rw [h]; exact ErrKind.noConfusion

theorem State.input_of_frameLen_zero {s : State} (h : s.frameLen = 0) : s.input = [] :=
  List.eq_nil_of_length_eq_zero (s.length_input.trans h)

/-- The empty frame passes the length check: a command then has its function's result for it. -/
theorem State.withInput_of_frameLen_zero {s : State} (f : List Byte → CmdResult) (h : s.frameLen = 0) :
    s.withInput f = f [] := by
  rw [State.withInput_of_le f (h.trans_le (Nat.zero_le _)), State.input_of_frameLen_zero h]

/-- Settles O10: a command commits its result, which is LengthError for L > BUF_BYTES and otherwise the command's own,
for L = 0 the one of the empty frame. -/
theorem lengthErrorCompletes : Obligations.LengthErrorCompletes := by
  intro s _
  refine ⟨fun hlong i hi => ?_, fun hfit i hi => ?_, fun hzero => ?_, ?_⟩
  · obtain ⟨f, hf, -⟩ := commandResult_withInput s hi
    rw [State.withInput_of_lt f hlong] at hf
    exact ⟨_, exec_of_commandResult hf, s.completedWith_commit (r := .lengthErr) (by decide) (by decide), rfl,
      State.obufByte_commit_keep rfl, rfl, rfl⟩
  · obtain ⟨f, hf, herr⟩ := commandResult_withInput s hi
    rw [State.withInput_of_le f hfit] at hf
    exact ⟨_, exec_of_commandResult hf, herr s.input⟩
  · have hcomp : commandResult s .compress = some (.cmpPass [0]) :=
      congrArg some (State.withInput_of_frameLen_zero _ hzero)
    have hdec : commandResult s .decompress = some (.decErr .truncatedBuffer 0 noPosition) :=
      congrArg some (State.withInput_of_frameLen_zero _ hzero)
    have hmatch : commandResult s .matchCmd = some .matchNone :=
      congrArg some (State.withInput_of_frameLen_zero _ hzero)
    exact ⟨⟨_, exec_of_commandResult hcomp, s.completedWith_commit (r := .cmpPass [0]) (by decide) (by decide),
        State.obufByte_commit_write rfl rfl⟩,
      ⟨_, exec_of_commandResult hdec,
        s.completedWith_commit (r := .decErr .truncatedBuffer 0 noPosition) (by decide) (by decide)⟩,
      ⟨_, exec_of_commandResult hmatch, s.completedWith_commit (r := .matchNone) (by decide) (by decide)⟩⟩
  · exact ⟨_, exec_of_commandResult rfl, idSynth_err_ne_lengthError s.cfg⟩

/-! ## A busy block (spec/40_dispatch.md R71) -/

/-- While BUSY = 1 no host write reaches STATUS or PEND (R126). -/
theorem State.hostWrite_busy_keeps_command {s t : State} {a : BitVec 18} {n : Nat} {v : Word}
    (hb : s.status.busy = true) (h : s.hostWrite a n v = .next t) : t.status = s.status ∧ t.pend = s.pend := by
  obtain ⟨-, ⟨hidle, -⟩ | ⟨hidle, -⟩ | ⟨-, -, rfl⟩ | rfl⟩ := State.hostWrite_next h
  · simp [hb] at hidle
  · simp [hb] at hidle
  · exact ⟨rfl, rfl⟩
  · exact ⟨rfl, rfl⟩

/-- Settles O54: a read keeps every register, and a busy block takes no write that starts a command. -/
theorem busyUntilEngineStep : Obligations.BusyUntilEngineStep := by
  intro s t ev rest hev hengine hreset hbusy h
  cases ev with
  | read a n =>
    obtain ⟨-, hstatus, -, -, -, -, -, hpend⟩ := State.hostRead_sameRegisters ((step_read hev).symm.trans h)
    exact ⟨hstatus ▸ hbusy, hpend⟩
  | write a n v =>
    obtain ⟨hstatus, hpend⟩ := State.hostWrite_busy_keeps_command (s := { s with inputs := rest }) hbusy
      ((step_write hev).symm.trans h)
    exact ⟨hstatus ▸ hbusy, hpend⟩
  | engine => exact absurd rfl hengine
  | reset => exact absurd rfl hreset

/-- Each of the four commands has a result to commit. -/
theorem exists_commandResult (s : State) {i : Instr}
    (hi : i ∈ [Instr.compress, Instr.decompress, Instr.matchCmd, Instr.idsynth]) : ∃ r, commandResult s i = some r := by
  simp only [List.mem_cons, List.not_mem_nil, or_false] at hi
  obtain rfl | rfl | rfl | rfl := hi
  · exact ⟨_, rfl⟩
  · exact ⟨_, rfl⟩
  · exact ⟨_, rfl⟩
  · exact ⟨_, rfl⟩

/-- With a value in PEND a busy Engine always has its step, which commits a result (R67). -/
theorem State.engineStep_commits {s : State} {v : Word} (hb : s.status.busy = true) (hp : s.pend = some v) :
    ∃ r, s.engineStep = .next (s.commit r) := by
  cases hv : decodeCommand v with
  | ok i =>
    obtain ⟨r, hr⟩ := exists_commandResult s (by simpa using decodeCommand_ok hv)
    exact ⟨r, (State.engineStep_of_ok hb hp hv).trans (exec_of_commandResult hr)⟩
  | rejected why => exact ⟨.illegal, State.engineStep_of_rejected hb hp hv⟩

theorem core_run_succ {s t : State} (k : Nat) (h : step s = .next t) :
    Host.Core.run Sys2Proof.core (k + 1) s = Host.Core.run Sys2Proof.core k t := by
  have hcore : Sys2Proof.core.step s = .next t := h
  simp only [Host.Core.run, hcore]

/-- Settles O55: each read takes one event off the list and keeps the command pending; with the list empty it is the
Engine's turn. -/
theorem startedCommandCompletes : Obligations.StartedCommandCompletes := by
  intro s hwf hinv hbusy hreads
  induction hin : s.inputs generalizing s with
  | nil =>
    have ⟨hmatches, _⟩ := hinv
    obtain ⟨v, hpend⟩ := Option.isSome_iff_exists.1 (hmatches.trans hbusy)
    obtain ⟨r, hr⟩ := State.engineStep_commits (s := { s with inputs := [] }) hbusy hpend
    have hstep := (step_engineTurn ⟨hwf, hinv.mux_eq_none, .inr ⟨hin, rfl⟩⟩).trans hr
    exact ⟨_, core_run_succ 0 hstep, r.status_done, r.status_busy, rfl, rfl⟩
  | cons ev rest ih =>
    obtain ⟨a, n, rfl, hlegal⟩ := hreads ev (by simp [hin])
    obtain ⟨t, hstep, ⟨hcfg, hstatus, -⟩, -, -, htin, -⟩ :=
      readsLeaveStateAlone s a n rest ⟨hwf, hinv.mux_eq_none, hin⟩ hlegal
    have htreads : ∀ ev ∈ t.inputs, ∃ a n, ev = .read a n ∧ accessLegal a n = true := fun ev hev =>
      hreads ev (hin ▸ List.mem_cons_of_mem _ (htin ▸ hev))
    rw [List.length_cons, core_run_succ _ hstep]
    exact ih t (hcfg ▸ hwf) (everyStepKeepsInvariant s t hinv hstep) (hstatus ▸ hbusy) htreads htin

/-! ## The input of a command (spec/20_memory.md R46) -/

/-- Only the first L bytes of IBUF are the input. -/
theorem State.input_congr {s t : State} (hlen : t.frameLen = s.frameLen)
    (h : ∀ x, x < s.frameLen → t.ibufByte x = s.ibufByte x) : t.input = s.input := by
  rw [State.input, State.input, hlen]
  exact List.map_congr_left fun x hx => h x (List.mem_range.1 hx)

theorem State.withInput_congr {s t : State} (f : List Byte → CmdResult) (hcfg : t.cfg = s.cfg)
    (hlen : t.frameLen = s.frameLen) (hin : t.input = s.input) : t.withInput f = s.withInput f := by
  rw [State.withInput, State.withInput, hcfg, hlen, hin]

/-- A command's result depends on the configuration and the input alone. -/
theorem commandResult_congr {s t : State} (hcfg : t.cfg = s.cfg) (hlen : t.frameLen = s.frameLen)
    (hin : t.input = s.input) (i : Instr) : commandResult t i = commandResult s i := by
  cases i with
  | compress | decompress | matchCmd =>
    simp only [commandResult, State.withInput_congr _ hcfg hlen hin, hcfg]
  | idsynth => simp only [commandResult, hcfg]
  | _ => rfl

/-- Settles O57: equal inputs give equal results, and a commit carries IBUF along. -/
theorem bytesBeyondLengthIrrelevant : Obligations.BytesBeyondLengthIrrelevant := by
  intro s m draw hbytes i hi
  let s₁ : State := { s with ibuf := m, ibufDraw := draw }
  obtain ⟨r, hr⟩ := exists_commandResult s hi
  have hin : s₁.input = s.input := State.input_congr rfl hbytes
  have hr₁ : commandResult s₁ i = some r := (commandResult_congr (s := s) (t := s₁) rfl rfl hin i).trans hr
  exact ⟨s.commit r, exec_of_commandResult hr, exec_of_commandResult hr₁⟩

/-! ## The commands as their field operations (spec/40_dispatch.md R67; log entry 10) -/

theorem exec_laneInstr (d : Descriptor) (s : State) : exec d.laneInstr s = s.laneStep (accLane d) := by
  obtain ⟨tv, bl, msb, mo, act⟩ := d
  cases mo <;> rfl

theorem exec_encodeInstr (d : Descriptor) (s : State) : exec d.encodeInstr s = s.emitStep (emitField s.cfg d) := by
  obtain ⟨tv, bl, msb, mo, act⟩ := d
  cases act <;> rfl

theorem exec_decodeInstr (d : Descriptor) (s : State) :
    exec d.decodeInstr s = s.fieldStep (decodeField s.cfg d) := by
  obtain ⟨tv, bl, msb, mo, act⟩ := d
  cases act <;> rfl

/-- An operation that moves the walk on leaves the rest to be performed. -/
theorem runUnits_cons_of_moves {i : Instr} {is : List Instr} {s t : State} (h : exec i s = .next t)
    (hj : t.walk.j = s.walk.j + 1) : runUnits (i :: is) s = runUnits is t := by
  simp [runUnits, h, hj]

/-- An operation that raises ends the command: its walk is fresh again, so no further operation is performed (R113). -/
theorem runUnits_cons_of_raises {i : Instr} {is : List Instr} {s : State} {e : ErrKind} {p : Nat}
    (h : exec i s = .next (s.raise e p)) : runUnits (i :: is) s = .next (s.raise e p) := by
  simp [runUnits, h, Walk.fresh]

/-! Of a run over the descriptors from the walk's position on, the block's other state is `s` throughout: every
operation sees the same configuration and input. -/

/-- The lanes join their verdicts to the AND-reduction. -/
theorem runUnits_laneInstr (s : State) (ds : List Descriptor) (w : Walk) (h : w.j + ds.length ≤ 18) :
    ∃ t, runUnits (ds.map Descriptor.laneInstr) { s with walk := w } = .next t ∧
      t.walk.acc = (w.acc && (ds.zipIdx w.j).all fun dp => accLane dp.1 (w.hc.get dp.2)) := by
  induction ds generalizing w with
  | nil => exact ⟨_, rfl, (Bool.and_true w.acc).symm⟩
  | cons d ds ih =>
    rw [List.length_cons] at h
    have hexec := (exec_laneInstr d { s with walk := w }).trans (State.laneStep_of_lt _ (show w.j < 18 by omega))
    obtain ⟨t, hrun, hacc⟩ := ih { w with acc := w.acc && accLane d (w.hc.get w.j), j := w.j + 1, mux := none }
      (show w.j + 1 + ds.length ≤ 18 by omega)
    refine ⟨t, (runUnits_cons_of_moves hexec rfl).trans hrun, ?_⟩
    rw [hacc, List.zipIdx_cons, List.all_cons, Bool.and_assoc]

/-- The encoder's operations append their bytes to the output. -/
theorem runUnits_encodeInstr (s : State) (ds : List Descriptor) (w : Walk) (h : w.j + ds.length ≤ 18) :
    ∃ t, runUnits (ds.map Descriptor.encodeInstr) { s with walk := w } = .next t ∧
      t.walk.out = w.out ++ (ds.zipIdx w.j).flatMap fun dp => emitField s.cfg dp.1 dp.2 (w.hc.get dp.2) := by
  induction ds generalizing w with
  | nil => exact ⟨_, rfl, (List.append_nil w.out).symm⟩
  | cons d ds ih =>
    rw [List.length_cons] at h
    have hexec := (exec_encodeInstr d { s with walk := w }).trans (State.emitStep_of_lt _ (show w.j < 18 by omega))
    obtain ⟨t, hrun, hout⟩ := ih
      { w with out := w.out ++ emitField s.cfg d w.j (w.hc.get w.j), j := w.j + 1, mux := none }
      (show w.j + 1 + ds.length ≤ 18 by omega)
    refine ⟨t, (runUnits_cons_of_moves hexec rfl).trans hrun, ?_⟩
    rw [hout, List.zipIdx_cons, List.flatMap_cons, List.append_assoc]

/-- What the decoder's operations leave, by how the field walk over the same descriptors ends: its Header Context and
offset, or the committed raise. -/
def DecoderRunAgrees (s : State) (j : Nat) (run : Host.Outcome State Fault Refusal) : WalkResult → Prop
  | .done hc off => ∃ t, run = .next t ∧ t.walk.hc = hc ∧ t.walk.off = off ∧ t.walk.j = j
  | .raised e p => run = .next (s.raise e p)

/-- The decoder's operations are the field walk. -/
theorem runUnits_decodeInstr (s : State) (ds : List Descriptor) (w : Walk) (h : w.j + ds.length ≤ 18) :
    DecoderRunAgrees s (w.j + ds.length) (runUnits (ds.map Descriptor.decodeInstr) { s with walk := w })
      (fieldWalk s.cfg s.input (ds.zipIdx w.j) w.hc w.off) := by
  induction ds generalizing w with
  | nil => exact ⟨_, rfl, rfl, rfl, rfl⟩
  | cons d ds ih =>
    rw [List.length_cons] at h
    have hexec := exec_decodeInstr d { s with walk := w }
    rw [List.map_cons, List.zipIdx_cons, fieldWalk]
    cases hf : decodeField s.cfg d w.j s.input w.off with
    | value v off =>
      rw [runUnits_cons_of_moves (hexec.trans (State.fieldStep_value (show w.j < 18 by omega) hf)) rfl,
        List.length_cons, Nat.add_comm ds.length 1, ← Nat.add_assoc]
      exact ih { w with hc := w.hc.set w.j v, off := off, j := w.j + 1, mux := none }
        (show w.j + 1 + ds.length ≤ 18 by omega)
    | raised e =>
      exact runUnits_cons_of_raises (hexec.trans (State.fieldStep_raised (show w.j < 18 by omega) hf))

/-- A frame with a byte begins with it (R46). -/
theorem State.input_eq_cons {s : State} (h : 1 ≤ s.frameLen) : ∃ rest, s.input = s.ibufByte 0 :: rest := by
  refine ⟨s.input.tail, List.eq_cons_of_mem_head? ?_⟩
  rw [List.head?_eq_getElem?, State.getElem?_input, if_pos (Nat.lt_of_succ_le h), Option.mem_def]

theorem decompressInput_of_rule {cfg : Config} {tag : Byte} {rest : List Byte} {r : Rule} (htag : tag ≠ 0)
    (hr : cfg.rules[tag.toNat - 1]? = some r) :
    decompressInput cfg (tag :: rest) = decompressUnder cfg r tag (tag :: rest) := by
  simp only [decompressInput, if_neg htag, hr]

theorem decompressUnder_of_raised {cfg : Config} {r : Rule} {inp : List Byte} {e : ErrKind} {p : Nat} (tag : Byte)
    (hw : fieldWalk cfg inp (ruleFields r) HeaderContext.zero 1 = .raised e p) :
    decompressUnder cfg r tag inp = .decErr e tag (BitVec.ofNat 8 p) := by
  simp [decompressUnder, hw]

/-- Under the rule of its tag DECOMPRESS ends as the walk that raises does (R113). -/
theorem exec_decompress_of_raised {s : State} {r : Rule} {e : ErrKind} {p : Nat} (hlen : 1 ≤ s.frameLen)
    (hfit : s.frameLen ≤ s.cfg.bufBytes) (htag : s.ibufByte 0 ≠ 0)
    (hr : s.cfg.rules[(s.ibufByte 0).toNat - 1]? = some r)
    (hw : fieldWalk s.cfg s.input (ruleFields r) HeaderContext.zero 1 = .raised e p) :
    exec .decompress s = .next (s.raise e p) := by
  obtain ⟨rest, hin⟩ := State.input_eq_cons hlen
  have htag' : s.frameTag = s.ibufByte 0 := by rw [State.frameTag, hin, List.headD_cons]
  have hresult : commandResult s .decompress = some (.decErr e s.frameTag (BitVec.ofNat 8 p)) := by
    rw [commandResult, State.withInput_of_le _ hfit, htag', hin, decompressInput_of_rule htag hr, ← hin,
      decompressUnder_of_raised _ hw]
  exact exec_of_commandResult hresult

/-- Settles O34: a rule's 18 descriptors are performed at positions 0 to 17, one unit's operations after the other. -/
theorem commandsAreTheirFieldOperations : Obligations.CommandsAreTheirFieldOperations := by
  intro s r
  have h18 : r.fields.toList.length = 18 := by simp
  have hfits : 0 + r.fields.toList.length ≤ 18 := by omega
  have hwalk : DecoderRunAgrees s (0 + r.fields.toList.length) _
      (fieldWalk s.cfg s.input (ruleFields r) HeaderContext.zero 1) :=
    runUnits_decodeInstr s r.fields.toList { Walk.fresh with off := 1 } hfits
  refine ⟨fun hc => ?_, fun hc => ?_, fun hc off hdone => ?_, fun e p hraised hlen hfit htag hr => ?_⟩
  · exact runUnits_laneInstr s _ { Walk.fresh with hc := hc } hfits
  · exact runUnits_encodeInstr s _ { Walk.fresh with hc := hc, out := [r.id] } hfits
  · rw [hdone, h18] at hwalk
    exact hwalk
  · rw [hraised] at hwalk
    exact hwalk.trans (exec_decompress_of_raised hlen hfit htag hr hraised).symm

end Sys2Proof.Machine

namespace Sys2Proof.Machine

/-! ## The comparator lanes (spec/41_match.md R72 to R75) -/

theorem State.onlyWalkChanged (s : State) (w : Walk) : OnlyWalkChanged s { s with walk := w } :=
  ⟨⟨rfl, rfl, rfl, rfl, rfl, rfl, rfl, rfl⟩, fun _ => rfl, fun _ => rfl, rfl, rfl⟩

/-- A lane's operation joins its verdict to the AND-reduction and moves the walk on; nothing else changes. -/
theorem State.laneStep_frame {s : State} (accept : Word → Bool) (h : s.walk.j < 18) :
    ∃ t, s.laneStep accept = .next t ∧ OnlyWalkChanged s t ∧
      t.walk = { s.walk with
        acc := s.walk.acc && accept (s.walk.hc.get s.walk.j), j := s.walk.j + 1, mux := none } :=
  ⟨_, State.laneStep_of_lt accept h, s.onlyWalkChanged _, rfl⟩

theorem toNat_tgt (tv : Word) (bl : BitVec 6) : (tgt tv bl).toNat = tv.toNat % 2 ^ bl.toNat := by
  rw [tgt, trunc, BitVec.toNat_ofNat]
  exact Nat.mod_eq_of_lt ((Nat.mod_le _ _).trans_lt tv.isLt)

theorem accEq_eq (tv : Word) (bl : BitVec 6) (h : Word) :
    accEq tv bl h = decide (h.toNat = tv.toNat % 2 ^ bl.toNat) := by
  rw [accEq, ← toNat_tgt, decide_eq_decide, BitVec.toNat_inj]

/-- Masked words agree exactly where they agree bit by bit inside the window of the mask. -/
theorem accMsb_iff {bl msb : BitVec 6} (hbl : bl.toNat ≤ 32) (hmsb : msb.toNat ≤ bl.toNat) (tv h : Word) :
    accMsb tv bl msb h = true ↔
      ∀ i, bl.toNat - msb.toNat ≤ i → i < bl.toNat → h.getLsbD i = tv.getLsbD i := by
  have hbit (v : Word) (i : Nat) : (v &&& mmask bl msb).getLsbD i =
      (v.getLsbD i && (decide (bl.toNat - msb.toNat ≤ i) && decide (i < bl.toNat))) := by
    rw [BitVec.getLsbD_and, getLsbD_mmask hbl hmsb]
  rw [accMsb, decide_eq_true_iff]
  constructor
  · intro heq i hlo hhi
    have hi := congrArg (·.getLsbD i) heq
    simpa [hbit, hlo, hhi] using hi
  · intro hbits
    refine BitVec.eq_of_getLsbD_eq fun i _ => ?_
    rw [hbit, hbit]
    by_cases hwin : bl.toNat - msb.toNat ≤ i ∧ i < bl.toNat
    · rw [hbits i hwin.1 hwin.2]
    · rw [← Bool.decide_and, decide_eq_false hwin, Bool.and_false, Bool.and_false]

/-- Settles O12: the lane's verdict compares bit by bit inside the window of mmask (R53). -/
theorem msbLane : Obligations.MsbLane := by
  intro s tv bl msb act hj hbl hmsb
  obtain ⟨t, hstep, hframe, hwalk⟩ := State.laneStep_frame (accMsb tv bl msb) hj
  refine ⟨t, hstep, hframe, by rw [hwalk], ?_⟩
  rw [hwalk, Bool.and_eq_true, accMsb_iff hbl hmsb]

/-- Settles O11: the EQ lane compares with the truncated target; the IGN lane's verdict leaves the AND-reduction. -/
theorem equalAndIgnoreLanes : Obligations.EqualAndIgnoreLanes := by
  intro s tv bl msb act hj
  constructor
  · obtain ⟨t, hstep, hframe, hwalk⟩ := State.laneStep_frame (accEq tv bl) hj
    exact ⟨t, hstep, hframe, by rw [hwalk, accEq_eq]⟩
  · obtain ⟨t, hstep, hframe, hwalk⟩ := State.laneStep_frame accIgn hj
    exact ⟨t, hstep, hframe, by rw [hwalk, accIgn, Bool.and_true]⟩

/-! ## The comparator tree and the priority encoder (R75, R76, R78) -/

/-- A lane accepts as the comparator of its matchOp does. -/
theorem accLane_iff (d : Descriptor) (h : Word) : accLane d h = true ↔
    (d.mo = .eq → accEq d.tv d.bl h = true) ∧ (d.mo = .ign → accIgn h = true) ∧
      (d.mo = .msb → accMsb d.tv d.bl d.msb h = true) := by
  obtain ⟨tv, bl, msb, mo, act⟩ := d
  cases mo <;> simp [accLane]

theorem ruleMatches_iff (r : Rule) (hc : HeaderContext) : ruleMatches r hc = true ↔
    ∀ (p : Nat) (d : Descriptor), r.fields[p]? = some d → accLane d (hc.get p) = true := by
  simp only [ruleMatches, List.all_eq_true, Prod.forall, mem_ruleFields]
  exact forall_comm

/-- Settles O13: the tree joins the lanes of all 18 positions. -/
theorem ruleMatchesWhenEveryLaneAccepts : Obligations.RuleMatchesWhenEveryLaneAccepts := by
  intro r hc
  simp only [ruleMatches_iff, accLane_iff]

theorem selectRule_of_scanAll {cfg : Config} (h : cfg.scanFirstOnly = false) (hc : HeaderContext) :
    selectRule cfg hc = firstMatch hc cfg.rules 0 := by
  simp [selectRule, h]

theorem selectRule_of_scanFirstOnly {cfg : Config} (h : cfg.scanFirstOnly = true) (hc : HeaderContext) :
    selectRule cfg hc = firstMatch hc cfg.rules[0]?.toList 0 := by
  rw [selectRule, if_pos h, List.take_one, List.head?_eq_getElem?]

/-- Counted from 0 the encoder finds the least index of a matching rule. -/
theorem firstMatch_zero_eq_some {hc : HeaderContext} {rs : List Rule} {k : Nat} : firstMatch hc rs 0 = some k ↔
    (∃ r, rs[k]? = some r ∧ ruleMatches r hc = true) ∧
      ∀ j < k, ∀ r, rs[j]? = some r → ruleMatches r hc = false := by
  simp [firstMatch_eq_some]

/-- Over at most one rule the encoder finds index 0 or none. -/
theorem firstMatch_toList_eq_some {hc : HeaderContext} {o : Option Rule} {k : Nat} :
    firstMatch hc o.toList 0 = some k ↔ k = 0 ∧ ∃ r, o = some r ∧ ruleMatches r hc = true := by
  cases o with
  | none => simp [firstMatch]
  | some r =>
    by_cases hr : ruleMatches r hc = true
    · simpa [firstMatch, hr] using eq_comm
    · simp [firstMatch, hr]

/-- Settles O14: mode 0 encodes the whole rule set, mode 1 the list of rule 0 alone. -/
theorem selectIsFirstMatch : Obligations.SelectIsFirstMatch := by
  intro cfg hc
  refine ⟨fun hmode => ?_, fun hmode => ?_, fun k hk => ?_⟩
  · rw [selectRule_of_scanAll hmode]
    exact ⟨fun k => firstMatch_zero_eq_some, firstMatch_eq_none⟩
  · rw [selectRule_of_scanFirstOnly hmode]
    exact ⟨fun k => firstMatch_toList_eq_some, by simp [firstMatch_eq_none]⟩
  · obtain ⟨r, hr⟩ := selectRule_mem hk
    exact (List.getElem?_eq_some_iff.1 hr).1

/-! ## MATCH (R77) -/

theorem matchInput_of_selected {cfg : Config} {inp : List Byte} {k : Nat} (hlen : 48 ≤ inp.length)
    (hsel : selectRule cfg (parseHeader cfg (inp.take 48)) = some k) : matchInput cfg inp = .matchRule k := by
  simp [matchInput, Nat.not_lt.2 hlen, hsel]

theorem matchInput_of_unmatched {cfg : Config} {inp : List Byte}
    (h : inp.length < 48 ∨ selectRule cfg (parseHeader cfg (inp.take 48)) = none) :
    matchInput cfg inp = .matchNone := by
  obtain hnone | ⟨k, hlen, hsel, -⟩ := matchInput_cases cfg inp
  · exact hnone
  · obtain hshort | hnosel := h
    · omega
    · rw [hsel] at hnosel
      cases hnosel

/-- Inside the buffer MATCH commits the result of its function. -/
theorem exec_matchCmd_of_le {s : State} {r : CmdResult} (hfit : s.frameLen ≤ s.cfg.bufBytes)
    (hr : matchInput s.cfg s.input = r) : exec .matchCmd s = .next (s.commit r) :=
  exec_of_commandResult (congrArg some ((State.withInput_of_le _ hfit).trans hr))

/-- A rule's tag holds k + 1 in full, since WF1 allows at most 255 rules. -/
theorem toNat_ruleTag {cfg : Config} (hwf : cfg.wf = true) {k : Nat} (hk : k < cfg.nRules) :
    (BitVec.ofNat 8 (k + 1)).toNat = k + 1 := by
  obtain ⟨-, -, -, hrules⟩ := Config.wf_ranges hwf
  exact Nat.mod_eq_of_lt (Nat.lt_succ_of_le (le_trans hk hrules))

/-- Settles O15: MATCH commits the selected rule or NoRuleMatched, whose rows of R68 keep OBUF and the identity
words. -/
theorem matchReportsSelectedRule : Obligations.MatchReportsSelectedRule := by
  intro s hwf hfit
  constructor
  · intro k hlen hsel
    obtain ⟨-, -, hbound⟩ := selectIsFirstMatch s.cfg (parseHeader s.cfg (s.input.take 48))
    have hdone := s.completedWith_commit (r := .matchRule k) (Nat.two_pow_pos 16) (Nat.two_pow_pos 16)
    have htag : (CmdResult.matchRule k).status.tag.toNat = k + 1 := toNat_ruleTag hwf (hbound k hsel)
    rw [htag] at hdone
    exact ⟨_, exec_matchCmd_of_le hfit (matchInput_of_selected (hlen.trans_eq s.length_input.symm) hsel), hdone,
      State.obufByte_commit_keep rfl, rfl, rfl⟩
  · intro h
    rw [← s.length_input] at h
    exact ⟨_, exec_matchCmd_of_le hfit (matchInput_of_unmatched h),
      s.completedWith_commit (r := .matchNone) (by decide) (by decide), State.obufByte_commit_keep rfl, rfl, rfl⟩

end Sys2Proof.Machine

namespace Sys2Proof.Machine

/-! ## The residual encoder (spec/42_compress.md R81 to R86) -/

/-- An encoder's operation appends its bytes and moves the walk on; nothing else changes. -/
theorem State.emitStep_frame {s : State} (emit : Nat → Word → List Byte) (h : s.walk.j < 18) :
    ∃ t, s.emitStep emit = .next t ∧ OnlyWalkChanged s t ∧
      t.walk = { s.walk with
        out := s.walk.out ++ emit s.walk.j (s.walk.hc.get s.walk.j), j := s.walk.j + 1, mux := none } :=
  ⟨_, State.emitStep_of_lt emit h, s.onlyWalkChanged _, rfl⟩

/-- Only ValueSent emits. -/
theorem emitField_of_ne_vs (cfg : Config) {d : Descriptor} (hd : d.act ≠ .vs) (p : Nat) (h : Word) :
    emitField cfg d p h = [] :=
  List.eq_nil_of_length_eq_zero ((length_emitField cfg d p h).trans (if_neg hd))

/-- Settles O18: each of the five is the encoder's operation of a descriptor whose action is not ValueSent. -/
theorem silentActionsEmitNothing : Obligations.SilentActionsEmitNothing := by
  intro s tv bl msb mo hj i hi
  obtain ⟨d, rfl, hact⟩ : ∃ d : Descriptor, i = d.encodeInstr ∧ d.act ≠ .vs := by
    simp only [List.mem_cons, List.not_mem_nil, or_false] at hi
    obtain rfl | rfl | rfl | rfl | rfl := hi
    · exact ⟨⟨tv, bl, msb, mo, .ns⟩, rfl, Action.noConfusion⟩
    · exact ⟨⟨tv, bl, msb, mo, .lsb⟩, rfl, Action.noConfusion⟩
    · exact ⟨⟨tv, bl, msb, mo, .cmp⟩, rfl, Action.noConfusion⟩
    · exact ⟨⟨tv, bl, msb, mo, .cks⟩, rfl, Action.noConfusion⟩
    · exact ⟨⟨tv, bl, msb, mo, .dev⟩, rfl, Action.noConfusion⟩
  obtain ⟨t, ht, hframe, hwalk⟩ := State.emitStep_frame (emitField s.cfg d) hj
  rw [emitField_of_ne_vs s.cfg hact, List.append_nil] at hwalk
  exact ⟨t, (exec_encodeInstr d s).trans ht, hframe, hwalk⟩

theorem toNat_getD_toLE (v : Nat) {k i : Nat} (hi : i < k) : ((toLE v k).getD i 0).toNat = v / 256 ^ i % 256 := by
  rw [List.getD_eq_getElem?_getD, getElem?_toLE, if_pos hi, Option.getD_some, BitVec.toNat_ofNat]

theorem toNat_getD_toBE (v : Nat) {k i : Nat} (hi : i < k) :
    ((toBE v k).getD i 0).toNat = v / 256 ^ (k - 1 - i) % 256 := by
  rw [← toNat_getD_toLE v (show k - 1 - i < k by omega), toBE, List.getD_eq_getElem?_getD, List.getD_eq_getElem?_getD,
    List.getElem?_reverse (by rwa [length_toLE]), length_toLE]

/-- ValueSent's bytes (R82), in the byte order of the position. -/
theorem toNat_getD_emitVs (cfg : Config) (tv h : Word) (bl : BitVec 6) (p : Nat) {i : Nat} (hi : i < nvs bl) :
    ((emitVs cfg tv bl p h).getD i 0).toNat =
      if (p = 2 ∨ p = 3) ∧ cfg.cmpFlplLe = false then (sentValue cfg tv h).toNat / 256 ^ (nvs bl - 1 - i) % 256
      else (sentValue cfg tv h).toNat / 256 ^ i % 256 := by
  have horder : (bigEndianPosition p && !cfg.cmpFlplLe) = true ↔ (p = 2 ∨ p = 3) ∧ cfg.cmpFlplLe = false := by
    simp [bigEndianPosition]
  simp only [emitVs, horder]
  split_ifs
  · exact toNat_getD_toBE _ hi
  · exact toNat_getD_toLE _ hi

/-- Settles O19: the appended bytes are those of R82's emit function. -/
theorem valueSentEmission : Obligations.ValueSentEmission := by
  intro s tv bl msb mo hj
  obtain ⟨t, ht, hframe, hwalk⟩ := State.emitStep_frame (emitVs s.cfg tv bl) hj
  exact ⟨t, _, ht, hframe, hwalk, length_emitField s.cfg ⟨tv, bl, msb, mo, .vs⟩ s.walk.j _,
    fun i hi => toNat_getD_emitVs s.cfg tv _ bl s.walk.j hi⟩

/-! ## COMPRESS (R87 to R90) -/

theorem compressInput_of_selected {cfg : Config} {inp : List Byte} {k : Nat} {r : Rule} (hlen : 48 ≤ inp.length)
    (hsel : selectRule cfg (parseHeader cfg (inp.take 48)) = some k) (hr : cfg.rules[k]? = some r) :
    compressInput cfg inp = .cmpMatched
      (r.id :: residualBytes cfg r (parseHeader cfg (inp.take 48)) ++ inp.drop 48) k
      (1 + (residualBytes cfg r (parseHeader cfg (inp.take 48))).length) := by
  simp [compressInput, Nat.not_lt.2 hlen, hsel, hr]

theorem compressInput_of_unmatched {cfg : Config} {inp : List Byte}
    (h : inp.length < 48 ∨ selectRule cfg (parseHeader cfg (inp.take 48)) = none) :
    compressInput cfg inp = .cmpPass (0x00 :: inp) := by
  obtain hpass | ⟨k, r, out, n, hr, hmatched⟩ := compressInput_cases cfg inp
  · exact hpass
  · obtain ⟨hlen, hsel, -⟩ := compressInput_matched hmatched hr
    obtain hshort | hnosel := h
    · omega
    · rw [hsel] at hnosel
      cases hnosel

/-- Inside the buffer COMPRESS commits the result of its function, whose lengths fit their 16 bits. -/
theorem exec_compress_of_le {s : State} {r : CmdResult} (hwf : s.cfg.wf = true) (hfit : s.frameLen ≤ s.cfg.bufBytes)
    (hr : compressInput s.cfg s.input = r) : exec .compress s = .next (s.commit r) ∧
      CompletedWith s (s.commit r) r.status.matched r.status.err r.status.tag.toNat r.status.errPos.toNat r.outLen
        r.hdrLen := by
  subst hr
  obtain ⟨-, -, hbuf, -⟩ := Config.wf_ranges hwf
  obtain ⟨hout, hhdr⟩ := (compressInput_sound hwf (s.length_input.trans_le hfit)).lengths_le
  have hobuf : s.cfg.obufBytes = s.cfg.bufBytes + 47 := rfl
  exact ⟨exec_of_commandResult (congrArg some (State.withInput_of_le _ hfit)),
    s.completedWith_commit (by omega) (by omega)⟩

/-- Settles O20: the committed output is the tag, the residual and the frame's bytes from 48 on. -/
theorem compressUnderMatchingRule : Obligations.CompressUnderMatchingRule := by
  intro s k r hwf hlen hfit hsel hr res
  obtain ⟨hexec, hdone⟩ := exec_compress_of_le hwf hfit
    (compressInput_of_selected (hlen.trans_eq s.length_input.symm) hsel hr)
  have htag : (BitVec.ofNat 8 (k + 1)).toNat = k + 1 := toNat_ruleTag hwf (List.getElem?_eq_some_iff.1 hr).1
  have hlength : (r.id :: res ++ s.input.drop 48).length = 1 + res.length + (s.frameLen - 48) := by
    rw [List.length_append, List.length_cons, List.length_drop, State.length_input, Nat.add_comm 1]
  have hresidual : ∀ i b, res[i]? = some b → (r.id :: res ++ s.input.drop 48)[1 + i]? = some b := fun i b hi => by
    rw [Nat.add_comm, List.cons_append, List.getElem?_cons_succ,
      List.getElem?_append_left (List.getElem?_eq_some_iff.1 hi).1, hi]
  have hpayload : ∀ i, i < s.frameLen - 48 →
      (r.id :: res ++ s.input.drop 48)[1 + res.length + i]? = some (s.ibufByte (48 + i)) := fun i hi => by
    rw [Nat.add_comm 1, ← List.length_cons (a := r.id), List.getElem?_append_right (Nat.le_add_right _ i),
      Nat.add_sub_cancel_left, List.getElem?_drop, State.getElem?_input, if_pos (by omega)]
  refine ⟨_, hexec, ?_, ⟨rfl, rfl⟩, State.obufByte_commit_write rfl rfl,
    fun i b hi => State.obufByte_commit_write rfl (hresidual i b hi),
    fun i hi => State.obufByte_commit_write rfl (hpayload i hi)⟩
  rw [← htag, ← hlength]
  exact hdone

/-- Settles O21: the committed output is the 0 tag before the frame. -/
theorem compressPassesThrough : Obligations.CompressPassesThrough := by
  intro s hwf hfit hunmatched
  rw [← s.length_input] at hunmatched
  obtain ⟨hexec, hdone⟩ := exec_compress_of_le hwf hfit (compressInput_of_unmatched hunmatched)
  have hlength : (0x00 :: s.input : List Byte).length = s.frameLen + 1 := by
    rw [List.length_cons, State.length_input]
  have hframe : ∀ i, i < s.frameLen → (0x00 :: s.input : List Byte)[i + 1]? = some (s.ibufByte i) := fun i hi => by
    rw [List.getElem?_cons_succ, State.getElem?_input, if_pos hi]
  refine ⟨_, hexec, ?_, rfl, ⟨rfl, rfl⟩, State.obufByte_commit_write rfl rfl,
    fun i hi => State.obufByte_commit_write rfl (hframe i hi)⟩
  rw [← hlength]
  exact hdone

/-- Settles O22: tag and residual take the place of the 48 header bytes. -/
theorem compressedSizeLaw : Obligations.CompressedSizeLaw := by
  intro cfg inp out k n r hwf hmatched hr rcmp
  obtain ⟨hlen, -, hout, hn⟩ := compressInput_matched hmatched hr
  have hres : (residualBytes cfg r (parseHeader cfg (inp.take 48))).length = rcmp := length_residualBytes cfg r _
  have hbound := length_residualBytes_le (cfg := cfg) (Config.wf_rule hwf hr) (parseHeader cfg (inp.take 48))
  have houtLen : out.length = 1 + rcmp + (inp.length - 48) := by
    rw [hout, List.length_append, List.length_cons, hres, List.length_drop, Nat.add_comm 1]
  rw [hres] at hn hbound
  exact ⟨hn, hbound, houtLen, hlen, by omega⟩

/-! ## COMPRESS and the Device Identity (R80) -/

/-- s with another Device Identity. -/
def State.withIdentity (devid : Vector Byte 8) (len : Nat) (s : State) : State :=
  { s with cfg := { s.cfg with devid := devid, devidLen := len } }

theorem commandResult_compress_withIdentity (s : State) (devid : Vector Byte 8) (len : Nat) :
    commandResult (s.withIdentity devid len) .compress = commandResult s .compress := rfl

theorem compressInput_err_ne_invalidDeviceIdentity (cfg : Config) (inp : List Byte) :
    (compressInput cfg inp).status.err ≠ .invalidDeviceIdentity := by
  obtain h | ⟨k, r, out, n, -, h⟩ := compressInput_cases cfg inp
  · rw [h]; exact ErrKind.noConfusion
  · rw [h]; exact ErrKind.noConfusion

/-- Settles O23: COMPRESS commits the same result under every identity, and a commit carries the configuration along. -/
theorem compressIgnoresIdentity : Obligations.CompressIgnoresIdentity := by
  intro s devid len
  have herr : (s.withInput (compressInput s.cfg)).status.err ≠ .invalidDeviceIdentity := by
    rcases Nat.lt_or_ge s.cfg.bufBytes s.frameLen with hlong | hfit
    · rw [State.withInput_of_lt _ hlong]; exact ErrKind.noConfusion
    · rw [State.withInput_of_le _ hfit]; exact compressInput_err_ne_invalidDeviceIdentity _ _
  exact ⟨_, exec_of_commandResult rfl, herr,
    exec_of_commandResult (commandResult_compress_withIdentity s devid len)⟩

end Sys2Proof.Machine

namespace Sys2Proof.Machine

/-! ## The parsed header (spec/42_compress.md R79) -/

theorem toNat_addressWord (h : List Byte) (a : Nat) : (addressWord h a).toNat =
    (headerByte h a).toNat + 256 * (headerByte h (a + 1)).toNat + 65536 * (headerByte h (a + 2)).toNat +
      16777216 * (headerByte h (a + 3)).toNat := by
  rw [addressWord, leWord, BitVec.toNat_ofNat, Nat.mod_eq_of_lt (leNat_lt_word (by simp))]
  simp only [leNat]
  omega

theorem toNat_udpField_bytes (cfg : Config) (h : List Byte) (a : Nat) : (udpField cfg h a).toNat =
    if cfg.udpLe then (headerByte h a).toNat + 256 * (headerByte h (a + 1)).toNat
    else 256 * (headerByte h a).toNat + (headerByte h (a + 1)).toNat := by
  have hle : ∀ b c : Byte, (leWord [b, c]).toNat = b.toNat + 256 * c.toNat := fun b c => by
    rw [leWord, BitVec.toNat_ofNat, Nat.mod_eq_of_lt (leNat_lt_word (by simp))]
    rfl
  unfold udpField
  split_ifs
  · exact hle _ _
  · exact (hle _ _).trans (Nat.add_comm _ _)

/-- The eight address words stand at positions 6 to 13, from byte 8 on. -/
theorem parseHeader_get_address (cfg : Config) (h : List Byte) {m : Nat} (hm : m < 8) :
    (parseHeader cfg h).get (6 + m) = addressWord h (8 + 4 * m) := by
  interval_cases m <;> rfl

/-- The four UDP fields stand at positions 14 to 17, from byte 40 on. -/
theorem parseHeader_get_udp (cfg : Config) (h : List Byte) {q : Nat} (hq : q < 4) :
    (parseHeader cfg h).get (14 + q) = udpField cfg h (40 + 2 * q) := by
  interval_cases q <;> rfl

/-- The values at positions 0 to 5, from bytes 0 to 7 (RFC 8200's layout: PRESUMED, log entry 17). -/
theorem toNat_parseHeader_fixed (cfg : Config) (h : List Byte) :
    ((parseHeader cfg h).get 0).toNat = (headerByte h 0).toNat / 16 ∧
    ((parseHeader cfg h).get 1).toNat = (headerByte h 0).toNat % 16 * 16 + (headerByte h 1).toNat / 16 ∧
    ((parseHeader cfg h).get 2).toNat =
      (headerByte h 1).toNat % 16 * 65536 + (headerByte h 2).toNat * 256 + (headerByte h 3).toNat ∧
    ((parseHeader cfg h).get 3).toNat = (headerByte h 4).toNat * 256 + (headerByte h 5).toNat ∧
    ((parseHeader cfg h).get 4).toNat = (headerByte h 6).toNat ∧
    ((parseHeader cfg h).get 5).toNat = (headerByte h 7).toNat := by
  simp only [parseHeader, HeaderContext.get, Vector.getElem?_mk, List.getElem?_toArray, List.getElem?_cons_zero,
    List.getElem?_cons_succ, Option.getD_some, BitVec.toNat_setWidth, toNat_append, toNat_extract]
  omega

theorem toNat_udpField_lt (cfg : Config) (h : List Byte) (a : Nat) : (udpField cfg h a).toNat < 2 ^ 16 := by
  rw [toNat_udpField_bytes]
  split_ifs <;> omega

/-- Every parsed field keeps its layout width (R19). -/
theorem toNat_parseHeader_lt (cfg : Config) (h : List Byte) {p : Nat} (hp : p < 18) :
    ((parseHeader cfg h).get p).toNat < 2 ^ layoutWidth p := by
  rcases Nat.lt_or_ge p 6 with hfixed | hge6
  · have hvalues := toNat_parseHeader_fixed cfg h
    interval_cases p <;> norm_num [layoutWidth] <;> omega
  rcases Nat.lt_or_ge p 14 with haddress | hge14
  · obtain ⟨m, rfl⟩ := Nat.exists_eq_add_of_le hge6
    have hwidth : layoutWidth (6 + m) = 32 := by
      have hm : m < 8 := by omega
      interval_cases m <;> rfl
    rw [hwidth]
    exact BitVec.isLt _
  · obtain ⟨q, rfl⟩ := Nat.exists_eq_add_of_le hge14
    have hq : q < 4 := by omega
    have hwidth : layoutWidth (14 + q) = 16 := by interval_cases q <;> rfl
    rw [hwidth, parseHeader_get_udp cfg h hq]
    exact toNat_udpField_lt cfg h _

/-- Settles O16: a header byte is the list's, and each group of positions has its lemma. -/
theorem parsedFieldValues : Obligations.ParsedFieldValues := by
  intro cfg h _ b hc
  have hbyte : ∀ i, (headerByte h i).toNat = b i := fun _ => rfl
  obtain ⟨h0, h1, h2, h3, h4, h5⟩ := toNat_parseHeader_fixed cfg h
  refine ⟨h0, h1, h2, h3, h4, h5, fun m hm => ?_, fun q hq => ?_, fun p => toNat_parseHeader_lt cfg h⟩
  · rw [parseHeader_get_address cfg h hm, toNat_addressWord]
    simp only [hbyte, Nat.add_right_comm 8, Nat.reduceAdd]
  · rw [parseHeader_get_udp cfg h hq, toNat_udpField_bytes]
    simp only [hbyte, Nat.add_right_comm 40, Nat.reduceAdd]

end Sys2Proof.Machine

namespace Sys2Proof.Machine

/-! ## The serialised header (spec/43_decompress.md R104) -/

/-- The header's first 8 bytes as numbers, from the values at positions 0 to 5 (RFC 8200's layout: PRESUMED, log
entry 17). -/
theorem toNat_headerByte_serialize_fixed (cfg : Config) (hc : HeaderContext) :
    (headerByte (serializeHeader cfg hc) 0).toNat = (hc.get 0).toNat % 16 * 16 + (hc.get 1).toNat / 16 % 16 ∧
    (headerByte (serializeHeader cfg hc) 1).toNat = (hc.get 1).toNat % 16 * 16 + (hc.get 2).toNat / 65536 % 16 ∧
    (headerByte (serializeHeader cfg hc) 2).toNat = (hc.get 2).toNat / 256 % 256 ∧
    (headerByte (serializeHeader cfg hc) 3).toNat = (hc.get 2).toNat % 256 ∧
    (headerByte (serializeHeader cfg hc) 4).toNat = (hc.get 3).toNat / 256 % 256 ∧
    (headerByte (serializeHeader cfg hc) 5).toNat = (hc.get 3).toNat % 256 ∧
    (headerByte (serializeHeader cfg hc) 6).toNat = (hc.get 4).toNat % 256 ∧
    (headerByte (serializeHeader cfg hc) 7).toNat = (hc.get 5).toNat % 256 := by
  simp only [headerByte, serializeHeader, List.cons_append, List.getElem?_cons_zero, List.getElem?_cons_succ,
    Option.getD_some, toNat_append, toNat_extract]
  omega

theorem parseHeader_serializeHeader_address (cfg : Config) (hc : HeaderContext) {m : Nat} (hm : m < 8) :
    (parseHeader cfg (serializeHeader cfg hc)).get (6 + m) = hc.get (6 + m) := by
  have hbyte : ∀ i, i < 4 → headerByte (serializeHeader cfg hc) (8 + 4 * m + i) =
      BitVec.ofNat 8 ((hc.get (6 + m)).toNat / 256 ^ i) := fun i => headerByte_serialize_address cfg hc hm
  rw [parseHeader_get_address cfg _ hm]
  refine addressWord_eq ?_
  rw [← Nat.add_zero (8 + 4 * m), hbyte 0 (by omega), hbyte 1 (by omega), hbyte 2 (by omega), hbyte 3 (by omega)]
  simp [toLE, Nat.div_div_eq_div_mul]

theorem toNat_parseHeader_serializeHeader_udp (cfg : Config) (hc : HeaderContext) {q : Nat} (hq : q < 4) :
    ((parseHeader cfg (serializeHeader cfg hc)).get (14 + q)).toNat = (hc.get (14 + q)).toNat % 2 ^ 16 := by
  rw [parseHeader_get_udp cfg _ hq]
  refine toNat_udpField ?_
  have hbyte : ∀ i, i < 2 → headerByte (serializeHeader cfg hc) (40 + 2 * q + i) =
      headerByte (udpBytes cfg (hc.get (14 + q))) i := fun i => headerByte_serialize_udp cfg hc hq
  rw [← Nat.add_zero (40 + 2 * q), hbyte 0 (by omega), hbyte 1 (by omega)]
  unfold udpBytes
  split_ifs <;> rfl

theorem layoutWidth_address {m : Nat} (hm : m < 8) : layoutWidth (6 + m) = 32 := by
  interval_cases m <;> rfl

theorem layoutWidth_udp {q : Nat} (hq : q < 4) : layoutWidth (14 + q) = 16 := by
  interval_cases q <;> rfl

/-- The parser reads back what the layout keeps of each position. -/
theorem toNat_parseHeader_serializeHeader (cfg : Config) (hc : HeaderContext) {p : Nat} (hp : p < 18) :
    ((parseHeader cfg (serializeHeader cfg hc)).get p).toNat = (hc.get p).toNat % 2 ^ layoutWidth p := by
  rcases Nat.lt_or_ge p 6 with hfixed | hge6
  · have hbytes := toNat_headerByte_serialize_fixed cfg hc
    have hvalues := toNat_parseHeader_fixed cfg (serializeHeader cfg hc)
    interval_cases p <;> norm_num [layoutWidth] <;> omega
  rcases Nat.lt_or_ge p 14 with haddress | hge14
  · obtain ⟨m, rfl⟩ := Nat.exists_eq_add_of_le hge6
    have hm : m < 8 := by omega
    rw [layoutWidth_address hm, parseHeader_serializeHeader_address cfg hc hm, Nat.mod_eq_of_lt (BitVec.isLt _)]
  · obtain ⟨q, rfl⟩ := Nat.exists_eq_add_of_le hge14
    have hq : q < 4 := by omega
    rw [layoutWidth_udp hq, toNat_parseHeader_serializeHeader_udp cfg hc hq]

/-- The serialiser lays out again every byte that the parser has read. -/
theorem headerByte_serializeHeader_parseHeader (cfg : Config) (h : List Byte) {i : Nat} (hi : i < 48) :
    headerByte (serializeHeader cfg (parseHeader cfg h)) i = headerByte h i := by
  rcases Nat.lt_or_ge i 8 with hfixed | hge8
  · have hvalues := toNat_parseHeader_fixed cfg h
    have hbytes := toNat_headerByte_serialize_fixed cfg (parseHeader cfg h)
    apply BitVec.eq_of_toNat_eq
    interval_cases i <;> omega
  rcases Nat.lt_or_ge i 40 with haddress | hge40
  · obtain ⟨m, k, hm, hk, rfl⟩ : ∃ m k, m < 8 ∧ k < 4 ∧ i = 8 + 4 * m + k :=
      ⟨(i - 8) / 4, (i - 8) % 4, by omega, by omega, by omega⟩
    have hbyte := getElem?_toLE (addressWord h (8 + 4 * m)).toNat 4 k
    rw [if_pos hk, toLE_addressWord] at hbyte
    rw [headerByte_serialize_address cfg _ hm hk, parseHeader_get_address cfg h hm]
    refine Option.some_inj.1 (hbyte.symm.trans ?_)
    interval_cases k <;> rfl
  · obtain ⟨q, k, hq, hk, rfl⟩ : ∃ q k, q < 4 ∧ k < 2 ∧ i = 40 + 2 * q + k :=
      ⟨(i - 40) / 2, (i - 40) % 2, by omega, by omega, by omega⟩
    rw [headerByte_serialize_udp cfg _ hq hk, parseHeader_get_udp cfg h hq, udpBytes_udpField]
    interval_cases k <;> rfl

/-- Two lists of the same length are equal where all their bytes are. -/
theorem eq_of_headerByte {h h' : List Byte} (hlen : h.length = h'.length)
    (hbyte : ∀ i, i < h.length → headerByte h i = headerByte h' i) : h = h' := by
  refine List.ext_getElem hlen fun i hi hi' => ?_
  have hi'' := hbyte i hi
  rwa [headerByte, headerByte, List.getElem?_eq_getElem hi, List.getElem?_eq_getElem hi'] at hi''

/-- Settles O17: the parser reads back each group of positions, the serialiser each group of bytes. -/
theorem serializeAndParseAreInverse : Obligations.SerializeAndParseAreInverse := by
  intro cfg
  refine ⟨fun hc p hp => ⟨length_serializeHeader cfg hc, toNat_parseHeader_serializeHeader cfg hc hp⟩,
    fun h hlen => ?_⟩
  have hlen' := length_serializeHeader cfg (parseHeader cfg h)
  exact eq_of_headerByte (hlen'.trans hlen.symm) fun i hi =>
    headerByte_serializeHeader_parseHeader cfg h (hi.trans_eq hlen')

/-! ## The field decoder (R94 to R101) -/

theorem HeaderContext.get_set_self (hc : HeaderContext) {p : Nat} (hp : p < 18) (v : Word) :
    (hc.set p v).get p = v := by
  rw [HeaderContext.get_set, if_pos ⟨rfl, hp⟩]

theorem HeaderContext.get_set_of_ne (hc : HeaderContext) {p q : Nat} (hq : q ≠ p) (v : Word) :
    (hc.set p v).get q = hc.get q := by
  rw [HeaderContext.get_set, if_neg fun h => hq h.1]

/-- A decoder's operation that yields a value moves the walk on with it; nothing else changes. -/
theorem exec_decodeInstr_of_value {s : State} {d : Descriptor} {v : Word} {off : Nat} (hj : s.walk.j < 18)
    (hf : decodeField s.cfg d s.walk.j s.input s.walk.off = .value v off) :
    ∃ t, exec d.decodeInstr s = .next t ∧ OnlyWalkChanged s t ∧ t.walk = { s.walk with
      hc := s.walk.hc.set s.walk.j v, off := off, j := s.walk.j + 1, mux := none } :=
  ⟨_, (exec_decodeInstr d s).trans (State.fieldStep_value hj hf), s.onlyWalkChanged _, rfl⟩

/-- The walk after such an operation, read field by field: the value stands at its position and nowhere else. -/
theorem exec_decodeInstr_fills {s : State} {d : Descriptor} {v : Word} {off : Nat} (hj : s.walk.j < 18)
    (hf : decodeField s.cfg d s.walk.j s.input s.walk.off = .value v off) :
    ∃ t, exec d.decodeInstr s = .next t ∧ OnlyWalkChanged s t ∧ t.walk.off = off ∧ t.walk.j = s.walk.j + 1 ∧
      t.walk.out = s.walk.out ∧ t.walk.acc = s.walk.acc ∧ t.walk.mux = none ∧
      (∀ q < 18, q ≠ s.walk.j → t.walk.hc.get q = s.walk.hc.get q) ∧ t.walk.hc.get s.walk.j = v := by
  obtain ⟨t, ht, hframe, hwalk⟩ := exec_decodeInstr_of_value hj hf
  refine ⟨t, ht, hframe, ?_⟩
  rw [hwalk]
  exact ⟨rfl, rfl, rfl, rfl, rfl, fun q _ hq => HeaderContext.get_set_of_ne _ hq v,
    HeaderContext.get_set_self _ hj v⟩

/-- Settles O24: each of the three yields its value at the same offset. -/
theorem notSentAndDeferredFields : Obligations.NotSentAndDeferredFields := by
  intro s tv bl msb mo hj iv hiv
  obtain ⟨d, hinstr, hfield⟩ : ∃ d : Descriptor, iv.1 = d.decodeInstr ∧
      decodeField s.cfg d s.walk.j s.input s.walk.off = .value iv.2 s.walk.off := by
    simp only [List.mem_cons, List.not_mem_nil, or_false] at hiv
    obtain rfl | rfl | rfl := hiv
    · exact ⟨⟨tv, bl, msb, mo, .ns⟩, rfl, rfl⟩
    · exact ⟨⟨tv, bl, msb, mo, .cmp⟩, rfl, rfl⟩
    · exact ⟨⟨tv, bl, msb, mo, .cks⟩, rfl, rfl⟩
  obtain ⟨t, ht, hframe, hwalk⟩ := exec_decodeInstr_of_value hj hfield
  rw [← hinstr] at ht
  refine ⟨t, ht, hframe, ?_⟩
  rw [hwalk]
  refine ⟨rfl, rfl, rfl, rfl, rfl, fun q _ => ?_⟩
  simp only [HeaderContext.get_set, hj, and_true]

/-- The value that R97 makes of the bytes read: big-endian at positions 2 and 3. -/
def bytesValue (p : Nat) (b : List Byte) : Word := if bigEndianPosition p then beWord b else leWord b

/-- ValueSent yields the value of the bytes that the frame holds. -/
theorem fieldVs_of_fits {bl : BitVec 6} {inp : List Byte} {off : Nat} (p : Nat)
    (h : nvs bl = 0 ∨ off + nvs bl ≤ inp.length) :
    fieldVs bl p inp off = .value (bytesValue p ((inp.drop off).take (nvs bl))) (off + nvs bl) := by
  simp only [fieldVs, readResidual_some h, bytesValue]

theorem reverse_map_range {α : Type} (f : Nat → α) (n : Nat) :
    ((List.range n).map f).reverse = (List.range n).map fun i => f (n - 1 - i) := by
  refine List.ext_getElem (by simp) fun i hi _ => ?_
  simp

/-- The number of bytes f 0, …, f (n-1), the first most significant. -/
theorem beNat_map (f : Nat → Byte) (n : Nat) :
    beNat ((List.range n).map f) = ((List.range n).map fun i => (f i).toNat * 256 ^ (n - 1 - i)).sum := by
  rw [beNat, reverse_map_range, leNat_map, ← List.sum_reverse, reverse_map_range]
  refine congrArg List.sum (List.map_congr_left fun i hi => ?_)
  rw [Nat.sub_sub_self (Nat.le_sub_one_of_lt (List.mem_range.1 hi))]

/-- At most 4 bytes as a number, each at its place in the byte order of the position. -/
theorem toNat_bytesValue_map (p : Nat) (f : Nat → Byte) {n : Nat} (hn : n ≤ 4) :
    (bytesValue p ((List.range n).map f)).toNat = ((List.range n).map fun i => (f i).toNat *
      256 ^ (if p = 2 ∨ p = 3 then n - 1 - i else i)).sum := by
  have hlt : ∀ bs : List Byte, bs.length = n → leNat bs < 2 ^ 32 := fun bs h => leNat_lt_word (h.trans_le hn)
  have horder : bigEndianPosition p = true ↔ p = 2 ∨ p = 3 := by simp [bigEndianPosition]
  simp only [bytesValue, horder]
  split_ifs
  · rw [beWord, BitVec.toNat_ofNat, beNat, Nat.mod_eq_of_lt (hlt _ (by simp)), ← beNat, beNat_map]
  · rw [leWord, BitVec.toNat_ofNat, Nat.mod_eq_of_lt (hlt _ (by simp)), leNat_map]

theorem nb_le_four {n : Nat} (hn : n ≤ 32) : nb n ≤ 4 := by unfold nb; omega

/-- Settles O25: the bytes read are those of IBUF from the offset on. -/
theorem valueSentField : Obligations.ValueSentField := by
  intro s tv bl msb mo hj hbl n hfits
  have hread := fieldVs_of_fits (bl := bl) s.walk.j (hfits.imp_right fun h => h.trans_eq s.length_input.symm)
  rw [s.input_slice _ (nvs bl) hfits] at hread
  obtain ⟨t, ht, hframe, hoff, hnext, hout, hacc, hmux, hother, hvalue⟩ :=
    exec_decodeInstr_fills (d := ⟨tv, bl, msb, mo, .vs⟩) hj hread
  refine ⟨t, ht, hframe, hoff, hnext, hout, hacc, hmux, hother, ?_⟩
  rw [hvalue]
  exact toNat_bytesValue_map s.walk.j _ (nb_le_four hbl)

/-- The value that R98 joins from the target's top bits and the bytes read. -/
def joinedValue (tv : Word) (bl msb : BitVec 6) (b : List Byte) : Word :=
  (tv &&& mmask bl msb) ||| (leWord b &&& lmask bl msb)

theorem fieldLsb_of_not_read {cfg : Config} (h : cfg.lsbDecRead = false) (tv : Word) (bl msb : BitVec 6) (p : Nat)
    (inp : List Byte) (off : Nat) : fieldLsb cfg tv bl msb p inp off = .value tv off := by
  simp [fieldLsb, h]

theorem fieldLsb_of_fits {cfg : Config} (hread : cfg.lsbDecRead = true) (tv : Word) {bl msb : BitVec 6} (p : Nat)
    {inp : List Byte} {off : Nat} (h : nls bl msb = 0 ∨ off + nls bl msb ≤ inp.length) :
    fieldLsb cfg tv bl msb p inp off =
      .value (joinedValue tv bl msb ((inp.drop off).take (nls bl msb))) (off + nls bl msb) := by
  simp only [fieldLsb, hread, if_true, readResidual_some h, joinedValue]

/-- The joined value bit by bit. -/
theorem getLsbD_joinedValue (tv : Word) {bl msb : BitVec 6} (hbl : bl.toNat ≤ 32) (hmsb : msb.toNat ≤ bl.toNat)
    (f : Nat → Byte) {i : Nat} (hi : i < 32) :
    (joinedValue tv bl msb ((List.range (nls bl msb)).map f)).getLsbD i =
      if i < bl.toNat - msb.toNat then (f (i / 8)).getLsbD (i % 8)
      else if i < bl.toNat then tv.getLsbD i else false := by
  rw [joinedValue, BitVec.getLsbD_or, BitVec.getLsbD_and, BitVec.getLsbD_and, getLsbD_mmask hbl hmsb,
    getLsbD_lmask, leWord, BitVec.getLsbD_ofNat, testBit_leNat_map]
  by_cases hlow : i < bl.toNat - msb.toNat
  · have hread : i < 8 * nls bl msb := by unfold nls nb nL; omega
    simp [hi, hlow, hread, Nat.not_le.2 hlow]
  · by_cases hfield : i < bl.toNat
    · simp [hlow, hfield, Nat.not_lt.1 hlow]
    · simp [hlow, hfield]

/-- Settles O26: in mode 1 the value is the joined one, in mode 0 the target. -/
theorem leastSignificantBitsField : Obligations.LeastSignificantBitsField := by
  intro s tv bl msb mo hj hbl hmsb nl n hfits
  obtain ⟨v, hvalue, hkeep, hjoin⟩ : ∃ v,
      decodeField s.cfg ⟨tv, bl, msb, mo, .lsb⟩ s.walk.j s.input s.walk.off = .value v (s.walk.off + n) ∧
      (s.cfg.lsbDecRead = false → v = tv) ∧
      (s.cfg.lsbDecRead = true → v = joinedValue tv bl msb
        ((List.range (nls bl msb)).map fun i => s.ibufByte (s.walk.off + i))) := by
    cases hmode : s.cfg.lsbDecRead with
    | false =>
      have hn : n = 0 := if_neg (by simp [hmode])
      rw [hn]
      exact ⟨tv, fieldLsb_of_not_read hmode tv bl msb s.walk.j s.input _, fun _ => rfl, Bool.noConfusion⟩
    | true =>
      have hn : n = nls bl msb := if_pos hmode
      rw [hn] at hfits ⊢
      have hread := fieldLsb_of_fits hmode tv s.walk.j (hfits.imp_right fun h => h.trans_eq s.length_input.symm)
      rw [s.input_slice _ (nls bl msb) hfits] at hread
      exact ⟨_, hread, Bool.noConfusion, fun _ => rfl⟩
  obtain ⟨t, ht, hframe, hoff, hnext, hout, hacc, hmux, hother, hget⟩ := exec_decodeInstr_fills hj hvalue
  refine ⟨t, ht, hframe, hoff, hnext, hout, hacc, hmux, hother, fun hmode => hget.trans (hkeep hmode),
    fun hmode i hi => ?_⟩
  rw [hget, hjoin hmode]
  exact getLsbD_joinedValue tv hbl hmsb _ hi

/-- The identity word that R101 sets at a position. -/
def identityWord (cfg : Config) (p : Nat) : Word := if p = 8 ∨ p = 12 then idWord0 cfg else idWord1 cfg

theorem fieldDev_of_whole {cfg : Config} (h : 8 ≤ cfg.devidLen) (p : Nat) (inp : List Byte) (off : Nat) :
    fieldDev cfg p inp off = .value (identityWord cfg p) off := by
  simp [fieldDev, identityValid, identityWord, Nat.not_lt.2 h]

theorem toNat_identityWord (cfg : Config) (p : Nat) : (identityWord cfg p).toNat =
    let d := fun i => (cfg.devid.toList.getD i 0).toNat
    if p = 8 ∨ p = 12 then d 0 + 256 * d 1 + 65536 * d 2 + 16777216 * d 3
    else d 4 + 256 * d 5 + 65536 * d 6 + 16777216 * d 7 := by
  obtain ⟨hword0, hword1⟩ := toNat_idWords cfg
  unfold identityWord
  split_ifs
  · exact hword0
  · exact hword1

theorem iidPosition_lt {p : Nat} (h : iidPosition p = true) : p < 18 := by
  simp only [iidPosition, Bool.or_eq_true, decide_eq_true_eq] at h
  omega

/-- Settles O27: the field is the identity word of its position. -/
theorem deviceIdentityField : Obligations.DeviceIdentityField := by
  intro s tv bl msb mo hpos hid
  have hj := iidPosition_lt hpos
  obtain ⟨t, ht, hframe, hoff, hnext, hout, hacc, hmux, hother, hvalue⟩ :=
    exec_decodeInstr_fills (d := ⟨tv, bl, msb, mo, .dev⟩) hj (fieldDev_of_whole hid s.walk.j s.input s.walk.off)
  refine ⟨t, ht, hframe, hoff, hnext, hout, hacc, hmux, hother, ?_⟩
  rw [hvalue]
  exact toNat_identityWord s.cfg s.walk.j

end Sys2Proof.Machine

namespace Sys2Proof.Machine

/-! ## DECOMPRESS (R91 to R93, R105, R106) -/

/-- Inside the buffer DECOMPRESS commits the result of its function, whose lengths fit their 16 bits. -/
theorem exec_decompress_of_le {s : State} {r : CmdResult} (hwf : s.cfg.wf = true) (hfit : s.frameLen ≤ s.cfg.bufBytes)
    (hr : decompressInput s.cfg s.input = r) : exec .decompress s = .next (s.commit r) ∧
      CompletedWith s (s.commit r) r.status.matched r.status.err r.status.tag.toNat r.status.errPos.toNat r.outLen
        r.hdrLen := by
  subst hr
  obtain ⟨-, -, hbuf, -⟩ := Config.wf_ranges hwf
  obtain ⟨hout, hhdr⟩ := (decompressInput_sound hwf (s.length_input.trans_le hfit)).lengths_le
  have hobuf : s.cfg.obufBytes = s.cfg.bufBytes + 47 := rfl
  exact ⟨exec_of_commandResult (congrArg some (State.withInput_of_le _ hfit)),
    s.completedWith_commit (by omega) (by omega)⟩

theorem decompressInput_of_zero_tag (cfg : Config) (rest : List Byte) :
    decompressInput cfg (0 :: rest) = .decOk rest 0 1 := rfl

theorem decompressInput_of_unknown_tag {cfg : Config} {tag : Byte} (rest : List Byte) (h : cfg.nRules < tag.toNat) :
    decompressInput cfg (tag :: rest) = .decErr .unknownRuleTag tag noPosition := by
  have htag : tag ≠ 0 := by
    rintro rfl
    exact Nat.not_lt_zero _ h
  have hnone : cfg.rules[tag.toNat - 1]? = none := List.getElem?_eq_none (Nat.le_sub_one_of_lt h)
  simp only [decompressInput, if_neg htag, hnone]

/-- Settles O29: the committed output is the frame behind its first byte. -/
theorem decompressPassesThrough : Obligations.DecompressPassesThrough := by
  intro s hwf hlen hfit htag
  obtain ⟨rest, hin⟩ := State.input_eq_cons hlen
  rw [htag] at hin
  obtain ⟨hexec, hdone⟩ := exec_decompress_of_le hwf hfit
    ((congrArg _ hin).trans (decompressInput_of_zero_tag s.cfg rest))
  have hlength : rest.length = s.frameLen - 1 := by
    rw [← s.length_input, hin, List.length_cons, Nat.add_sub_cancel]
  have hrest : ∀ i, i + 1 < s.frameLen → rest[i]? = some (s.ibufByte (i + 1)) := fun i hi => by
    rw [← List.getElem?_cons_succ (a := (0 : Byte)), ← hin, State.getElem?_input, if_pos hi]
  refine ⟨_, hexec, ?_, ⟨rfl, rfl⟩, fun i hi => State.obufByte_commit_write rfl (hrest i hi)⟩
  rw [← hlength]
  exact hdone

/-- Settles O30: neither frame reaches the walk. -/
theorem decompressRejectsFrames : Obligations.DecompressRejectsFrames := by
  intro s hwf hfit
  refine ⟨fun hzero => ?_, fun hlen htag => ?_⟩
  · obtain ⟨hexec, hdone⟩ := exec_decompress_of_le hwf hfit (r := .decErr .truncatedBuffer 0 noPosition)
      (congrArg _ (State.input_of_frameLen_zero hzero))
    exact ⟨_, hexec, hdone, rfl, rfl, rfl⟩
  · obtain ⟨rest, hin⟩ := State.input_eq_cons hlen
    obtain ⟨hexec, hdone⟩ := exec_decompress_of_le hwf hfit
      ((congrArg _ hin).trans (decompressInput_of_unknown_tag rest htag))
    exact ⟨_, hexec, hdone, rfl, rfl, rfl⟩

/-- A raise shows its kind, the frame's tag and its position, and no output. -/
theorem State.completedWith_raise (s : State) (e : ErrKind) {p : Nat} (hp : p < 18) :
    CompletedWith s (s.raise e p) false e s.frameTag.toNat p 0 0 := by
  have hdone := s.completedWith_commit (r := .decErr e s.frameTag (BitVec.ofNat 8 p)) (Nat.two_pow_pos 16)
    (Nat.two_pow_pos 16)
  have hpos : (BitVec.ofNat 8 p).toNat = p := Nat.mod_eq_of_lt (hp.trans (by decide))
  rwa [show (CmdResult.decErr e s.frameTag (BitVec.ofNat 8 p)).status.errPos.toNat = p from hpos] at hdone

theorem State.frameTag_eq {s : State} (h : 1 ≤ s.frameLen) : s.frameTag = s.ibufByte 0 := by
  obtain ⟨rest, hin⟩ := State.input_eq_cons h
  rw [State.frameTag, hin, List.headD_cons]

theorem decompressUnder_of_done {cfg : Config} {r : Rule} {inp : List Byte} {hc : HeaderContext} {off : Nat}
    (tag : Byte) (hw : fieldWalk cfg inp (ruleFields r) HeaderContext.zero 1 = .done hc off) :
    decompressUnder cfg r tag inp = .decOk
      (serializeHeader cfg (resolveDeferred (lengthValue inp.length off) (ruleFields r) hc) ++ inp.drop off) tag off := by
  simp [decompressUnder, hw]

/-- What the deferred pass leaves at each position of a rule (R102, R103). -/
theorem resolveDeferred_ruleFields_get {r : Rule} {p : Nat} {d : Descriptor} (hd : r.fields[p]? = some d) (len : Word)
    (hc : HeaderContext) : (resolveDeferred len (ruleFields r) hc).get p =
      if d.act = .cmp then len else if d.act = .cks then 0 else hc.get p := by
  have hd' : r.fields.toList[p - 0]? = some d := by simpa using hd
  rw [ruleFields, resolveDeferred_get len _ 0 hc (by simp), if_pos (Nat.zero_le p), hd']

/-- The length does not wrap around (R102). -/
theorem toNat_lengthValue {len off : Nat} (hlen : len ≤ 65488) : (lengthValue len off).toNat = len + 8 - off := by
  have hfits : len + 8 - off < 2 ^ 32 := by omega
  exact Nat.mod_eq_of_lt hfits

/-- Settles O31: a walk that raises is committed as its raise, one that ends as the header and the payload. -/
theorem decompressUnderRule : Obligations.DecompressUnderRule := by
  intro s r hwf hlen hfit htag hr
  refine ⟨fun e p hraised => ?_, fun hc off hdone => ?_⟩
  · have hp := fieldWalk_ruleFields_raised hraised
    refine ⟨hp, _, exec_decompress_of_raised hlen hfit htag hr hraised, ?_, rfl, rfl⟩
    rw [← State.frameTag_eq hlen]
    exact s.completedWith_raise e hp
  · obtain ⟨rest, hin⟩ := State.input_eq_cons hlen
    obtain ⟨-, -, hbuf, -⟩ := Config.wf_ranges hwf
    obtain ⟨-, hinside⟩ := fieldWalk_done hdone
    have hoff : off ≤ s.frameLen := s.length_input ▸ hinside (s.length_input.symm ▸ hlen)
    have hunder := decompressInput_of_rule (rest := rest) htag hr
    rw [← hin, decompressUnder_of_done _ hdone, s.length_input] at hunder
    obtain ⟨hexec, hcompleted⟩ := exec_decompress_of_le hwf hfit hunder
    set hc' := resolveDeferred (lengthValue s.frameLen off) (ruleFields r) hc
    have hheader : (serializeHeader s.cfg hc').length = 48 := length_serializeHeader s.cfg hc'
    have hlength : (serializeHeader s.cfg hc' ++ s.input.drop off).length = 48 + s.frameLen - off := by
      rw [List.length_append, hheader, List.length_drop, s.length_input, Nat.add_sub_assoc hoff]
    have hpayload : ∀ i, off + i < s.frameLen →
        (serializeHeader s.cfg hc' ++ s.input.drop off)[48 + i]? = some (s.ibufByte (off + i)) := fun i hi => by
      rw [← hheader, List.getElem?_append_right (Nat.le_add_right _ i), Nat.add_sub_cancel_left, List.getElem?_drop,
        State.getElem?_input, if_pos hi]
    refine ⟨_, hc', hexec, ?_, ⟨rfl, rfl⟩, fun p d hd => ?_, fun i b hi => ?_,
      fun i hi => State.obufByte_commit_write rfl (hpayload i hi)⟩
    · rw [← hlength, ← decide_eq_true htag]
      exact hcompleted
    · rw [resolveDeferred_ruleFields_get hd, ← toNat_lengthValue (hfit.trans hbuf)]
      split_ifs <;> rfl
    · exact State.obufByte_commit_write rfl
        ((List.getElem?_append_left (List.getElem?_eq_some_iff.1 hi).1).trans hi)

/-! ## The first raise (R95, R115) -/

/-- The offsets that a walk over descriptors from position n on passes before it raises at p: each descriptor before p
yields a value and leaves the next offset, and the one at p raises. -/
theorem fieldWalk_raised_offsets {cfg : Config} {inp : List Byte} {ds : List Descriptor} {n off p : Nat}
    {hc : HeaderContext} {e : ErrKind} (h : fieldWalk cfg inp (ds.zipIdx n) hc off = .raised e (n + p)) :
    ∃ offs : List Nat, offs.length = p + 1 ∧ offs[0]? = some off ∧
      (∀ q o d, q < p → offs[q]? = some o → ds[q]? = some d →
        ∃ v o', decodeField cfg d (n + q) inp o = .value v o' ∧ offs[q + 1]? = some o') ∧
      ∀ o d, offs[p]? = some o → ds[p]? = some d → decodeField cfg d (n + p) inp o = .raised e := by
  induction ds generalizing n off p hc with
  | nil => cases h
  | cons d ds ih =>
    rw [List.zipIdx_cons, fieldWalk] at h
    cases hf : decodeField cfg d n inp off with
    | raised e' =>
      simp only [hf, WalkResult.raised.injEq] at h
      obtain ⟨rfl, hp⟩ := h
      obtain rfl : p = 0 := by omega
      refine ⟨[off], rfl, rfl, fun q _ _ hq => absurd hq (Nat.not_lt_zero q), fun o d' ho hd => ?_⟩
      cases ho
      cases hd
      exact hf
    | value v off' =>
      simp only [hf] at h
      obtain ⟨d', hd'⟩ := fieldWalk_raised_mem h
      have hlater : n + 1 ≤ n + p := List.le_snd_of_mem_zipIdx hd'
      obtain ⟨p, rfl⟩ := Nat.exists_eq_add_one.2 (Nat.pos_of_lt_add_right hlater)
      have hshift : ∀ q, n + (q + 1) = n + 1 + q := fun q => by omega
      rw [hshift p] at h
      obtain ⟨offs, hlen, hhead, hvalues, hraise⟩ := ih h
      refine ⟨off :: offs, congrArg (· + 1) hlen, rfl, fun q o d' hq ho hd => ?_, fun o d' ho hd => ?_⟩
      · cases q with
        | zero =>
          cases ho
          cases hd
          exact ⟨v, off', hf, hhead⟩
        | succ q =>
          rw [hshift q]
          exact hvalues q o d' (Nat.lt_of_succ_lt_succ hq) ho hd
      · rw [hshift p]
        exact hraise o d' ho hd

/-- Settles O33: the walk over a rule's descriptors starts at position 0 with offset 1. -/
theorem walkReportsFirstRaise : Obligations.WalkReportsFirstRaise := by
  intro cfg inp r e p h
  have hkind := fieldWalk_raised_kind h
  rw [ruleFields, ← Nat.zero_add p] at h
  obtain ⟨offs, hlen, hhead, hvalues, hraise⟩ := fieldWalk_raised_offsets h
  simp only [Nat.zero_add, Vector.getElem?_toList] at hvalues hraise
  exact ⟨offs, hlen, hhead, hvalues, hraise, hkind⟩

end Sys2Proof.Machine

namespace Sys2Proof.Machine

/-! ## The round trip (R107) -/

theorem toNat_trunc (v : Word) (n : Nat) : (trunc v n).toNat = v.toNat % 2 ^ n :=
  Nat.mod_eq_of_lt ((Nat.mod_le _ _).trans_lt v.isLt)

theorem trunc_of_lt {v : Word} {n : Nat} (h : v.toNat < 2 ^ n) : trunc v n = v :=
  BitVec.eq_of_toNat_eq ((toNat_trunc v n).trans (Nat.mod_eq_of_lt h))

/-- The value that R107 gives a field h for its descriptor's action, `len` being the length. In the first pass, where
the length is deferred, `len` is the placeholder 0 (R99). -/
def lawValue (cfg : Config) (len : Word) (d : Descriptor) (p : Nat) (h : Word) : Word :=
  match d.act with
  | .ns => d.tv
  | .vs => trunc (sentValue cfg d.tv h) (8 * nvs d.bl)
  | .lsb => d.tv
  | .cmp => len
  | .cks => 0
  | .dev => identityWord cfg p

/-- The premises of R107 for one descriptor: the bytes sent are the bytes read, in the same order, and the identity is
whole where it is read. -/
structure RoundTrips (cfg : Config) (d : Descriptor) (p : Nat) : Prop where
  lsb : d.act = .lsb → cfg.lsbDecRead = false
  vs : d.act = .vs → bigEndianPosition p = true → cfg.cmpFlplLe = false
  dev : d.act = .dev → 8 ≤ cfg.devidLen

/-- Where both sides use the same byte order, the bytes sent are read back as the value sent. -/
theorem bytesValue_emitVs {cfg : Config} {p : Nat} (horder : bigEndianPosition p = true → cfg.cmpFlplLe = false)
    (tv h : Word) (bl : BitVec 6) :
    bytesValue p (emitVs cfg tv bl p h) = trunc (sentValue cfg tv h) (8 * nvs bl) := by
  apply BitVec.eq_of_toNat_eq
  rw [toNat_trunc]
  cases hp : bigEndianPosition p with
  | true =>
    simp only [bytesValue, emitVs, hp, horder hp, if_true, Bool.not_false, Bool.and_self]
    exact toNat_beWord_toBE _ _
  | false =>
    simp only [bytesValue, emitVs, hp, Bool.false_and, Bool.false_eq_true, if_false]
    exact toNat_leWord_toLE _ _

/-- The decoder takes exactly the bytes that the encoder emits for the same field, and yields the law's value. -/
theorem decodeField_emitField {cfg : Config} {d : Descriptor} {p : Nat} (hd : RoundTrips cfg d p) (h : Word)
    (pre post : List Byte) : decodeField cfg d p (pre ++ (emitField cfg d p h ++ post)) pre.length =
      .value (lawValue cfg 0 d p h) (pre.length + (emitField cfg d p h).length) := by
  obtain ⟨tv, bl, msb, mo, act⟩ := d
  cases act with
  | ns => rfl
  | vs =>
    have hlen : (emitVs cfg tv bl p h).length = nvs bl := length_emitField cfg ⟨tv, bl, msb, mo, .vs⟩ p h
    have hfits : pre.length + nvs bl ≤ (pre ++ (emitVs cfg tv bl p h ++ post)).length := by
      rw [List.length_append, List.length_append, hlen]
      omega
    have hread := fieldVs_of_fits p (Or.inr hfits)
    rw [List.drop_left, ← hlen, List.take_left, bytesValue_emitVs (hd.vs rfl)] at hread
    exact hread
  | lsb => exact fieldLsb_of_not_read (hd.lsb rfl) tv bl msb p _ _
  | cmp => rfl
  | cks => rfl
  | dev => exact fieldDev_of_whole (hd.dev rfl) p (pre ++ post) _

/-- The walk over the bytes that the encoder emits for the values of hc ends behind them, with the law's value at each
position it visits. -/
theorem fieldWalk_emitted {cfg : Config} (hc : HeaderContext) (post : List Byte) (ds : List Descriptor) (n : Nat)
    (hn : n + ds.length ≤ 18) (hds : ∀ dp ∈ ds.zipIdx n, RoundTrips cfg dp.1 dp.2) (pre : List Byte)
    (hc₀ : HeaderContext) :
    let res := (ds.zipIdx n).flatMap fun dp => emitField cfg dp.1 dp.2 (hc.get dp.2)
    ∃ hc', fieldWalk cfg (pre ++ (res ++ post)) (ds.zipIdx n) hc₀ pre.length = .done hc' (pre.length + res.length) ∧
      (∀ q < n, hc'.get q = hc₀.get q) ∧
      ∀ dp ∈ ds.zipIdx n, hc'.get dp.2 = lawValue cfg 0 dp.1 dp.2 (hc.get dp.2) := by
  induction ds generalizing n pre hc₀ with
  | nil => exact ⟨hc₀, rfl, fun _ _ => rfl, fun _ h => by cases h⟩
  | cons d ds ih =>
    rw [List.length_cons] at hn
    rw [List.zipIdx_cons] at hds ⊢
    have hfield := decodeField_emitField (hds _ List.mem_cons_self) (hc.get n) pre
      ((ds.zipIdx (n + 1)).flatMap (fun dp => emitField cfg dp.1 dp.2 (hc.get dp.2)) ++ post)
    obtain ⟨hc', hwalk, hbefore, hvalues⟩ := ih (n + 1) (by omega) (fun dp hdp => hds dp (List.mem_cons_of_mem _ hdp))
      (pre ++ emitField cfg d n (hc.get n)) (hc₀.set n (lawValue cfg 0 d n (hc.get n)))
    rw [List.length_append, List.append_assoc] at hwalk
    refine ⟨hc', ?_, fun q hq => ?_, fun dp hdp => ?_⟩
    · simp only [List.flatMap_cons, List.append_assoc, List.length_append, fieldWalk, hfield]
      rw [hwalk, Nat.add_assoc]
    · rw [hbefore q (by omega), HeaderContext.get_set_of_ne _ (by omega)]
    · obtain rfl | hdp := List.mem_cons.1 hdp
      · exact (hbefore n (Nat.lt_succ_self n)).trans (HeaderContext.get_set_self _ (by omega) _)
      · exact hvalues dp hdp

/-- Decompressing a rule's residual and a payload gives the law's header and the payload. -/
theorem decompressUnder_residual {cfg : Config} {r : Rule}
    (hr : ∀ p d, r.fields[p]? = some d → RoundTrips cfg d p) (hc : HeaderContext) (tag : Byte) (pay : List Byte) :
    let res := residualBytes cfg r hc
    ∃ hc', decompressUnder cfg r tag (tag :: (res ++ pay)) = .decOk (serializeHeader cfg hc' ++ pay) tag
        (1 + res.length) ∧
      ∀ p d, r.fields[p]? = some d → hc'.get p = lawValue cfg (BitVec.ofNat 32 (8 + pay.length)) d p (hc.get p) := by
  intro res
  obtain ⟨hc', hwalk, -, hvalues⟩ := fieldWalk_emitted hc pay r.fields.toList 0 (by simp)
    (fun dp hdp => hr dp.2 dp.1 ((mem_ruleFields r dp.1 dp.2).1 hdp)) [tag] HeaderContext.zero
  have hwalk' : fieldWalk cfg (tag :: (res ++ pay)) (ruleFields r) HeaderContext.zero 1 = .done hc' (1 + res.length) :=
    hwalk
  have hlen : lengthValue (tag :: (res ++ pay)).length (1 + res.length) = BitVec.ofNat 32 (8 + pay.length) := by
    rw [lengthValue, List.length_cons, List.length_append, udpHdrBytes]
    exact congrArg _ (by omega)
  have hrest : (tag :: (res ++ pay)).drop (1 + res.length) = pay := by
    rw [Nat.add_comm, List.drop_succ_cons, List.drop_left]
  refine ⟨resolveDeferred (BitVec.ofNat 32 (8 + pay.length)) (ruleFields r) hc', ?_, fun p d hd => ?_⟩
  · rw [decompressUnder_of_done tag hwalk', hrest, hlen]
  · rw [resolveDeferred_ruleFields_get hd, hvalues _ ((mem_ruleFields r d p).2 hd)]
    obtain ⟨tv, bl, msb, mo, act⟩ := d
    cases act <;> rfl

/-! ## The restoring cases (R107) -/

/-- An EQ lane accepts a well-formed descriptor's target alone. -/
theorem eq_tv_of_accLane {d : Descriptor} {h : Word} (hmo : d.mo = .eq) (htv : d.tv.toNat < 2 ^ d.bl.toNat)
    (hacc : accLane d h = true) : h = d.tv := by
  have heq := ((accLane_iff d h).1 hacc).1 hmo
  rw [accEq_eq, Nat.mod_eq_of_lt htv, decide_eq_true_eq] at heq
  exact BitVec.eq_of_toNat_eq heq

/-- The cases in which the law's value is the original field h. -/
theorem lawValue_restores {cfg : Config} {len : Word} {d : Descriptor} {p : Nat} {h : Word} (hwf : d.wfAt p = true)
    (hacc : accLane d h = true) (hh : h.toNat < 2 ^ layoutWidth p)
    (hcase : d.mo = .eq ∧ (d.act = .ns ∨ d.act = .vs) ∨
      d.act = .vs ∧ cfg.vsFromHeader = true ∧ layoutWidth p ≤ 8 * nvs d.bl ∨
      d.act = .dev ∧ h = identityWord cfg p ∨ d.act = .cmp ∧ h = len) : lawValue cfg len d p h = h := by
  obtain ⟨-, -, hwf5, -⟩ := (Descriptor.wfAt_iff d p).1 hwf
  obtain ⟨hmo, hact | hact⟩ | ⟨hact, hmode, hwidth⟩ | ⟨hact, hid⟩ | ⟨hact, hlen⟩ := hcase
  · have htv := hwf5 (by simp [hmo])
    simp only [lawValue, hact, eq_tv_of_accLane hmo htv hacc]
  · have htv := hwf5 (by simp [hmo])
    have hbits : d.bl.toNat ≤ 8 * nvs d.bl := by unfold nvs nb; omega
    have hsent : sentValue cfg d.tv h = d.tv := by
      rw [eq_tv_of_accLane hmo htv hacc, sentValue, ite_self]
    simp only [lawValue, hact, hsent]
    rw [trunc_of_lt (htv.trans_le (Nat.pow_le_pow_right two_pos hbits)), eq_tv_of_accLane hmo htv hacc]
  · have hsent : sentValue cfg d.tv h = h := if_pos hmode
    simp only [lawValue, hact, hsent]
    exact trunc_of_lt (hh.trans_le (Nat.pow_le_pow_right two_pos hwidth))
  · simp only [lawValue, hact, hid]
  · simp only [lawValue, hact, hlen]

theorem ruleMatches_of_selectRule {cfg : Config} {hc : HeaderContext} {k : Nat} {r : Rule}
    (hsel : selectRule cfg hc = some k) (hr : cfg.rules[k]? = some r) : ruleMatches r hc = true := by
  obtain ⟨hall, hfirst, -⟩ := selectIsFirstMatch cfg hc
  obtain ⟨r', hr', hmatch⟩ : ∃ r', cfg.rules[k]? = some r' ∧ ruleMatches r' hc = true := by
    cases hmode : cfg.scanFirstOnly with
    | false => exact (((hall hmode).1 k).1 hsel).1
    | true =>
      obtain ⟨rfl, hmatch⟩ := ((hfirst hmode).1 k).1 hsel
      exact hmatch
  obtain rfl := Option.some_inj.1 (hr'.symm.trans hr)
  exact hmatch

/-- The premises of R107 for a rule are those for each of its descriptors. -/
theorem roundTrips_of_rule {cfg : Config} {r : Rule}
    (hlsb : cfg.lsbDecRead = false ∨ ∀ d ∈ r.fields.toList, d.act ≠ .lsb)
    (hvs : cfg.cmpFlplLe = false ∨ ∀ p d, r.fields[p]? = some d → p = 2 ∨ p = 3 → d.act ≠ .vs)
    (hdev : cfg.devidLen = 8 ∨ ∀ d ∈ r.fields.toList, d.act ≠ .dev) (p : Nat) (d : Descriptor)
    (hd : r.fields[p]? = some d) : RoundTrips cfg d p := by
  have hmem : d ∈ r.fields.toList := List.mem_of_getElem? (Vector.getElem?_toList.trans hd)
  exact ⟨fun hact => hlsb.resolve_right fun h => h d hmem hact,
    fun hact hp => hvs.resolve_right fun h => h p d hd (by simpa [bigEndianPosition] using hp) hact,
    fun hact => (hdev.resolve_right fun h => h d hmem hact).ge⟩

/-- Rule k's id is its tag (WF2), so a frame that COMPRESS puts out under rule k is decompressed under it. -/
theorem decompressInput_of_compressed {cfg : Config} {h pay c : List Byte} {k hl : Nat} {r : Rule}
    (hwf : cfg.wf = true) (hlen : h.length = 48) (hcomp : compressInput cfg (h ++ pay) = .cmpMatched c k hl)
    (hr : cfg.rules[k]? = some r) (hround : ∀ p d, r.fields[p]? = some d → RoundTrips cfg d p) :
    ∃ hc', decompressInput cfg c = .decOk (serializeHeader cfg hc' ++ pay) (BitVec.ofNat 8 (k + 1)) hl ∧
      ∀ p d, r.fields[p]? = some d →
        hc'.get p = lawValue cfg (BitVec.ofNat 32 (8 + pay.length)) d p ((parseHeader cfg h).get p) := by
  obtain ⟨-, -, hc, hhl⟩ := compressInput_matched hcomp hr
  rw [List.take_left' hlen] at hc hhl
  rw [List.drop_left' hlen] at hc
  obtain ⟨-, hwf2, -⟩ := (Config.wf_iff cfg).1 hwf
  have hid : r.id.toNat = k + 1 := (Config.wf2_iff cfg).1 hwf2 k r hr
  have htag : r.id = BitVec.ofNat 8 (k + 1) := by rw [← hid, BitVec.ofNat_toNat, BitVec.setWidth_eq]
  have hne : r.id ≠ 0 := fun h0 => by simp [h0] at hid
  have hrule : cfg.rules[r.id.toNat - 1]? = some r := by rw [hid, Nat.add_sub_cancel, hr]
  obtain ⟨hc', hdec, hvalues⟩ := decompressUnder_residual hround (parseHeader cfg h) r.id pay
  rw [← decompressInput_of_rule hne hrule, ← List.cons_append, ← hc, ← hhl, htag] at hdec
  exact ⟨hc', hdec, hvalues⟩

/-- Settles O35: every field is the law's value; the rule has matched the header, so its lanes accept each field, and
they fix the restoring cases. -/
theorem roundTripLaw : Obligations.RoundTripLaw := by
  intro cfg h pay c k hl r hwf hlen hfit hcomp hr hlsb hvs hdev
  obtain ⟨hc', hdec, hvalues⟩ :=
    decompressInput_of_compressed hwf hlen hcomp hr (roundTrips_of_rule hlsb hvs hdev)
  obtain ⟨-, hsel, -⟩ := compressInput_matched hcomp hr
  rw [List.take_left' hlen] at hsel
  obtain ⟨-, -, hbuf, -⟩ := Config.wf_ranges hwf
  have hlenWord : (BitVec.ofNat 32 (8 + pay.length)).toNat = 8 + pay.length := Nat.mod_eq_of_lt (by omega)
  refine ⟨hc', hdec, fun p d hd => ?_⟩
  have hwidth := toNat_parseHeader_lt cfg h (position_lt hd)
  have hlane := (ruleMatches_iff r _).1 (ruleMatches_of_selectRule hsel hr) p d hd
  have hrestores := lawValue_restores (cfg := cfg) (len := BitVec.ofNat 32 (8 + pay.length))
    (Rule.wf_field (Config.wf_rule hwf hr) hd) hlane hwidth
  rw [hvalues p d hd]
  refine ⟨fun hact => ?_, fun hact => ?_, fun hact => ?_, fun hact => ?_, fun hact => ?_, fun hact => ?_,
    fun hcase => ?_⟩
  · simp only [lawValue, hact]
  · simp only [lawValue, hact, toNat_trunc]
    rfl
  · simp only [lawValue, hact]
  · simp only [lawValue, hact, hlenWord]
  · simp only [lawValue, hact]
  · simp only [lawValue, hact]
    rfl
  · rw [hrestores (hcase.imp_right (Or.imp_right (Or.imp_right fun ⟨hact, hlen⟩ =>
      ⟨hact, BitVec.eq_of_toNat_eq (hlen.trans hlenWord.symm)⟩)))]
    exact Nat.mod_eq_of_lt hwidth

end Sys2Proof.Machine

namespace Sys2Proof.Machine

/-! ## IDSYNTH (spec/44_identity.md R108 to R110) -/

theorem idSynth_of_whole {cfg : Config} (h : 8 ≤ cfg.devidLen) : idSynth cfg = .idOk (idWord0 cfg) (idWord1 cfg) := by
  obtain ⟨-, hid⟩ | ⟨hshort, -⟩ := idSynth_cases cfg
  · exact hid
  · exact absurd h (Nat.not_le.2 hshort)

theorem idSynth_of_short {cfg : Config} (h : cfg.devidLen < 8) : idSynth cfg = .idErr := by
  obtain ⟨hwhole, -⟩ | ⟨-, hid⟩ := idSynth_cases cfg
  · exact absurd hwhole (Nat.not_le.2 h)
  · exact hid

/-- IDSYNTH commits its result whatever IN_LEN is: it has no length check (R70, R110). -/
theorem exec_idsynth_of_result {s : State} {r : CmdResult} (hr : idSynth s.cfg = r) :
    exec .idsynth s = .next (s.commit r) := exec_of_commandResult (congrArg some hr)

/-- Settles O36: IDSYNTH commits the two words of the identity or InvalidDeviceIdentity, both of which keep OBUF. -/
theorem idsynthResult : Obligations.IdsynthResult := by
  intro s d
  refine ⟨fun hwhole => ?_, fun hshort => ?_⟩
  · obtain ⟨hw0, hw1⟩ := toNat_idWords s.cfg
    exact ⟨_, exec_idsynth_of_result (idSynth_of_whole hwhole),
      s.completedWith_commit (r := .idOk (idWord0 s.cfg) (idWord1 s.cfg)) (Nat.two_pow_pos 16) (Nat.two_pow_pos 16),
      State.obufByte_commit_keep rfl, hw0, hw1⟩
  · exact ⟨_, exec_idsynth_of_result (idSynth_of_short hshort),
      s.completedWith_commit (r := .idErr) (Nat.two_pow_pos 16) (Nat.two_pow_pos 16),
      State.obufByte_commit_keep rfl, ⟨rfl, rfl⟩, rfl⟩

end Sys2Proof.Machine

namespace Sys2Proof.Machine

/-! ## A field operation that raises (spec/60_exceptions.md R113, R116) -/

theorem fieldVs_of_short {bl : BitVec 6} {inp : List Byte} {off : Nat} (p : Nat) (hn : nvs bl ≠ 0)
    (h : inp.length < off + nvs bl) : fieldVs bl p inp off = .raised .truncatedBuffer := by
  simp only [fieldVs, readResidual_none hn h]

theorem fieldLsb_of_short {cfg : Config} (hread : cfg.lsbDecRead = true) (tv : Word) {bl msb : BitVec 6} (p : Nat)
    {inp : List Byte} {off : Nat} (hn : nls bl msb ≠ 0) (h : inp.length < off + nls bl msb) :
    fieldLsb cfg tv bl msb p inp off = .raised .truncatedBuffer := by
  simp only [fieldLsb, hread, if_true, readResidual_none hn h]

theorem fieldDev_of_short {cfg : Config} (h : cfg.devidLen < 8) (p : Nat) (inp : List Byte) (off : Nat) :
    fieldDev cfg p inp off = .raised .invalidDeviceIdentity := by
  simp [fieldDev, identityValid, h]

/-- The reported tag for every frame: its first byte, and 0 for an empty one (log entry 19). -/
theorem State.toNat_frameTag (s : State) :
    s.frameTag.toNat = if s.frameLen = 0 then 0 else (s.ibufByte 0).toNat := by
  split_ifs with hempty
  · rw [State.frameTag, State.input_of_frameLen_zero hempty]
    rfl
  · rw [State.frameTag_eq (Nat.one_le_iff_ne_zero.2 hempty)]

/-- A decoder's operation that raises ends the command with its kind, the frame's tag and the walk's position. -/
theorem exec_decodeInstr_of_raised {s : State} {d : Descriptor} {e : ErrKind} (hj : s.walk.j < 18)
    (hf : decodeField s.cfg d s.walk.j s.input s.walk.off = .raised e) :
    ∃ t, exec d.decodeInstr s = .next t ∧
      CompletedWith s t false e (if s.frameLen = 0 then 0 else (s.ibufByte 0).toNat) s.walk.j 0 0 ∧
      SameIdentityWords s t := by
  have hdone := s.completedWith_raise e hj
  rw [s.toNat_frameTag] at hdone
  exact ⟨_, (exec_decodeInstr d s).trans (State.fieldStep_raised hj hf), hdone, rfl, rfl⟩

/-- Settles O28: the two reads raise on a frame that is too short, and the identity field on an identity that is. -/
theorem fieldRaiseEndsCommand : Obligations.FieldRaiseEndsCommand := by
  intro s tv bl msb mo hj tag nvs nls
  refine ⟨fun hn hshort => ?_, fun hread hn hshort => ?_, fun hid => ?_⟩
  · rw [← s.length_input] at hshort
    exact exec_decodeInstr_of_raised (d := ⟨tv, bl, msb, mo, .vs⟩) hj (fieldVs_of_short s.walk.j hn hshort)
  · rw [← s.length_input] at hshort
    exact exec_decodeInstr_of_raised (d := ⟨tv, bl, msb, mo, .lsb⟩) hj
      (fieldLsb_of_short hread tv s.walk.j hn hshort)
  · exact exec_decodeInstr_of_raised (d := ⟨tv, bl, msb, mo, .dev⟩) hj
      (fieldDev_of_short hid s.walk.j s.input s.walk.off)

end Sys2Proof.Machine

namespace Sys2Proof.Machine

/-! ## Writes while busy (spec/70_reset_and_hazards.md R126) -/

section
variable {s : State}

theorem State.writeReg_busy {o : Nat} (v : Word) (hbusy : s.status.busy = true) (ho : o = 0 ∨ o = 8) :
    s.writeReg o v = .refused .writeWhileBusy := by
  rcases ho with rfl | rfl <;> simp [State.writeReg, hbusy]

theorem State.writeIbuf_busy {o : Nat} (n : Nat) (v : Word) (hbusy : s.status.busy = true)
    (ho : o < s.cfg.bufBytes) : s.writeIbuf o n v = .refused .writeWhileBusy := by
  simp [State.writeIbuf, hbusy, ho]

/-- The write of a byte that IBUF holds; the buffer ends inside its window, so the address names no other window. -/
theorem State.hostWrite_ibuf_busy {a : BitVec 18} {n : Nat} (v : Word) (hwf : s.cfg.wf = true)
    (hbusy : s.status.busy = true) (hl : accessLegal a n = true) (hlo : 0x10000 ≤ a.toNat)
    (hhi : a.toNat < 0x10000 + s.cfg.bufBytes) : s.hostWrite a n v = .refused .writeWhileBusy := by
  obtain ⟨-, -, hbuf, -⟩ := Config.wf_ranges hwf
  have hw : windowOf a = .ibuf := (windowOf_iff a).2.1.2 ⟨hlo, by omega⟩
  have hoff : windowOffset a < s.cfg.bufBytes := by unfold windowOffset; omega
  exact (State.hostWrite_ibuf hl hw).trans (State.writeIbuf_busy n v hbusy hoff)

theorem State.hostWrite_reg_busy {a : BitVec 18} {n : Nat} (v : Word) (hbusy : s.status.busy = true)
    (hl : accessLegal a n = true) (ha : a.toNat = 0 ∨ a.toNat = 8) :
    s.hostWrite a n v = .refused .writeWhileBusy := by
  have hreg : a.toNat < 0x10000 := by omega
  refine (State.hostWrite_reg hl ((windowOf_iff a).1.2 hreg)).trans (State.writeReg_busy v hbusy ?_)
  rwa [windowOffset_of_reg hreg]

end

/-- Settles O39: CMD and IN_LEN are refused in the REG window, and an IBUF byte in its own. -/
theorem busyWritesRefused : Obligations.BusyWritesRefused := by
  intro s a n v rest hev hbusy hl haddr
  rw [step_write hev]
  obtain ⟨hwf, -, -⟩ := hev
  obtain hcmd | hinLen | ⟨hlo, hhi⟩ := haddr
  · exact State.hostWrite_reg_busy v hbusy hl (.inl hcmd)
  · exact State.hostWrite_reg_busy v hbusy hl (.inr hinLen)
  · exact State.hostWrite_ibuf_busy v hwf hbusy hl hlo hhi

/-! ## The reset input (spec/70_reset_and_hazards.md R123) -/

theorem step_reset {s : State} {rest : List Event} (h : NextEvent s .reset rest) :
    step s = .next (State.resetInput { s with inputs := rest }) := by
  obtain ⟨hwf, hmux, hinputs⟩ := h
  simp only [step, hwf, hmux, State.eventStep, hinputs]
  rfl

/-- Settles O49: the step is `resetInput`, whatever STATUS and PEND are. -/
theorem resetInputResets : Obligations.ResetInputResets := by
  intro s rest hev
  exact ⟨_, step_reset hev, State.resetInput_pend _, Status.word_zero, State.resetInput_inLen _,
    State.resetInput_outLen _, State.resetInput_hdrLen _, State.resetInput_idw0 _, State.resetInput_idw1 _,
    HeaderContext.get_zero, State.resetInput_cfg _, State.resetInput_inputs _⟩

end Sys2Proof.Machine
